-- ==== Sys2Proof/Word.lean ====
section
/-! DEFINITION. The widths of the codec block's data (spec 00_scope.md R9, R10): 32-bit registers, 8-bit
buffer bytes and the 64-bit hidden scratch accumulators. -/

namespace Sys2Proof

/-- A host-visible register, an operand or a result: 32 bits (R9, R21). -/
abbrev Word := BitVec 32

/-- One buffer byte: 8 bits (R10). -/
abbrev Byte := BitVec 8

/-- A hidden scratch accumulator, WACC or RACC: 64 bits (R9, R27, R29). -/
abbrev Acc := BitVec 64

end Sys2Proof
end

