-- ==== Sys2Proof/Syntax.lean ====
section
/-! DEFINITION. The commands of the block, one constructor per row of spec/opcode_table.json
(30_encoding.md R96). The width W of WRBITS and RDBITS is the only immediate (R92); every other operand is an
implicit register (R94). -/

namespace Sys2Proof

inductive Instr where
  | nop
  | winit
  /-- `w`: the 6-bit field W; 1..32 are the legal widths, and 0 and 33..63 still spell the command (R92). -/
  | wrbits (w : Nat)
  | wrbool
  | flush
  | wrbytes
  | rinit
  /-- `w`: the 6-bit field W, as for `wrbits` (R92). -/
  | rdbits (w : Nat)
  | rdbool
  | rdbytes
  | venc
  | vdec
  | svenc
  | svdec
  | zzenc32
  | zzdec32
  | zzenc64
  | zzdec64
  | bitsreq
  | strenc
  | strdec
  | recenc
  | recdec
  | mktag
  | ptag
  | twenc
  | twdec
  deriving DecidableEq, Repr

end Sys2Proof
end

