-- ==== Sys2Proof/WellFormed.lean ====
section
/-! DEFINITION. Which terms of `Instr` have a command word: the width of WRBITS and RDBITS must fit the six
bits CMD[13:8] (30_encoding.md R91, R92). No other command has an operand in its word (R94). -/

namespace Sys2Proof

/-- True exactly of the terms a command word can spell. -/
def Instr.wellFormed : Instr → Bool
  | .wrbits w => decide (w < 64)
  | .rdbits w => decide (w < 64)
  | .nop => true
  | .winit => true
  | .wrbool => true
  | .flush => true
  | .wrbytes => true
  | .rinit => true
  | .rdbool => true
  | .rdbytes => true
  | .venc => true
  | .vdec => true
  | .svenc => true
  | .svdec => true
  | .zzenc32 => true
  | .zzdec32 => true
  | .zzenc64 => true
  | .zzdec64 => true
  | .bitsreq => true
  | .strenc => true
  | .strdec => true
  | .recenc => true
  | .recdec => true
  | .mktag => true
  | .ptag => true
  | .twenc => true
  | .twdec => true

end Sys2Proof
end

