-- ==== Sys2Proof/Decode.lean ====
section
/-! DEFINITION. The command word and its decoder (30_encoding.md R90-R98), and after it the encoder written from
the same table (R96, R97). Every command is exactly one 32-bit word (R90). -/

namespace Sys2Proof

/-- Why a word spells no command; every reason gives the error ILLEGAL (R95, R98). -/
inductive DecodeError where
  /-- OP is not a row of R96. -/
  | unassignedOp
  /-- CMD[31:14] is not zero (R93). -/
  | reservedBits
  /-- W is not zero on a command that does not use it (R93). -/
  | widthNotUsed
  deriving DecidableEq, Repr

/-- OP = CMD[7:0] (R91). -/
def opField (c : Word) : Nat := c.toNat % 2 ^ 8

/-- W = CMD[13:8] (R91, R92): unsigned, neither scaled nor sign-extended. -/
def widthField (c : Word) : Nat := c.toNat / 2 ^ 8 % 2 ^ 6

/-- RSV = CMD[31:14] (R91). -/
def reservedField (c : Word) : Nat := c.toNat / 2 ^ 14

/-- The rows of R96, read from OP to command; the width is the W field as it stands. -/
def commandOf (op w : Nat) : Option Instr :=
  match op with
  | 0x00 => some .nop
  | 0x10 => some .winit
  | 0x11 => some (.wrbits w)
  | 0x12 => some .wrbool
  | 0x13 => some .flush
  | 0x14 => some .wrbytes
  | 0x20 => some .rinit
  | 0x21 => some (.rdbits w)
  | 0x22 => some .rdbool
  | 0x23 => some .rdbytes
  | 0x30 => some .venc
  | 0x31 => some .vdec
  | 0x32 => some .svenc
  | 0x33 => some .svdec
  | 0x34 => some .zzenc32
  | 0x35 => some .zzdec32
  | 0x36 => some .zzenc64
  | 0x37 => some .zzdec64
  | 0x38 => some .bitsreq
  | 0x40 => some .strenc
  | 0x41 => some .strdec
  | 0x42 => some .recenc
  | 0x43 => some .recdec
  | 0x50 => some .mktag
  | 0x51 => some .ptag
  | 0x52 => some .twenc
  | 0x53 => some .twdec
  | _ => none

/-- The "uses W" column of R96. -/
def Instr.usesW : Instr → Bool
  | .wrbits _ => true
  | .rdbits _ => true
  | .nop => false
  | .winit => false
  | .wrbool => false
  | .flush => false
  | .wrbytes => false
  | .rinit => false
  | .rdbool => false
  | .rdbytes => false
  | .venc => false
  | .vdec => false
  | .svenc => false
  | .svdec => false
  | .zzenc32 => false
  | .zzdec32 => false
  | .zzenc64 => false
  | .zzdec64 => false
  | .bitsreq => false
  | .strenc => false
  | .strdec => false
  | .recenc => false
  | .recdec => false
  | .mktag => false
  | .ptag => false
  | .twenc => false
  | .twdec => false

/-- Decoding a command word, in the check order of R95. WRBITS and RDBITS check 1 ≤ W ≤ 32 themselves (R92). -/
def decode (c : Word) : Except DecodeError Instr :=
  match commandOf (opField c) (widthField c) with
  | none => .error .unassignedOp
  | some i =>
    if reservedField c ≠ 0 then .error .reservedBits
    else if i.usesW = false ∧ widthField c ≠ 0 then .error .widthNotUsed
    else .ok i

/-- The OP column of R96. -/
def Instr.opcode : Instr → Nat
  | .nop => 0x00
  | .winit => 0x10
  | .wrbits _ => 0x11
  | .wrbool => 0x12
  | .flush => 0x13
  | .wrbytes => 0x14
  | .rinit => 0x20
  | .rdbits _ => 0x21
  | .rdbool => 0x22
  | .rdbytes => 0x23
  | .venc => 0x30
  | .vdec => 0x31
  | .svenc => 0x32
  | .svdec => 0x33
  | .zzenc32 => 0x34
  | .zzdec32 => 0x35
  | .zzenc64 => 0x36
  | .zzdec64 => 0x37
  | .bitsreq => 0x38
  | .strenc => 0x40
  | .strdec => 0x41
  | .recenc => 0x42
  | .recdec => 0x43
  | .mktag => 0x50
  | .ptag => 0x51
  | .twenc => 0x52
  | .twdec => 0x53

/-- The W field of the canonical word: the width for WRBITS and RDBITS, 0 for every other command (R97). -/
def Instr.width : Instr → Nat
  | .wrbits w => w
  | .rdbits w => w
  | .nop => 0
  | .winit => 0
  | .wrbool => 0
  | .flush => 0
  | .wrbytes => 0
  | .rinit => 0
  | .rdbool => 0
  | .rdbytes => 0
  | .venc => 0
  | .vdec => 0
  | .svenc => 0
  | .svdec => 0
  | .zzenc32 => 0
  | .zzdec32 => 0
  | .zzenc64 => 0
  | .zzdec64 => 0
  | .bitsreq => 0
  | .strenc => 0
  | .strdec => 0
  | .recenc => 0
  | .recdec => 0
  | .mktag => 0
  | .ptag => 0
  | .twenc => 0
  | .twdec => 0

/-- The canonical command word `(w << 8) | OP` of R97. -/
def encode (i : Instr) : Word := BitVec.ofNat 32 (i.width * 2 ^ 8 + i.opcode)

/-- The command the decoder reads from an opcode-table word of `nbits` bits. A command word is one 32-bit value
written whole to CMD (R90), so it has no byte order of its own (R68); bits above `nbits` are 0. -/
def decodeTableWord (nbits w : Nat) : Option Instr :=
  match decode (BitVec.ofNat 32 (w % 2 ^ nbits)) with
  | .ok i => some i
  | .error _ => none

end Sys2Proof
end

