-- ==== Sys2Proof/Config.lean ====
section
/-! DEFINITION. What one implementation of the block fixes (spec 00_scope.md R9, 20_memory.md R75) and the
free values: the buffer bytes the spec leaves unspecified (70_reset_and_hazards.md R301, 20_memory.md R62). -/

namespace Sys2Proof

/-- The three byte buffers (R26). -/
inductive Buffer where
  | wbuf
  | rbuf
  | xbuf
  deriving DecidableEq, Repr

/-- The parameters a model takes as arguments: the three capacities in bytes (R9, OPEN) and the place the
platform gives the block in the host's address space (R75). -/
structure Config where
  wcap : Nat
  rcap : Nat
  xcap : Nat
  base : Word
  deriving DecidableEq, Repr

/-- The capacity ranges of R9. The base address has no range in the spec. -/
abbrev Config.Legal (c : Config) : Prop :=
  (1024 ≤ c.wcap ∧ c.wcap ≤ 65536) ∧ (1024 ≤ c.rcap ∧ c.rcap ≤ 65536) ∧ (512 ≤ c.xcap ∧ c.xcap ≤ 65536)

/-- The smallest legal capacities, at base address 0: the configuration of the spec's own test vectors
(95_test_vectors.md, Conventions). DESIGN CHOICE, log entry 1: only `Machine.State.reset` uses it. -/
def Config.smallest : Config := { wcap := 1024, rcap := 1024, xcap := 512, base := 0 }

/-- FREE VALUE (R301, R128; log entry 3): byte `i` of buffer `b` after the `draw`-th reset, while nothing has
written it. No value of it can be proved; it is fixed once drawn, and may differ from one reset to the next. -/
opaque Config.freeByte (draw : Nat) (b : Buffer) (i : Nat) : Byte

/-- FREE VALUE (R62, D50; log entry 4): what a host read of WBUF[i] returns for i at or beyond WBYTES. `draw`
counts the resets and WINITs so far, since neither keeps the bytes left from an earlier encode. -/
opaque Config.freeTail (draw : Nat) (i : Nat) : Byte

end Sys2Proof
end

