-- ==== Sys2Proof/Machine/State.lean ====
section
/-! DEFINITION. The state of the block as plain data (10_state.md), the host accesses it is driven by
(20_memory.md R60, R63), its faults and refusals, and the state after reset (70_reset_and_hazards.md R300). -/

namespace Sys2Proof.Machine

/-- A byte buffer: (index, byte) pairs, indexes strictly rising (`Memory.wf`). An unlisted index is a byte nothing
has written since reset; at this level it reads as no value (`none`), and the machine draws the byte (log entry 3). -/
abbrev Memory := List Host.Cell

/-- The error codes of 60_exceptions.md R271 other than OK. -/
inductive ErrorCode where
  | illegal
  | width
  | underrun
  | wovf
  | strlen
  | voverlong
  | vtrunc
  | range
  | wiretype
  | lenovr
  | xrange
  | trunc
  deriving DecidableEq, Repr

/-- STATUS (R23): ECODE = bits 7:0, ERR = bit 8, SHORT = bit 9. Bits 31:10 are reserved and read as 0, so nothing
holds them. -/
structure Status where
  ecode : BitVec 8
  err : Bool
  short : Bool
  deriving DecidableEq, Repr

/-- The writer (R27, R140): the output buffer WBUF and the registers WBYTES, WCNT, WTOTAL and the hidden WACC. -/
structure Writer where
  buf : Memory
  bytes : Word
  cnt : Word
  total : Word
  acc : Acc
  deriving DecidableEq, Repr

/-- The reader (R29, R160) but for its buffer: RLEN, RCUR, RCNT, RTOTAL and the hidden RACC. -/
structure Reader where
  len : Word
  cur : Word
  cnt : Word
  total : Word
  acc : Acc
  deriving DecidableEq, Repr

/-- The names of the field registers (R31). -/
inductive FReg where
  | f0
  | f1
  | f2
  | f3
  | f4
  | f5
  | f6
  | f7
  deriving DecidableEq, Repr

/-- The field registers F0-F7 (R31). -/
structure FRegs where
  f0 : Word
  f1 : Word
  f2 : Word
  f3 : Word
  f4 : Word
  f5 : Word
  f6 : Word
  f7 : Word
  deriving DecidableEq, Repr

/-- The host-visible registers of the register map (R21). -/
inductive Reg where
  | cmd
  | status
  | arg0
  | arg1
  | res0
  | res1
  | wbytes
  | wcnt
  | wtotal
  | rlen
  | rcur
  | rcnt
  | rtotal
  | capw
  | capr
  | capx
  | f (k : FReg)
  deriving DecidableEq, Repr

/-- One event at the block's host port: a bus read or write of `bits` bits at a 32-bit host byte address (R60,
R63), or an assertion of the hardware reset input (R300). -/
inductive HostAccess where
  | read (bits : Nat) (addr : Word)
  | write (bits : Nat) (addr : Word) (data : Word)
  | reset
  deriving DecidableEq, Repr

/-- The state of the block, and of the host port that drives it. -/
structure State where
  /-- The implementation's parameters; CAPW, CAPR and CAPX read them (R32). No step changes them. -/
  cfg : Config
  /-- CMD (R22): the last command word written. -/
  cmd : Word
  /-- STATUS (R23). -/
  status : Status
  /-- ARG0 (R24). -/
  arg0 : Word
  /-- ARG1 (R24). -/
  arg1 : Word
  /-- RES0 (R25). -/
  res0 : Word
  /-- RES1 (R25). -/
  res1 : Word
  /-- WBYTES, WCNT, WTOTAL, WACC and WBUF (R27). -/
  writer : Writer
  /-- RLEN, RCUR, RCNT, RTOTAL and RACC (R29). -/
  reader : Reader
  /-- F0-F7 (R31). -/
  f : FRegs
  /-- RBUF (R26). -/
  rbuf : Memory
  /-- XBUF (R26). -/
  xbuf : Memory
  /-- The model's own: the host accesses not yet issued, oldest first, in the one total order of R77 (log entry 2). -/
  hostQueue : List HostAccess
  /-- The model's own: the data the host's reads have returned, oldest first (R110, `get` and `peek`; log entry 2). -/
  hostReads : List Word
  /-- The model's own: how many resets have been taken, the index of the free bytes of R301 (log entry 3). -/
  resetDraw : Nat
  /-- The model's own: how many resets and WINITs have been taken, the index of the free bytes of R62 (log entry 4). -/
  tailDraw : Nat
  deriving DecidableEq, Repr

/-- Why a step stops. All four are the bus errors of R64: the spec says a model treats one as a host fault, a run
with no meaning, that changes no block state and returns no data (R64, R287). Safe: the machine stops. -/
inductive Fault where
  /-- Raised by a host access to an address that is neither a register nor a valid window byte (R64, R75). Safe. -/
  | busUnmapped
  /-- Raised by a host access in the register space at an address that is not a multiple of 4 (R64). Safe. -/
  | busMisaligned
  /-- Raised by a host access whose width is not the one R63 gives for its address. Safe. -/
  | busWidth
  /-- Raised by a host write to a WBUF window byte (R62, R64). Safe. -/
  | busWbufWrite
  deriving DecidableEq, Repr

/-- Why the model gives no meaning. -/
inductive Refusal where
  /-- Raised by an arm of `exec` whose command has no meaning yet. Safe. No arm raises it: all 27 are modelled. -/
  | notModelled (mnemonic : String)
  deriving DecidableEq, Repr

/-! Named updates: every meaning changes the state through these. -/

def State.setCmd (v : Word) (s : State) : State := { s with cmd := v }
def State.setStatus (v : Status) (s : State) : State := { s with status := v }
def State.setArg0 (v : Word) (s : State) : State := { s with arg0 := v }
def State.setArg1 (v : Word) (s : State) : State := { s with arg1 := v }
def State.setRes0 (v : Word) (s : State) : State := { s with res0 := v }
def State.setRes1 (v : Word) (s : State) : State := { s with res1 := v }
def State.setWriter (v : Writer) (s : State) : State := { s with writer := v }
def State.setReader (v : Reader) (s : State) : State := { s with reader := v }
def State.setF (v : FRegs) (s : State) : State := { s with f := v }
def State.setRbuf (v : Memory) (s : State) : State := { s with rbuf := v }
def State.setXbuf (v : Memory) (s : State) : State := { s with xbuf := v }
def State.setHostQueue (v : List HostAccess) (s : State) : State := { s with hostQueue := v }
def State.setHostReads (v : List Word) (s : State) : State := { s with hostReads := v }
def State.setTailDraw (v : Nat) (s : State) : State := { s with tailDraw := v }

/-- A freshly constructed writer over an unwritten WBUF (R300). -/
def Writer.empty : Writer := { buf := [], bytes := 0, cnt := 0, total := 0, acc := 0 }

/-- A freshly constructed reader over no bytes (R300): the values of RINIT with length 0. -/
def Reader.empty : Reader := { len := 0, cur := 0, cnt := 0, total := 0, acc := 0 }

/-- The reset state of R300 for the implementation `c`: every register at 0 and no buffer byte known (R301). -/
def State.resetWith (c : Config) : State where
  cfg := c
  cmd := 0
  status := { ecode := 0, err := false, short := false }
  arg0 := 0
  arg1 := 0
  res0 := 0
  res1 := 0
  writer := Writer.empty
  reader := Reader.empty
  f := { f0 := 0, f1 := 0, f2 := 0, f3 := 0, f4 := 0, f5 := 0, f6 := 0, f7 := 0 }
  rbuf := []
  xbuf := []
  hostQueue := []
  hostReads := []
  resetDraw := 0
  tailDraw := 0

/-- The machine right after reset (R300), idle, with no host access pending (R302). DESIGN CHOICE, log entry 1: the
capacities the spec leaves OPEN are the smallest legal ones here; statements hold for every configuration. -/
def State.reset : State := State.resetWith Config.smallest

end Sys2Proof.Machine
end

