-- ==== Sys2Proof/Machine/Flags.lean ====
section
/-! DEFINITION. STATUS and the error codes: every flag computation of the block (10_state.md R23, R35;
60_exceptions.md R271, R274, R276). -/

namespace Sys2Proof.Machine

/-- ECODE 0x00: the command completed (R271). -/
def ecodeOk : BitVec 8 := 0x00

/-- The code column of R271. -/
def ErrorCode.code : ErrorCode → BitVec 8
  | .illegal => 0x01
  | .width => 0x02
  | .underrun => 0x03
  | .wovf => 0x04
  | .strlen => 0x05
  | .voverlong => 0x06
  | .vtrunc => 0x07
  | .range => 0x08
  | .wiretype => 0x09
  | .lenovr => 0x0A
  | .xrange => 0x0B
  | .trunc => 0x0C

/-- STATUS as the host reads it: SHORT in bit 9, ERR in bit 8, ECODE in bits 7:0, zeros above (R23). -/
def Status.word (st : Status) : Word :=
  (bif st.short then 0x200 else 0) ||| (bif st.err then 0x100 else 0) ||| st.ecode.setWidth 32

/-- A successful command writes ECODE ← OK and leaves ERR and SHORT (R121). -/
def Status.succeed (st : Status) : Status := { st with ecode := ecodeOk }

/-- The error entry's status: ECODE ← E, ERR ← 1, SHORT unchanged (R274). -/
def Status.raise (e : ErrorCode) (st : Status) : Status := { st with ecode := e.code, err := true }

/-- SHORT ← 1, by an RDBYTES that copied fewer bytes than requested (R168). -/
def Status.setShort (st : Status) : Status := { st with short := true }

/-- A host write of `v` to STATUS: ERR and SHORT are write-1-to-clear, ECODE and the rest ignore the write (R23). -/
def Status.hostWrite (v : Word) (st : Status) : Status :=
  { st with err := st.err && !v.getLsbD 8, short := st.short && !v.getLsbD 9 }

end Sys2Proof.Machine
end

