-- ==== Sys2Proof/Machine/Operands.lean ====
section
/-! DEFINITION. The operand forms of the commands (30_encoding.md R92, R94; 10_state.md R24, R31) and the register
map the host sees (10_state.md R21, R36). -/

namespace Sys2Proof.Machine

/-- ARG1:ARG0 as one 64-bit pattern, ARG1 the high half (R191, R192). -/
def State.argPair (s : State) : BitVec 64 := s.arg1 ++ s.arg0

/-- A 64-bit result into RES1:RES0, RES1 the high half (R191, R192). -/
def State.setResPair (r : BitVec 64) (s : State) : State :=
  (s.setRes0 (r.extractLsb' 0 32)).setRes1 (r.extractLsb' 32 32)

/-- A boolean operand: any non-zero word is true, and true is written as 1 (R146, R219). -/
def boolWord (v : Word) : Word := if v ≠ 0 then 1 else 0

/-- Is `w` a legal bit-field width, 1..32 (R92)? -/
def legalWidth (w : Nat) : Bool := decide (1 ≤ w ∧ w ≤ 32)

def FRegs.get (f : FRegs) : FReg → Word
  | .f0 => f.f0
  | .f1 => f.f1
  | .f2 => f.f2
  | .f3 => f.f3
  | .f4 => f.f4
  | .f5 => f.f5
  | .f6 => f.f6
  | .f7 => f.f7

def FRegs.set (f : FRegs) (k : FReg) (v : Word) : FRegs :=
  match k with
  | .f0 => { f with f0 := v }
  | .f1 => { f with f1 := v }
  | .f2 => { f with f2 := v }
  | .f3 => { f with f3 := v }
  | .f4 => { f with f4 := v }
  | .f5 => { f with f5 := v }
  | .f6 => { f with f6 := v }
  | .f7 => { f with f7 := v }

/-- The address column of R21, as an offset from the block's base (R75). -/
def Reg.offset : Reg → Nat
  | .cmd => 0x000
  | .status => 0x004
  | .arg0 => 0x008
  | .arg1 => 0x00C
  | .res0 => 0x010
  | .res1 => 0x014
  | .wbytes => 0x018
  | .wcnt => 0x01C
  | .wtotal => 0x020
  | .rlen => 0x024
  | .rcur => 0x028
  | .rcnt => 0x02C
  | .rtotal => 0x030
  | .capw => 0x034
  | .capr => 0x038
  | .capx => 0x03C
  | .f .f0 => 0x080
  | .f .f1 => 0x084
  | .f .f2 => 0x088
  | .f .f3 => 0x08C
  | .f .f4 => 0x090
  | .f .f5 => 0x094
  | .f .f6 => 0x098
  | .f .f7 => 0x09C

/-- The register at an offset of the register map, none at a reserved one (R21, R75). -/
def Reg.ofOffset (o : Nat) : Option Reg :=
  match o with
  | 0x000 => some .cmd
  | 0x004 => some .status
  | 0x008 => some .arg0
  | 0x00C => some .arg1
  | 0x010 => some .res0
  | 0x014 => some .res1
  | 0x018 => some .wbytes
  | 0x01C => some .wcnt
  | 0x020 => some .wtotal
  | 0x024 => some .rlen
  | 0x028 => some .rcur
  | 0x02C => some .rcnt
  | 0x030 => some .rtotal
  | 0x034 => some .capw
  | 0x038 => some .capr
  | 0x03C => some .capx
  | 0x080 => some (.f .f0)
  | 0x084 => some (.f .f1)
  | 0x088 => some (.f .f2)
  | 0x08C => some (.f .f3)
  | 0x090 => some (.f .f4)
  | 0x094 => some (.f .f5)
  | 0x098 => some (.f .f6)
  | 0x09C => some (.f .f7)
  | _ => none

/-- What a host read of a register returns: its current value (R36), without side effect (R74). -/
def readReg (r : Reg) (s : State) : Word :=
  match r with
  | .cmd => s.cmd
  | .status => s.status.word
  | .arg0 => s.arg0
  | .arg1 => s.arg1
  | .res0 => s.res0
  | .res1 => s.res1
  | .wbytes => s.writer.bytes
  | .wcnt => s.writer.cnt
  | .wtotal => s.writer.total
  | .rlen => s.reader.len
  | .rcur => s.reader.cur
  | .rcnt => s.reader.cnt
  | .rtotal => s.reader.total
  | .capw => BitVec.ofNat 32 s.cfg.wcap
  | .capr => BitVec.ofNat 32 s.cfg.rcap
  | .capx => BitVec.ofNat 32 s.cfg.xcap
  | .f k => s.f.get k

/-- A host write of a register, less the command a CMD write starts (R36, R74): CMD, ARG0, ARG1 and F0-F7 store the
word, STATUS clears what the word says, and a read-only register ignores the write. -/
def writeReg (r : Reg) (v : Word) (s : State) : State :=
  match r with
  | .cmd => s.setCmd v
  | .status => s.setStatus (s.status.hostWrite v)
  | .arg0 => s.setArg0 v
  | .arg1 => s.setArg1 v
  | .f k => s.setF (s.f.set k v)
  | .res0 => s
  | .res1 => s
  | .wbytes => s
  | .wcnt => s
  | .wtotal => s
  | .rlen => s
  | .rcur => s
  | .rcnt => s
  | .rtotal => s
  | .capw => s
  | .capr => s
  | .capx => s

end Sys2Proof.Machine
end

