-- ==== Sys2Proof/Machine/Ops.lean ====
section
/-! DEFINITION. The operations every command is built from: bytes of a buffer (00_scope.md R13), the writer's put,
wflush and putraw (41_bitstream_writer.md R142, R147, R148), the reader's take, ralign and takeraw
(42_bitstream_reader.md R162, R167, R169), and the end of a command, its commit or its error entry
(40_control.md R121; 60_exceptions.md R274). -/

namespace Sys2Proof.Machine

/-! Memory. -/

/-- The byte listed at index `a`; none where nothing has been written since reset. -/
def Memory.read : Memory → Nat → Option Byte
  | [], _ => none
  | (k, b) :: m, a => if a = k then some b else Memory.read m a

/-- Store byte `b` at index `a`, keeping the indexes strictly rising. -/
def Memory.write : Memory → Nat → Byte → Memory
  | [], a, b => [(a, b)]
  | (k, c) :: m, a, b =>
    if a < k then (a, b) :: (k, c) :: m
    else if a = k then (a, b) :: m
    else (k, c) :: Memory.write m a b

/-- The indexes are at least `lo` and strictly rising. -/
def Memory.rising : Nat → Memory → Bool
  | _, [] => true
  | lo, (k, _) :: m => decide (lo ≤ k) && Memory.rising (k + 1) m

/-- The canonical form: indexes strictly rising, so equal buffers are equal lists. No entry can equal what an
unlisted index reads as, since that is no value (`Memory.read`). -/
def Memory.wf (m : Memory) : Bool := Memory.rising 0 m

/-- Every listed index is below `cap`: no command or host access writes past a buffer's capacity (R60). -/
def Memory.below (cap : Nat) (m : Memory) : Bool := m.all fun c => decide (c.1 < cap)

/-- MemWrite (R13): the bytes of the sequence at a, a+1, ... -/
def storeBytes : Memory → Nat → List Byte → Memory
  | m, _, [] => m
  | m, a, b :: bs => storeBytes (Memory.write m a b) (a + 1) bs

/-- MemRead (R13): the `n` bytes at a, a+1, ... of a buffer that reads as `rd`. -/
def bytesFrom (rd : Nat → Byte) (a n : Nat) : List Byte := (List.range n).map fun i => rd (a + i)

/-- RBUF[i]: the byte written last, or the free byte of this reset (R77, R301). -/
def State.rbufByte (s : State) (i : Nat) : Byte :=
  (Memory.read s.rbuf i).getD (Config.freeByte s.resetDraw .rbuf i)

/-- XBUF[i]: the byte written last, or the free byte of this reset (R77, R301). -/
def State.xbufByte (s : State) (i : Nat) : Byte :=
  (Memory.read s.xbuf i).getD (Config.freeByte s.resetDraw .xbuf i)

/-- WBUF[i]: a committed byte (i < WBYTES), or at and beyond WBYTES an unspecified byte (R62, D50). -/
def State.wbufByte (s : State) (i : Nat) : Byte :=
  if i < s.writer.bytes.toNat then (Memory.read s.writer.buf i).getD (Config.freeByte s.resetDraw .wbuf i)
  else Config.freeTail s.tailDraw i

/-! Byte sequences. -/

/-- ceil8(n) = (n + 7) div 8 (R11). -/
def ceil8 (n : Nat) : Nat := (n + 7) / 8

/-- v[w-1:0], as a 64-bit value (R10). -/
def lowBits {n : Nat} (v : BitVec n) (w : Nat) : Acc := (v.setWidth w).setWidth 64

/-- le32bytes (R12): the four bytes of a word, least significant first. -/
def le32Bytes (v : Word) : List Byte :=
  [v.extractLsb' 0 8, v.extractLsb' 8 8, v.extractLsb' 16 8, v.extractLsb' 24 8]

/-- le32 (R12) of the four bytes at p, p+1, p+2, p+3 of a buffer that reads as `rd`. -/
def le32At (rd : Nat → Byte) (p : Nat) : Word := rd (p + 3) ++ rd (p + 2) ++ rd (p + 1) ++ rd p

/-! The writer's micro-operations. -/

/-- One round of put's drain loop (R142): the low byte of WACC goes to WBUF[WBYTES]. -/
def Writer.drainByte (w : Writer) : Writer :=
  { w with
    buf := Memory.write w.buf w.bytes.toNat (w.acc.extractLsb' 0 8)
    bytes := w.bytes + 1
    acc := w.acc >>> 8
    cnt := w.cnt - 8 }

/-- The drain loop's `k` rounds. -/
def Writer.drain : Nat → Writer → Writer
  | 0, w => w
  | k + 1, w => Writer.drain k w.drainByte

/-- put(v, n) of R142: append the low `n` bits of `v`, or raise WOVF if WBUF of `cap` bytes cannot hold them. The
loop "while WCNT >= 8" runs (WCNT + n) div 8 rounds. -/
def Writer.put (cap : Nat) (v : Word) (n : Nat) (w : Writer) : Except ErrorCode Writer :=
  if cap < ceil8 (8 * (w.bytes.toNat + (w.cnt.toNat + n) / 8) + (w.cnt.toNat + n) % 8) then .error .wovf
  else
    .ok (Writer.drain ((w.cnt.toNat + n) / 8)
      { w with
        acc := w.acc ||| (lowBits v n <<< w.cnt.toNat)
        cnt := w.cnt + BitVec.ofNat 32 n
        total := w.total + BitVec.ofNat 32 n })

/-- put(b, 8) for each byte of a sequence, in order (R185, R187, R212). -/
def Writer.putBytes (cap : Nat) : List Byte → Writer → Except ErrorCode Writer
  | [], w => .ok w
  | b :: bs, w => do
    let w1 ← w.put cap (b.setWidth 32) 8
    Writer.putBytes cap bs w1

/-- wflush() of R147: the pending bits, padded with zeros, become one byte of WBUF. WTOTAL does not count them. -/
def Writer.flush (w : Writer) : Writer :=
  if w.cnt = 0 then w
  else
    { w with
      buf := Memory.write w.buf w.bytes.toNat (w.acc.extractLsb' 0 8)
      bytes := w.bytes + 1
      acc := 0
      cnt := 0 }

/-- putraw(s) of R148: wflush, then the bytes verbatim, or WOVF. -/
def Writer.putRaw (cap : Nat) (bs : List Byte) (w : Writer) : Except ErrorCode Writer :=
  if cap < w.flush.bytes.toNat + bs.length then .error .wovf
  else
    .ok { w.flush with
          buf := storeBytes w.flush.buf w.flush.bytes.toNat bs
          bytes := w.flush.bytes + BitVec.ofNat 32 bs.length
          total := w.flush.total + BitVec.ofNat 32 (8 * bs.length) }

/-! The reader's micro-operations, over a buffer that reads as `rd`. -/

/-- RLEN - RCUR: the bytes the cursor has not passed. -/
def Reader.left (r : Reader) : Nat := r.len.toNat - r.cur.toNat

/-- avail of R161: the number of unread bits. -/
def Reader.avail (r : Reader) : Nat := 8 * r.left + r.cnt.toNat

/-- One round of take's pull loop (R162): RBUF[RCUR] goes above the bits already held. -/
def Reader.pullByte (rd : Nat → Byte) (r : Reader) : Reader :=
  { r with
    acc := r.acc ||| ((rd r.cur.toNat).setWidth 64 <<< r.cnt.toNat)
    cur := r.cur + 1
    cnt := r.cnt + 8 }

/-- The pull loop's `k` rounds. -/
def Reader.pull (rd : Nat → Byte) : Nat → Reader → Reader
  | 0, r => r
  | k + 1, r => Reader.pull rd k (r.pullByte rd)

/-- take's last steps (R162): the low `n` bits of RACC leave it. -/
def Reader.drop (n : Nat) (r : Reader) : Reader :=
  { r with
    acc := r.acc >>> n
    cnt := r.cnt - BitVec.ofNat 32 n
    total := r.total + BitVec.ofNat 32 n }

/-- take(n) of R162: the next `n` unread bits, or UNDERRUN with nothing pulled. The loop "while RCNT < n" runs
ceil8(n - RCNT) rounds. -/
def Reader.take (rd : Nat → Byte) (n : Nat) (r : Reader) : Except ErrorCode (Word × Reader) :=
  if r.avail < n then .error .underrun
  else
    .ok ((lowBits (r.pull rd (ceil8 (n - r.cnt.toNat))).acc n).setWidth 32,
      (r.pull rd (ceil8 (n - r.cnt.toNat))).drop n)

/-- ralign() of R167: the partial bits are discarded; RTOTAL does not count them. -/
def Reader.align (r : Reader) : Reader := { r with acc := 0, cnt := 0 }

/-- The cursor passes `k` bytes, and RTOTAL counts `8 * n` bits (R167, R169, R254). -/
def Reader.skip (k n : Nat) (r : Reader) : Reader :=
  { r with
    cur := r.cur + BitVec.ofNat 32 k
    total := r.total + BitVec.ofNat 32 (8 * n) }

/-- takeraw(a, n) of R169: `n` bytes into XBUF at `a`, or TRUNC. The caller has checked a + n ≤ XCAP. -/
def Reader.takeRaw (rd : Nat → Byte) (a n : Nat) (r : Reader) (xb : Memory) : Except ErrorCode (Reader × Memory) :=
  if r.align.left < n then .error .trunc
  else .ok (r.align.skip n n, storeBytes xb a (bytesFrom rd r.cur.toNat n))

/-! The end of a command. -/

/-- Taking an error (R274): no effect of the command survives, ECODE ← E, ERR ← 1, SHORT unchanged. `s` is the
state before the command, with the command word already in CMD (R120). -/
def takeError (e : ErrorCode) (s : State) : State := s.setStatus (s.status.raise e)

/-- The return from an error is the host's alone (R276): it reads ECODE and clears ERR and SHORT by a STATUS write. -/
def clearSticky (s : State) : State := s.setStatus (s.status.hostWrite 0x300)

/-- Committing a command (R121): its effects at once, and ECODE ← OK. -/
def commit (s : State) : State := s.setStatus s.status.succeed

/-- The command cycle's two ends (R121, R123): `r` is what the command made of its working copy of `s`. -/
def finish (s : State) (r : Except ErrorCode State) : Host.Outcome State Fault Refusal :=
  match r with
  | .ok s' => .next (commit s')
  | .error e => .next (takeError e s)

end Sys2Proof.Machine
end

