-- ==== Sys2Proof/Machine/BitReader.lean ====
section
/-! DEFINITION. The reader family (42_bitstream_reader.md): RINIT, RDBITS, RDBOOL, RDBYTES. -/

namespace Sys2Proof.Machine

/-- RINIT (R164): a fresh reader over RBUF[0..ARG0), or RANGE if ARG0 > RCAP. -/
def execRinit (s : State) : Host.Outcome State Fault Refusal :=
  finish s
    (if s.cfg.rcap < s.arg0.toNat then .error .range
    else .ok (s.setReader { len := s.arg0, cur := 0, acc := 0, cnt := 0, total := 0 }))

/-- RDBITS (R165): WIDTH unless 1 ≤ W ≤ 32, then RES0 ← take(W). -/
def execRdbits (w : Nat) (s : State) : Host.Outcome State Fault Refusal :=
  finish s
    (if legalWidth w then (s.reader.take s.rbufByte w).map fun v => (s.setReader v.2).setRes0 v.1
    else .error .width)

/-- RDBOOL (R166): RES0 ← (take(1) ≠ 0) ? 1 : 0. -/
def execRdbool (s : State) : Host.Outcome State Fault Refusal :=
  finish s ((s.reader.take s.rbufByte 1).map fun v => (s.setReader v.2).setRes0 (boolWord v.1))

/-- The k of R167: the bytes an RDBYTES copies, min(ARG1, RLEN - RCUR). -/
def State.copyCount (s : State) : Nat := min s.arg1.toNat s.reader.left

/-- RDBYTES' steps after its check (R167): align, copy k bytes into XBUF at ARG0, count the nominal length, RES0 ← k. -/
def State.readBytes (s : State) : State :=
  ((s.setReader (s.reader.align.skip s.copyCount s.arg1.toNat)).setXbuf
    (storeBytes s.xbuf s.arg0.toNat (bytesFrom s.rbufByte s.reader.cur.toNat s.copyCount))).setRes0
    (BitVec.ofNat 32 s.copyCount)

/-- RDBYTES (R167, R168): XRANGE unless ARG0 + ARG1 ≤ XCAP; a short copy is no error, but sets SHORT. -/
def execRdbytes (s : State) : Host.Outcome State Fault Refusal :=
  finish s
    (if s.cfg.xcap < s.arg0.toNat + s.arg1.toNat then .error .xrange
    else if s.copyCount < s.arg1.toNat then .ok (s.readBytes.setStatus s.status.setShort)
    else .ok s.readBytes)

end Sys2Proof.Machine
end

