-- ==== Sys2Proof/Machine/BitWriter.lean ====
section
/-! DEFINITION. The writer family (41_bitstream_writer.md): WINIT, WRBITS, WRBOOL, FLUSH, WRBYTES. -/

namespace Sys2Proof.Machine

/-- WINIT (R144): a fresh writer. No byte of WBUF is written (D50), but the bytes left in it are no longer the
host's to rely on, so the draw of R62's unspecified bytes moves on (log entry 4). -/
def execWinit (s : State) : Host.Outcome State Fault Refusal :=
  finish s (.ok ((s.setWriter { s.writer with bytes := 0, cnt := 0, acc := 0, total := 0 }).setTailDraw
    (s.tailDraw + 1)))

/-- WRBITS (R145): WIDTH unless 1 ≤ W ≤ 32, then put(ARG0, W). -/
def execWrbits (w : Nat) (s : State) : Host.Outcome State Fault Refusal :=
  finish s (if legalWidth w then (s.writer.put s.cfg.wcap s.arg0 w).map fun w1 => s.setWriter w1 else .error .width)

/-- WRBOOL (R146): put((ARG0 ≠ 0) ? 1 : 0, 1). -/
def execWrbool (s : State) : Host.Outcome State Fault Refusal :=
  finish s ((s.writer.put s.cfg.wcap (boolWord s.arg0) 1).map fun w1 => s.setWriter w1)

/-- FLUSH (R147): wflush(). -/
def execFlush (s : State) : Host.Outcome State Fault Refusal := finish s (.ok (s.setWriter s.writer.flush))

/-- WRBYTES (R148): XRANGE unless ARG0 + ARG1 ≤ XCAP (an exact sum, D26), then putraw of XBUF[ARG0 .. ARG0+ARG1). -/
def execWrbytes (s : State) : Host.Outcome State Fault Refusal :=
  finish s
    (if s.cfg.xcap < s.arg0.toNat + s.arg1.toNat then .error .xrange
    else (s.writer.putRaw s.cfg.wcap (bytesFrom s.xbufByte s.arg0.toNat s.arg1.toNat)).map fun w1 => s.setWriter w1)

end Sys2Proof.Machine
end

