-- ==== Sys2Proof/Machine/Control.lean ====
section
/-! DEFINITION. The control family (40_control.md): NOP. -/

namespace Sys2Proof.Machine

/-- NOP (R125): no effect but ECODE ← OK. -/
def execNop (s : State) : Host.Outcome State Fault Refusal := finish s (.ok s)

end Sys2Proof.Machine
end

