-- ==== Sys2Proof/Machine/Varint.lean ====
section
/-! DEFINITION. The varint family (43_varint_zigzag.md): the varint and ZigZag codings and bits_required, and the
commands VENC, VDEC, SVENC, SVDEC, ZZENC32, ZZDEC32, ZZENC64, ZZDEC64, BITSREQ. -/

namespace Sys2Proof.Machine

/-- The loop of varint_enc (R181): at most `fuel` bytes; five are enough for 32 bits. -/
def varintEncLoop : Nat → Word → List Byte
  | 0, _ => []
  | fuel + 1, v =>
    if v >>> 7 ≠ 0 then (0x80 ||| v.setWidth 8) :: varintEncLoop fuel (v >>> 7)
    else [v.setWidth 8]

/-- varint_enc of R181. -/
def varintEnc (v : Word) : List Byte := varintEncLoop 5 v

/-- The loop of varint_dec (R182) over a byte source: `next` answers none where the source has no more. `n` bytes
have been read, the shift is 7n, and `fuel` more may be; a continuation flag on the last one is VOVERLONG. -/
def varintDecLoop {σ : Type} (next : σ → Option (Byte × σ)) :
    Nat → Word → Nat → σ → Except ErrorCode (Word × Nat × σ)
  | 0, _, _, _ => .error .voverlong
  | fuel + 1, acc, n, src =>
    match next src with
    | none => .error .vtrunc
    | some (b, src') =>
      if b.getLsbD 7 then varintDecLoop next fuel (acc ||| ((b &&& 0x7F).setWidth 32 <<< (7 * n))) (n + 1) src'
      else .ok (acc ||| ((b &&& 0x7F).setWidth 32 <<< (7 * n)), n + 1, src')

/-- varint_dec of R182: the value, the number of bytes read, and the source after them. -/
def varintDec {σ : Type} (next : σ → Option (Byte × σ)) (src : σ) : Except ErrorCode (Word × Nat × σ) :=
  varintDecLoop next 5 0 0 src

/-- The stream source of R182: next() is take(8), and there is more while 8 unread bits remain. -/
def streamNext (rd : Nat → Byte) (r : Reader) : Option (Byte × Reader) :=
  if r.avail < 8 then none
  else
    match r.take rd 8 with
    | .ok (v, r') => some (v.setWidth 8, r')
    | .error _ => none

/-- The region source of R182 over bytes q..hi. -/
def regionNext (rd : Nat → Byte) (hi : Nat) (q : Nat) : Option (Byte × Nat) :=
  if q < hi then some (rd q, q + 1) else none

/-- zz_enc_w of R183, at the operand's width. -/
def zigzagEnc {w : Nat} (n : BitVec w) : BitVec w := (n <<< 1) ^^^ n.sshiftRight (w - 1)

/-- zz_dec_w of R183, at the operand's width. -/
def zigzagDec {w : Nat} (u : BitVec w) : BitVec w := (u >>> 1) ^^^ -(u &&& 1)

/-- The loop of bits_required (R184), from b up, at most `fuel` rounds. -/
def bitsLoop : Nat → Nat → Nat → Nat
  | 0, b, _ => b
  | fuel + 1, b, d => if 2 ^ b ≤ d then bitsLoop fuel (b + 1) d else b

/-- bits_required of R184, on exact integers. The difference of two 32-bit values is below 2^32, so 31 rounds do. -/
def bitsRequired (lo hi : Int) : Except ErrorCode Nat :=
  if hi - lo < 0 then .error .range else .ok (bitsLoop 31 1 (hi - lo).toNat)

/-- VENC (R185): the varint of ARG0 at the current bit offset; RES0 ← its byte count. -/
def execVenc (s : State) : Host.Outcome State Fault Refusal :=
  finish s ((s.writer.putBytes s.cfg.wcap (varintEnc s.arg0)).map fun w1 =>
    (s.setWriter w1).setRes0 (BitVec.ofNat 32 (varintEnc s.arg0).length))

/-- VDEC (R186): a varint from the stream; RES0 ← value, RES1 ← bytes consumed. -/
def execVdec (s : State) : Host.Outcome State Fault Refusal :=
  finish s ((varintDec (streamNext s.rbufByte) s.reader).map fun v =>
    ((s.setReader v.2.2).setRes0 v.1).setRes1 (BitVec.ofNat 32 v.2.1))

/-- SVENC (R187): the varint of ARG0's ZigZag image; RES0 ← its byte count, RES1 ← the image. -/
def execSvenc (s : State) : Host.Outcome State Fault Refusal :=
  finish s ((s.writer.putBytes s.cfg.wcap (varintEnc (zigzagEnc s.arg0))).map fun w1 =>
    ((s.setWriter w1).setRes0 (BitVec.ofNat 32 (varintEnc (zigzagEnc s.arg0)).length)).setRes1 (zigzagEnc s.arg0))

/-- SVDEC (R188): a varint from the stream; RES0 ← its ZigZag preimage, RES1 ← bytes consumed. -/
def execSvdec (s : State) : Host.Outcome State Fault Refusal :=
  finish s ((varintDec (streamNext s.rbufByte) s.reader).map fun v =>
    ((s.setReader v.2.2).setRes0 (zigzagDec v.1)).setRes1 (BitVec.ofNat 32 v.2.1))

/-- ZZENC32 (R189). -/
def execZzenc32 (s : State) : Host.Outcome State Fault Refusal := finish s (.ok (s.setRes0 (zigzagEnc s.arg0)))

/-- ZZDEC32 (R190). -/
def execZzdec32 (s : State) : Host.Outcome State Fault Refusal := finish s (.ok (s.setRes0 (zigzagDec s.arg0)))

/-- ZZENC64 (R191). -/
def execZzenc64 (s : State) : Host.Outcome State Fault Refusal :=
  finish s (.ok (s.setResPair (zigzagEnc s.argPair)))

/-- ZZDEC64 (R192). -/
def execZzdec64 (s : State) : Host.Outcome State Fault Refusal :=
  finish s (.ok (s.setResPair (zigzagDec s.argPair)))

/-- BITSREQ (R193): RES0 ← bits_required of the signed ARG0 and ARG1, or RANGE. -/
def execBitsreq (s : State) : Host.Outcome State Fault Refusal :=
  finish s ((bitsRequired s.arg0.toInt s.arg1.toInt).map fun b => s.setRes0 (BitVec.ofNat 32 b))

end Sys2Proof.Machine
end

