-- ==== Sys2Proof/Machine/Record.lean ====
section
/-! DEFINITION. The record family (44_record.md): the string sub-procedure, the PlayerState schema, and the commands
STRENC, STRDEC, RECENC, RECDEC. -/

namespace Sys2Proof.Machine

/-- The longest text: 255 bytes (R9, R212). -/
def maxText : Nat := 255

/-- str_write(a, n) of R212: the length as a varint at the current bit offset, then the bytes, aligned. -/
def State.strWrite (s : State) (a n : Nat) (w : Writer) : Except ErrorCode Writer :=
  if maxText < n then .error .strlen
  else if s.cfg.xcap < a + n then .error .xrange
  else do
    let w1 ← w.putBytes s.cfg.wcap (varintEnc (BitVec.ofNat 32 n))
    w1.putRaw s.cfg.wcap (bytesFrom s.xbufByte a n)

/-- str_read(a) of R213: the length, the reader after the text, and XBUF with the text at `a`. -/
def State.strRead (s : State) (a : Nat) (r : Reader) : Except ErrorCode (Word × Reader × Memory) := do
  let v ← varintDec (streamNext s.rbufByte) r
  if maxText < v.1.toNat then .error .strlen
  else if s.cfg.xcap < a + v.1.toNat then .error .xrange
  else do
    let t ← v.2.2.takeRaw s.rbufByte a v.1.toNat s.xbuf
    .ok (v.1, t.1, t.2)

/-- A numeric field of a record: its register and its declared range (R214). -/
structure NumericField where
  reg : FReg
  lo : Int
  hi : Int
  deriving DecidableEq, Repr

/-- The numeric fields of PlayerState, in wire order: x, y, z, health, heading, team (R214). After them come the
boolean alive in F6 and the text name, its length in F7. This table is the one place that fixes the widths (D57). -/
def playerNumeric : List NumericField :=
  [⟨.f0, 0, 1023⟩, ⟨.f1, 0, 1023⟩, ⟨.f2, 0, 1023⟩, ⟨.f3, 0, 100⟩, ⟨.f4, 0, 359⟩, ⟨.f5, 0, 3⟩]

/-- A field's width is bits_required of its declared range, never a constant (R211, R215). -/
def NumericField.width (x : NumericField) : Except ErrorCode Nat := bitsRequired x.lo x.hi

/-- Is the unsigned register value `v` inside the field's declared range (D23, D24)? -/
def NumericField.admits (x : NumericField) (v : Word) : Bool := decide (x.lo ≤ v.toNat ∧ (v.toNat : Int) ≤ x.hi)

/-- Are all the numeric fields inside their ranges? -/
def inRange (xs : List NumericField) (f : FRegs) : Bool := xs.all fun x => x.admits (f.get x.reg)

/-- The writer role over the numeric fields, in order (R210, R211). -/
def putNumeric (cap : Nat) (f : FRegs) : List NumericField → Writer → Except ErrorCode Writer
  | [], w => .ok w
  | x :: xs, w => do
    let n ← x.width
    let w1 ← w.put cap (f.get x.reg) n
    putNumeric cap f xs w1

/-- The reader role over the numeric fields, in order (R210, R211): `f` collects the values. -/
def takeNumeric (rd : Nat → Byte) : List NumericField → FRegs → Reader → Except ErrorCode (FRegs × Reader)
  | [], f, r => .ok (f, r)
  | x :: xs, f, r => do
    let n ← x.width
    let v ← r.take rd n
    takeNumeric rd xs (f.set x.reg v.1) v.2

/-- STRENC (R217): the string XBUF[ARG0 .. ARG0+ARG1); RES0 ← the bytes committed. -/
def execStrenc (s : State) : Host.Outcome State Fault Refusal :=
  finish s ((s.strWrite s.arg0.toNat s.arg1.toNat s.writer).map fun w1 =>
    (s.setWriter w1).setRes0 (w1.bytes - s.writer.bytes))

/-- STRDEC (R218): a string into XBUF at ARG0; RES0 ← its length, RES1 ← the bytes pulled. -/
def execStrdec (s : State) : Host.Outcome State Fault Refusal :=
  finish s ((s.strRead s.arg0.toNat s.reader).map fun v =>
    (((s.setReader v.2.1).setXbuf v.2.2).setRes0 v.1).setRes1 (v.2.1.cur - s.reader.cur))

/-- The fields of a PlayerState record, its checks already passed (R219): six numbers, the boolean, the name, flush. -/
def State.putPlayer (s : State) : Except ErrorCode Writer := do
  let w1 ← putNumeric s.cfg.wcap s.f playerNumeric s.writer
  let w2 ← w1.put s.cfg.wcap (boolWord s.f.f6) 1
  let w3 ← s.strWrite s.arg0.toNat s.f.f7.toNat w2
  .ok w3.flush

/-- RECENC (R219): RANGE, STRLEN and XRANGE are checked before anything is put; RES0 ← the bytes committed. -/
def execRecenc (s : State) : Host.Outcome State Fault Refusal :=
  finish s
    (if inRange playerNumeric s.f = false then .error .range
    else if maxText < s.f.f7.toNat then .error .strlen
    else if s.cfg.xcap < s.arg0.toNat + s.f.f7.toNat then .error .xrange
    else s.putPlayer.map fun w1 => (s.setWriter w1).setRes0 (w1.bytes - s.writer.bytes))

/-- The fields of a PlayerState record from the stream (R220): six numbers and the boolean, their range check, the
name. -/
def State.takePlayer (s : State) : Except ErrorCode (FRegs × Reader × Memory) := do
  let v ← takeNumeric s.rbufByte playerNumeric s.f s.reader
  let b ← v.2.take s.rbufByte 1
  if inRange playerNumeric v.1 = false then .error .range
  else do
    let t ← s.strRead s.arg0.toNat b.2
    .ok ((v.1.set .f6 (boolWord b.1)).set .f7 t.1, t.2.1, t.2.2)

/-- RECDEC (R220): F0-F7 and the name's bytes in XBUF at ARG0; RES0 ← the bytes pulled. -/
def execRecdec (s : State) : Host.Outcome State Fault Refusal :=
  finish s (s.takePlayer.map fun v =>
    (((s.setReader v.2.1).setXbuf v.2.2).setF v.1).setRes0 (v.2.1.cur - s.reader.cur))

end Sys2Proof.Machine
end

