-- ==== Sys2Proof/Machine/TaggedWire.lean ====
section
/-! DEFINITION. The tagged-wire family (45_tagged_wire.md): tags, the object schema, its encoder and its decoding
walk, and the commands MKTAG, PTAG, TWENC, TWDEC. -/

namespace Sys2Proof.Machine

/-- The wire types with a width (R241). -/
inductive WireType where
  | varint
  | i64
  | len
  | i32
  deriving DecidableEq, Repr

/-- The value column of R241. -/
def WireType.number : WireType → Nat
  | .varint => 0
  | .i64 => 1
  | .len => 2
  | .i32 => 5

/-- The wire type of a tag's low bits; none for 3, 4, 6 and 7 (R241). -/
def WireType.ofNumber (n : Nat) : Option WireType :=
  match n with
  | 0 => some .varint
  | 1 => some .i64
  | 2 => some .len
  | 5 => some .i32
  | _ => none

/-- The bits `(fn << 3) | wt` of a tag (R242). -/
def tagBits (fn wt : Word) : Word := (fn <<< 3) ||| wt

/-- make_tag of R242: RANGE if a bit would be lost. -/
def makeTag (fn wt : Word) : Except ErrorCode Word :=
  if 2 ^ 29 ≤ fn.toNat ∨ 7 < wt.toNat then .error .range else .ok (tagBits fn wt)

/-- The field number of a tag (R243). -/
def tagField (tag : Word) : Word := tag >>> 3

/-- The wire type bits of a tag (R243). -/
def tagWire (tag : Word) : Word := tag &&& 7

/-- A message's nesting level (R246). -/
inductive Level where
  | outer
  | nested
  deriving DecidableEq, Repr

/-- The values of an object record: id and the position's x, y, z (R246). -/
inductive Slot where
  | id
  | x
  | y
  | z
  deriving DecidableEq, Repr

/-- What a schema field carries: a scalar as a plain varint (D30), a float as an I32 bit pattern, or the nested
message (R246). -/
inductive FieldKind where
  | scalar (v : Slot)
  | float (v : Slot)
  | message
  deriving DecidableEq, Repr

/-- The wire type column of R246. -/
def FieldKind.wire : FieldKind → WireType
  | .scalar _ => .varint
  | .float _ => .i32
  | .message => .len

/-- One row of the schema (R246). -/
structure TagField where
  level : Level
  number : Nat
  kind : FieldKind
  deriving DecidableEq, Repr

/-- The object schema (R246): id = 1 and position = 2 outside, x = 1, y = 2, z = 3 inside (D27). -/
def objectSchema : List TagField :=
  [⟨.outer, 1, .scalar .id⟩, ⟨.outer, 2, .message⟩,
    ⟨.nested, 1, .float .x⟩, ⟨.nested, 2, .float .y⟩, ⟨.nested, 3, .float .z⟩]

/-- SCHEMA(level, fn) of R246; none for an unknown field. -/
def schemaKind (l : Level) (fn : Nat) : Option FieldKind :=
  (objectSchema.find? fun t => decide (t.level = l ∧ t.number = fn)).map TagField.kind

/-- The record of R251: (id, x, y, z). -/
structure ObjectRec where
  id : Word
  x : Word
  y : Word
  z : Word
  deriving DecidableEq, Repr

def ObjectRec.get (o : ObjectRec) : Slot → Word
  | .id => o.id
  | .x => o.x
  | .y => o.y
  | .z => o.z

def ObjectRec.set (o : ObjectRec) (k : Slot) (v : Word) : ObjectRec :=
  match k with
  | .id => { o with id := v }
  | .x => { o with x := v }
  | .y => { o with y := v }
  | .z => { o with z := v }

/-- The register column of R246: id = F0, x = F1, y = F2, z = F3. -/
def objectOf (f : FRegs) : ObjectRec := { id := f.f0, x := f.f1, y := f.f2, z := f.f3 }

/-- The record into F0-F3; F4-F7 are not changed (R254). -/
def storeObject (o : ObjectRec) (f : FRegs) : FRegs := { f with f0 := o.id, f1 := o.x, f2 := o.y, f3 := o.z }

/-! Encoding. -/

/-- The bytes of one (tag, value) pair (R247, R248); `sub` is the nested message's bytes. -/
def encodeField (o : ObjectRec) (sub : List Byte) (t : TagField) : List Byte :=
  varintEnc (tagBits (BitVec.ofNat 32 t.number) (BitVec.ofNat 32 t.kind.wire.number)) ++
    match t.kind with
    | .scalar k => varintEnc (o.get k)
    | .float k => le32Bytes (o.get k)
    | .message => varintEnc (BitVec.ofNat 32 sub.length) ++ sub

/-- Every field of a level, in the schema's order, zero values included (R247, D29). -/
def encodeLevel (o : ObjectRec) (sub : List Byte) (l : Level) : List Byte :=
  (objectSchema.filter fun t => decide (t.level = l)).flatMap (encodeField o sub)

/-- nested(F1, F2, F3) of R247: the "fresh buffer", measured before anything is emitted (R257). -/
def nestedBytes (o : ObjectRec) : List Byte := encodeLevel o [] .nested

/-- msg(F0, F1, F2, F3) of R248. -/
def messageBytes (o : ObjectRec) : List Byte := encodeLevel o (nestedBytes o) .outer

/-! Decoding. -/

/-- varint_dec over the region q..hi of RBUF (R182): the value and the position after it. -/
def regionVarint (rd : Nat → Byte) (hi p : Nat) : Except ErrorCode (Word × Nat) :=
  (varintDec (regionNext rd hi) p).map fun v => (v.1, p + v.2.1)

/-- A decoded value into its record entry; an unknown field's value goes nowhere (R251, R252). -/
def storeValue (k : Option FieldKind) (v : Word) (o : ObjectRec) : ObjectRec :=
  match k with
  | some (.scalar j) => o.set j v
  | some (.float j) => o.set j v
  | some .message => o
  | none => o

/-- The value of a field of wire type `wt` at `p`, decoded if the field is known (`k`) and skipped by width if not
(R251, R252): the record and the position after it. `sub` walks a known nested message. -/
def walkValue (rd : Nat → Byte) (sub : Nat → Nat → ObjectRec → Except ErrorCode ObjectRec) (hi p : Nat)
    (k : Option FieldKind) (wt : WireType) (o : ObjectRec) : Except ErrorCode (ObjectRec × Nat) :=
  match wt with
  | .varint => do
    let v ← regionVarint rd hi p
    .ok (storeValue k v.1 o, v.2)
  | .i64 => if hi - p < 8 then .error .lenovr else .ok (o, p + 8)
  | .i32 => if hi - p < 4 then .error .lenovr else .ok (storeValue k (le32At rd p) o, p + 4)
  | .len => do
    let v ← regionVarint rd hi p
    if hi - v.2 < v.1.toNat then .error .lenovr
    else if k = none then .ok (o, v.2 + v.1.toNat)
    else do
      let o' ← sub v.2 (v.2 + v.1.toNat) o
      .ok (o', v.2 + v.1.toNat)

/-- One (tag, value) pair of the walk (R251): WIRETYPE for a wire type without a width, and for a known field with
another wire type than the schema's (R253). -/
def walkField (rd : Nat → Byte) (sub : Nat → Nat → ObjectRec → Except ErrorCode ObjectRec) (l : Level) (hi p : Nat)
    (o : ObjectRec) : Except ErrorCode (ObjectRec × Nat) := do
  let t ← regionVarint rd hi p
  match WireType.ofNumber (tagWire t.1).toNat with
  | none => .error .wiretype
  | some wt =>
    match schemaKind l (tagField t.1).toNat with
    | none => walkValue rd sub hi t.2 none wt o
    | some k => if k.wire = wt then walkValue rd sub hi t.2 (some k) wt o else .error .wiretype

/-- The loop of the walk (R251): each pair takes at least one byte, so `fuel` = hi - lo rounds reach hi (R127). -/
def walkLoop (rd : Nat → Byte) (sub : Nat → Nat → ObjectRec → Except ErrorCode ObjectRec) (l : Level) (hi : Nat) :
    Nat → Nat → ObjectRec → Except ErrorCode ObjectRec
  | 0, _, o => .ok o
  | fuel + 1, p, o =>
    if p < hi then do
      let v ← walkField rd sub l hi p o
      walkLoop rd sub l hi fuel v.2 v.1
    else .ok o

/-- walk(lo, hi, NESTED) of R251. No nested field is a message, so nothing is walked inside it (R253). -/
def walkNested (rd : Nat → Byte) (lo hi : Nat) (o : ObjectRec) : Except ErrorCode ObjectRec :=
  walkLoop rd (fun _ _ o' => .ok o') .nested hi (hi - lo) lo o

/-- walk(lo, hi, OUTER) of R251. -/
def walkOuter (rd : Nat → Byte) (lo hi : Nat) (o : ObjectRec) : Except ErrorCode ObjectRec :=
  walkLoop rd (walkNested rd) .outer hi (hi - lo) lo o

/-! Commands. -/

/-- MKTAG (R244): RES0 ← make_tag(ARG0, ARG1), or RANGE. -/
def execMktag (s : State) : Host.Outcome State Fault Refusal :=
  finish s ((makeTag s.arg0 s.arg1).map fun t => s.setRes0 t)

/-- PTAG (R245): RES0 ← the field number, RES1 ← the wire type; total. -/
def execPtag (s : State) : Host.Outcome State Fault Refusal :=
  finish s (.ok ((s.setRes0 (tagField s.arg0)).setRes1 (tagWire s.arg0)))

/-- TWENC (R250): the message of F0-F3, byte-aligned; RES0 ← its length, RES1 ← the nested length. -/
def execTwenc (s : State) : Host.Outcome State Fault Refusal :=
  finish s ((s.writer.putRaw s.cfg.wcap (messageBytes (objectOf s.f))).map fun w1 =>
    ((s.setWriter w1).setRes0 (BitVec.ofNat 32 (messageBytes (objectOf s.f)).length)).setRes1
      (BitVec.ofNat 32 (nestedBytes (objectOf s.f)).length))

/-- TWDEC (R254): align, then walk RBUF[RCUR .. RCUR+ARG0); F0-F3 are written once, at the end (R255). -/
def execTwdec (s : State) : Host.Outcome State Fault Refusal :=
  finish s
    (if s.reader.align.left < s.arg0.toNat then .error .lenovr
    else
      (walkOuter s.rbufByte s.reader.cur.toNat (s.reader.cur.toNat + s.arg0.toNat)
          { id := 0, x := 0, y := 0, z := 0 }).map fun o =>
        ((s.setReader (s.reader.align.skip s.arg0.toNat s.arg0.toNat)).setF (storeObject o s.f)).setRes0 s.arg0)

end Sys2Proof.Machine
end

