-- ==== Sys2Proof/Machine/Dispatch.lean ====
section
/-! DEFINITION. One arm per command: its meaning (30_encoding.md R96, the rule column). -/

namespace Sys2Proof.Machine

def exec (i : Instr) (s : State) : Host.Outcome State Fault Refusal :=
  match i with
  | .nop => Sys2Proof.Machine.execNop s
  | .winit => Sys2Proof.Machine.execWinit s
  | .wrbits w => Sys2Proof.Machine.execWrbits w s
  | .wrbool => Sys2Proof.Machine.execWrbool s
  | .flush => Sys2Proof.Machine.execFlush s
  | .wrbytes => Sys2Proof.Machine.execWrbytes s
  | .rinit => Sys2Proof.Machine.execRinit s
  | .rdbits w => Sys2Proof.Machine.execRdbits w s
  | .rdbool => Sys2Proof.Machine.execRdbool s
  | .rdbytes => Sys2Proof.Machine.execRdbytes s
  | .venc => Sys2Proof.Machine.execVenc s
  | .vdec => Sys2Proof.Machine.execVdec s
  | .svenc => Sys2Proof.Machine.execSvenc s
  | .svdec => Sys2Proof.Machine.execSvdec s
  | .zzenc32 => Sys2Proof.Machine.execZzenc32 s
  | .zzdec32 => Sys2Proof.Machine.execZzdec32 s
  | .zzenc64 => Sys2Proof.Machine.execZzenc64 s
  | .zzdec64 => Sys2Proof.Machine.execZzdec64 s
  | .bitsreq => Sys2Proof.Machine.execBitsreq s
  | .strenc => Sys2Proof.Machine.execStrenc s
  | .strdec => Sys2Proof.Machine.execStrdec s
  | .recenc => Sys2Proof.Machine.execRecenc s
  | .recdec => Sys2Proof.Machine.execRecdec s
  | .mktag => Sys2Proof.Machine.execMktag s
  | .ptag => Sys2Proof.Machine.execPtag s
  | .twenc => Sys2Proof.Machine.execTwenc s
  | .twdec => Sys2Proof.Machine.execTwdec s

end Sys2Proof.Machine
end

