-- ==== Sys2Proof/Machine/Port.lean ====
section
/-! DEFINITION. The host port (20_memory.md R60-R64, R74, R75): what a bus access or the reset input does to the
block, less the running of a command. -/

namespace Sys2Proof.Machine

/-- What a host access comes to. -/
inductive PortResult where
  /-- The access is complete. -/
  | done (s : State)
  /-- A correct write to CMD of this word: its command is to run (R120). -/
  | command (c : Word) (s : State)
  /-- A bus error (R64). -/
  | busError (f : Fault)
  deriving DecidableEq, Repr

/-- Where an offset from the block's base falls (R21, R62). -/
inductive Place where
  | reg (r : Reg)
  | byte (b : Buffer) (i : Nat)
  /-- In the register space, but not a multiple of 4. -/
  | misaligned
  | nothing
  deriving DecidableEq, Repr

/-- The size of the register space, and of each window (R62, D5). -/
def windowSize : Nat := 0x10000

/-- The window byte at an offset at or above 0x10000, if it is below its buffer's capacity (R62). -/
def windowAt (c : Config) (o : Nat) : Place :=
  match o / windowSize with
  | 1 => if o % windowSize < c.wcap then .byte .wbuf (o % windowSize) else .nothing
  | 2 => if o % windowSize < c.rcap then .byte .rbuf (o % windowSize) else .nothing
  | 3 => if o % windowSize < c.xcap then .byte .xbuf (o % windowSize) else .nothing
  | _ => .nothing

/-- The register or window byte at an offset (R21, R62, R75). -/
def placeAt (c : Config) (o : Nat) : Place :=
  if o < windowSize then
    if o % 4 ≠ 0 then .misaligned
    else
      match Reg.ofOffset o with
      | some r => .reg r
      | none => .nothing
  else windowAt c o

/-- The offset of a 32-bit host address from the block's base (R75; log entry 5). -/
def hostOffset (c : Config) (addr : Word) : Nat := (addr - c.base).toNat

/-- What the host reads of a buffer byte (R62). -/
def windowByte (b : Buffer) (i : Nat) (s : State) : Byte :=
  match b with
  | .wbuf => s.wbufByte i
  | .rbuf => s.rbufByte i
  | .xbuf => s.xbufByte i

/-- A read returns data and changes nothing in the block (R74); the host records it (R110). -/
def recordRead (v : Word) (s : State) : State := s.setHostReads (s.hostReads ++ [v])

/-- A host read (R63, R64). -/
def portRead (bits : Nat) (addr : Word) (s : State) : PortResult :=
  match placeAt s.cfg (hostOffset s.cfg addr) with
  | .reg r => if bits = 32 then .done (recordRead (readReg r s) s) else .busError .busWidth
  | .byte b i => if bits = 8 then .done (recordRead ((windowByte b i s).setWidth 32) s) else .busError .busWidth
  | .misaligned => .busError .busMisaligned
  | .nothing => .busError .busUnmapped

/-- A host write of a buffer byte: RBUF and XBUF store it, WBUF refuses it (R62). -/
def windowWrite (b : Buffer) (i : Nat) (v : Byte) (s : State) : PortResult :=
  match b with
  | .wbuf => .busError .busWbufWrite
  | .rbuf => .done (s.setRbuf (Memory.write s.rbuf i v))
  | .xbuf => .done (s.setXbuf (Memory.write s.xbuf i v))

/-- A host write (R63, R64, R74); an 8-bit write carries its byte in the low bits of `data`. -/
def portWrite (bits : Nat) (addr data : Word) (s : State) : PortResult :=
  match placeAt s.cfg (hostOffset s.cfg addr) with
  | .reg .cmd => if bits = 32 then .command data s else .busError .busWidth
  | .reg r => if bits = 32 then .done (writeReg r data s) else .busError .busWidth
  | .byte b i => if bits = 8 then windowWrite b i (data.setWidth 8) s else .busError .busWidth
  | .misaligned => .busError .busMisaligned
  | .nothing => .busError .busUnmapped

/-- The reset input (R300): the reset state of this implementation, every buffer byte unknown again (R301). What the
host has still to issue, and what it has recorded, are the host's and stay. -/
def hardReset (s : State) : State :=
  { State.resetWith s.cfg with
    hostQueue := s.hostQueue
    hostReads := s.hostReads
    resetDraw := s.resetDraw + 1
    tailDraw := s.tailDraw + 1 }

/-- One host access, at a state whose queue no longer holds it. -/
def portAccess (a : HostAccess) (s : State) : PortResult :=
  match a with
  | .read bits addr => portRead bits addr s
  | .write bits addr data => portWrite bits addr data s
  | .reset => .done (hardReset s)

/-- The host address of a register (R21, R75). -/
def regAddr (c : Config) (r : Reg) : Word := c.base + BitVec.ofNat 32 r.offset

/-- The offset of a buffer's window (R62). -/
def windowBase : Buffer → Nat
  | .wbuf => 0x10000
  | .rbuf => 0x20000
  | .xbuf => 0x30000

/-- The host address of a window byte (R62, R75). -/
def byteAddr (c : Config) (b : Buffer) (i : Nat) : Word := c.base + BitVec.ofNat 32 (windowBase b + i)

/-- The host access that starts command word `w`: a 32-bit write to CMD (R120). -/
def cmdWrite (c : Config) (w : Word) : HostAccess := .write 32 (regAddr c .cmd) w

end Sys2Proof.Machine
end

