-- ==== Sys2Proof/Machine/Cycle.lean ====
section
/-! DEFINITION. The command cycle (40_control.md R120, R121) and the service of the host port, one access a step
(20_memory.md R77). -/

namespace Sys2Proof.Machine

/-- A command word written to CMD (R121): CMD ← c, then the command it encodes, or ILLEGAL (R95, R98). -/
def commandCycle (c : Word) (s : State) : Host.Outcome State Fault Refusal :=
  match decode c with
  | .ok i => exec i (s.setCmd c)
  | .error _ => .next (takeError .illegal (s.setCmd c))

/-- One host access, with the command it may start run to its end before the next access (R73, R120). -/
def serveAccess (a : HostAccess) (s : State) : Host.Outcome State Fault Refusal :=
  match portAccess a s with
  | .done s' => .next s'
  | .command c s' => commandCycle c s'
  | .busError f => .fault f

/-- The next event (R302): the oldest pending host access, or, with none pending, the block holds its state (R284). -/
def serveNext (s : State) : Host.Outcome State Fault Refusal :=
  match s.hostQueue with
  | [] => .next s
  | a :: q => serveAccess a (s.setHostQueue q)

/-- The host's next access becomes a write of `w` to CMD; what it had pending comes after (R34; log entry 2). -/
def issueCommand (w : Word) (s : State) : State := s.setHostQueue (cmdWrite s.cfg w :: s.hostQueue)

end Sys2Proof.Machine
end

