-- ==== Sys2Proof/Machine/Step.lean ====
section
/-! DEFINITION. One step of the machine: one host access (20_memory.md R77), and where a command word is placed so
that the next step runs it. -/

namespace Sys2Proof.Machine

/-- One step. -/
def step (s : State) : Host.Outcome State Fault Refusal := serveNext s

/-- `s` with the `nbits`-bit command word `w` as the host's next write to CMD, which is what the next step serves. -/
def State.withFetchWord (s : State) (nbits w : Nat) : State := issueCommand (BitVec.ofNat 32 (w % 2 ^ nbits)) s

end Sys2Proof.Machine
end

