-- ==== Sys2Proof/Safety.lean ====
section
/-! DEFINITION. The terms claims are stated in: the legal states (10_state.md R28, R30), the bit sequences of the
writer and the reader (20_memory.md R65; 41_bitstream_writer.md R141; 42_bitstream_reader.md R161), and what a
command may leave unchanged. -/

namespace Sys2Proof.Machine

/-- The writer invariants 1 to 3 of R28 for a WBUF of `cap` bytes; the canonical form of WBUF, within its capacity
(R60); and every committed byte has been written. -/
structure Writer.Inv (cap : Nat) (w : Writer) : Prop where
  clean : w.acc.toNat < 2 ^ w.cnt.toNat
  pending : w.cnt.toNat ≤ 7
  fits : ceil8 (8 * w.bytes.toNat + w.cnt.toNat) ≤ cap
  canonical : Memory.wf w.buf = true
  inside : Memory.below cap w.buf = true
  known : ∀ i, i < w.bytes.toNat → (Memory.read w.buf i).isSome = true

/-- The reader invariants of R30 for an RBUF of `cap` bytes, but for what the byte pulled last once was (item 4). -/
structure Reader.Inv (cap : Nat) (r : Reader) : Prop where
  cursor : r.cur.toNat ≤ r.len.toNat
  length : r.len.toNat ≤ cap
  partialByte : r.cnt.toNat ≤ 7
  clean : r.acc.toNat < 2 ^ r.cnt.toNat
  pulled : 0 < r.cnt.toNat → 1 ≤ r.cur.toNat

/-- ECODE is OK or a code of R271; 0x0D-0xFF are never produced. -/
def Status.Legal (st : Status) : Prop := st.ecode.toNat ≤ 0x0C

/-- The legal states of the machine. -/
structure State.Inv (s : State) : Prop where
  config : s.cfg.Legal
  status : s.status.Legal
  writer : s.writer.Inv s.cfg.wcap
  reader : s.reader.Inv s.cfg.rcap
  rbufCanonical : Memory.wf s.rbuf = true
  rbufInside : Memory.below s.cfg.rcap s.rbuf = true
  xbufCanonical : Memory.wf s.xbuf = true
  xbufInside : Memory.below s.cfg.xcap s.xbuf = true

/-! Bit sequences. -/

/-- The length of the writer's bit sequence: committed bits, then pending ones (R141). -/
def Writer.bitCount (w : Writer) : Nat := 8 * w.bytes.toNat + w.cnt.toNat

/-- Bit `k` of the writer's bit sequence (R65, R141): bit k mod 8 of WBUF[k div 8], or a pending bit of WACC. The
default byte stands only where no committed byte is listed, which `Writer.Inv` rules out. -/
def Writer.bit (w : Writer) (k : Nat) : Bool :=
  if k < 8 * w.bytes.toNat then ((Memory.read w.buf (k / 8)).getD 0).getLsbD (k % 8)
  else w.acc.getLsbD (k - 8 * w.bytes.toNat)

/-- Bit `k` of the reader's unread bit sequence (R161): the bits held in RACC, then those of RBUF[RCUR], ... -/
def Reader.bit (rd : Nat → Byte) (r : Reader) (k : Nat) : Bool :=
  if k < r.cnt.toNat then r.acc.getLsbD k
  else (rd (r.cur.toNat + (k - r.cnt.toNat) / 8)).getLsbD ((k - r.cnt.toNat) % 8)

/-- Bit `k` of a byte sequence, each byte least significant bit first (R65). -/
def bytesBit (bs : List Byte) (k : Nat) : Bool := (bs.getD (k / 8) 0).getLsbD (k % 8)

/-- RBUF from the cursor on holds the bytes `bs`, inside RLEN. -/
def Reader.HoldsRaw (rd : Nat → Byte) (r : Reader) (bs : List Byte) : Prop :=
  bs.length ≤ r.left ∧ bytesFrom rd r.cur.toNat bs.length = bs

/-! What a command does to the two sequences. -/

/-- `w'` is `w` with the `n` bits `new` appended (R141, R142): the sequence so far is kept, the new bits follow it, and
no byte of WBUF but those now committed at WBYTES and up is written. -/
structure Writer.Appends (w w' : Writer) (n : Nat) (new : Nat → Bool) : Prop where
  count : w'.bitCount = w.bitCount + n
  kept : ∀ k, k < w.bitCount → w'.bit k = w.bit k
  added : ∀ k, k < n → w'.bit (w.bitCount + k) = new k
  frame : ∀ i, i < w.bytes.toNat ∨ w'.bytes.toNat ≤ i → Memory.read w'.buf i = Memory.read w.buf i

/-- How many zero bits bring a bit count to a byte boundary. -/
def padBits (n : Nat) : Nat := (8 - n % 8) % 8

/-- The zero bits a flush adds to reach a byte boundary (R141, R147). -/
def Writer.padding (w : Writer) : Nat := padBits w.bitCount

/-- The bits of an aligned run of bytes behind `pad` zero bits (R71, R148). -/
def rawBits (pad : Nat) (bs : List Byte) (k : Nat) : Bool := if k < pad then false else bytesBit bs (k - pad)

/-- The bits of a string (R212): `len`, the bytes of its length varint, at the current bit offset, then `pad` zero bits
and the text. -/
def textBits (len : List Byte) (pad : Nat) (text : List Byte) (k : Nat) : Bool :=
  if k < 8 * len.length then bytesBit len k else rawBits pad text (k - 8 * len.length)

/-- The 49 field bits of a PlayerState record (R216): x, y, z, health, heading, team, alive. -/
def playerBits (f : FRegs) (k : Nat) : Bool :=
  if k < 10 then f.f0.getLsbD k
  else if k < 20 then f.f1.getLsbD (k - 10)
  else if k < 30 then f.f2.getLsbD (k - 20)
  else if k < 37 then f.f3.getLsbD (k - 30)
  else if k < 46 then f.f4.getLsbD (k - 37)
  else if k < 48 then f.f5.getLsbD (k - 46)
  else decide (f.f6 ≠ 0)

/-- The bits of a PlayerState record (R216): 49 field bits, then the name as a string. -/
def recordBits (f : FRegs) (len : List Byte) (pad : Nat) (text : List Byte) (k : Nat) : Bool :=
  if k < 49 then playerBits f k else textBits len pad text (k - 49)

/-- `r'` is `r` with its first `n` unread bits taken (R161, R162), over the same buffer and length. -/
structure Reader.Consumes (rd : Nat → Byte) (r r' : Reader) (n : Nat) : Prop where
  length : r'.len = r.len
  count : r'.avail + n = r.avail
  rest : ∀ k, k < r'.avail → r'.bit rd k = r.bit rd (n + k)

/-- A sequence of `avail` bits begins, at whatever bit offset, with a varint of `n` bytes whose value is `v` (R66, R180,
R182): every byte but the last has its continuation flag set, and the data bits above bit 31 fall off (D18). -/
structure VarintAt (avail : Nat) (bit : Nat → Bool) (n : Nat) (v : Word) : Prop where
  bytes : 1 ≤ n ∧ n ≤ 5
  present : 8 * n ≤ avail
  more : ∀ i, i + 1 < n → bit (8 * i + 7) = true
  last : bit (8 * (n - 1) + 7) = false
  value : ∀ j, j < 32 → v.getLsbD j = (decide (j / 7 < n) && bit (8 * (j / 7) + j % 7))

/-- A sequence of `avail` bits ends inside a varint (R182): whole bytes with continuation flags, fewer than five, and
then fewer than eight bits. -/
def VarintCut (avail : Nat) (bit : Nat → Bool) : Prop :=
  avail / 8 < 5 ∧ ∀ i, i < avail / 8 → bit (8 * i + 7) = true

/-- A sequence of `avail` bits begins with five bytes that all have continuation flags (R182): a corrupt stream. -/
def VarintLong (avail : Nat) (bit : Nat → Bool) : Prop :=
  40 ≤ avail ∧ ∀ i, i < 5 → bit (8 * i + 7) = true

/-! The two ends of a command, in the numbers of R271. -/

/-- STATUS after a command that completes (R121): ECODE = 0x00, ERR and SHORT as they were. -/
def State.doneStatus (s : State) : Status := { ecode := 0x00, err := s.status.err, short := s.status.short }

/-- The state a command leaves that fails with `code` (R123, R274): ECODE and ERR, and nothing else. -/
def State.failed (s : State) (code : BitVec 8) : State :=
  { s with status := { ecode := code, err := true, short := s.status.short } }

/-- XBUF with the bytes `bs` at `a` and every other byte as before. -/
def StoredAt (xb xb' : Memory) (a : Nat) (bs : List Byte) : Prop :=
  ∀ i, Memory.read xb' i = if a ≤ i ∧ i < a + bs.length then bs[i - a]? else Memory.read xb i

/-! Varints as bytes, in every form a decoder accepts (R182, R186, R195): non-shortest forms and a fifth byte's bits
above bit 31 among them. -/

/-- The number the low seven bits of the bytes spell, low group first (R180), before it is cut to 32 bits. -/
def groupsValue : List Byte → Nat
  | [] => 0
  | b :: bs => b.toNat % 2 ^ 7 + 2 ^ 7 * groupsValue bs

/-- Every byte but the last has its continuation flag, and the last has none (R180). -/
def flagsEnd : List Byte → Bool
  | [] => false
  | [b] => !b.getLsbD 7
  | b :: c :: bs => b.getLsbD 7 && flagsEnd (c :: bs)

/-- The value of a varint's bytes: the data bits above bit 31 fall off (R182, D18). -/
def varintWord (bs : List Byte) : Word := BitVec.ofNat 32 (groupsValue bs)

/-- The bytes are one varint, of at most five bytes (R180, R182). -/
def varintOk (bs : List Byte) : Bool := decide (bs.length ≤ 5) && flagsEnd bs

/-- A region of these bytes ends inside a varint (R182): fewer than five, all with continuation flags, or none at all. -/
abbrev BytesCut (bs : List Byte) : Prop := bs.length < 5 ∧ ∀ b ∈ bs, b.getLsbD 7 = true

/-- A region of these bytes begins with five continuation flags (R182): a corrupt stream. -/
abbrev BytesLong (bs : List Byte) : Prop := 5 ≤ bs.length ∧ ∀ b ∈ bs.take 5, b.getLsbD 7 = true

/-! Tagged-wire messages, as sequences of (tag, value) pairs (R240, R241). -/

/-- A value with its wire type (R241), its varints in any form. -/
inductive WireValue where
  | varint (bs : List Byte)
  | i64 (lo hi : Word)
  /-- The bytes of the length varint, then the body. -/
  | len (pre body : List Byte)
  | i32 (v : Word)
  deriving DecidableEq, Repr

/-- The wire type's number. -/
def WireValue.number : WireValue → Nat
  | .varint _ => 0
  | .i64 _ _ => 1
  | .len _ _ => 2
  | .i32 _ => 5

/-- The bytes after the tag. An I32 is little-endian (R67; PRESUMED, log entry 10). -/
def WireValue.bytes : WireValue → List Byte
  | .varint bs => bs
  | .i64 lo hi => le32Bytes lo ++ le32Bytes hi
  | .len pre body => pre ++ body
  | .i32 v => le32Bytes v

/-- The value's varints are varints, and a LEN's length is its body's. -/
def WireValue.ok : WireValue → Bool
  | .varint bs => varintOk bs
  | .i64 _ _ => true
  | .len pre body => varintOk pre && decide ((varintWord pre).toNat = body.length)
  | .i32 _ => true

/-- A (tag, value) pair, the tag as its bytes. -/
structure WireField where
  tag : List Byte
  value : WireValue
  deriving DecidableEq, Repr

/-- The field number: the tag above its low three bits (R243). -/
def WireField.number (x : WireField) : Nat := (varintWord x.tag).toNat / 8

/-- The pair's bytes: the tag, then the value. -/
def WireField.bytes (x : WireField) : List Byte := x.tag ++ x.value.bytes

/-- The tag is a varint whose low three bits are the value's wire type (R243), and the value is one of its type. -/
def WireField.ok (x : WireField) : Bool :=
  varintOk x.tag && decide ((varintWord x.tag).toNat % 8 = x.value.number) && x.value.ok

/-- The pairs (field number, wire type) the outer walk accepts (R246, R253). -/
abbrev OuterAllows (fn wt : Nat) : Prop := wt ∈ [0, 1, 2, 5] ∧ (fn = 1 → wt = 0) ∧ (fn = 2 → wt = 2)

/-- The pairs (field number, wire type) the nested walk accepts (R246, R253). -/
abbrev NestedAllows (fn wt : Nat) : Prop := wt ∈ [0, 1, 2, 5] ∧ (1 ≤ fn ∧ fn ≤ 3 → wt = 5)

/-- A pair the nested walk accepts (R253): a known field, 1 to 3, is an I32; any other has any wire type. -/
def WireField.nestedOk (x : WireField) : Bool := x.ok && decide (NestedAllows x.number x.value.number)

/-- What the nested walk does with a pair (R251): the coordinates are taken, anything else is skipped. -/
def WireField.applyNested (o : ObjectRec) (x : WireField) : ObjectRec :=
  match x.value with
  | .i32 v =>
    if x.number = 1 then { o with x := v }
    else if x.number = 2 then { o with y := v }
    else if x.number = 3 then { o with z := v }
    else o
  | .varint _ => o
  | .i64 _ _ => o
  | .len _ _ => o

/-- A pair of the outer message (R246): id, position, or an unknown field. -/
inductive MessageItem where
  | id (tag value : List Byte)
  | position (tag pre : List Byte) (fields : List WireField)
  | unknown (x : WireField)
  deriving DecidableEq, Repr

/-- The item as a pair. -/
def MessageItem.field : MessageItem → WireField
  | .id tag value => { tag := tag, value := .varint value }
  | .position tag pre fs => { tag := tag, value := .len pre (fs.flatMap WireField.bytes) }
  | .unknown x => x

/-- An item the walk accepts (R253). -/
def MessageItem.ok (it : MessageItem) : Bool :=
  it.field.ok &&
    match it with
    | .id _ _ => decide (it.field.number = 1)
    | .position _ _ fs => decide (it.field.number = 2) && fs.all WireField.nestedOk
    | .unknown x => decide (x.number ≠ 1 ∧ x.number ≠ 2)

/-- What the walk does with an item (R251, R252, R255). -/
def MessageItem.apply (o : ObjectRec) : MessageItem → ObjectRec
  | .id _ value => { o with id := varintWord value }
  | .position _ _ fs => fs.foldl WireField.applyNested o
  | .unknown _ => o

/-- A message's bytes. -/
def messageOf (items : List MessageItem) : List Byte := items.flatMap fun it => it.field.bytes

/-- A region whose remaining bytes, at the start of a pair, break off with the error `code` (R253): in the tag, or behind
a tag `8 fn + wt` that the walk accepts, in the value. -/
inductive BreaksOff (allows : Nat → Nat → Prop) : List Byte → BitVec 8 → Prop where
  | tagCut {bs : List Byte} : bs ≠ [] → BytesCut bs → BreaksOff allows bs 0x07
  | tagLong {bs : List Byte} : BytesLong bs → BreaksOff allows bs 0x06
  | varintCut {tag bs : List Byte} {fn : Nat} : varintOk tag = true → (varintWord tag).toNat = 8 * fn + 0 →
      allows fn 0 → BytesCut bs → BreaksOff allows (tag ++ bs) 0x07
  | varintLong {tag bs : List Byte} {fn : Nat} : varintOk tag = true → (varintWord tag).toNat = 8 * fn + 0 →
      allows fn 0 → BytesLong bs → BreaksOff allows (tag ++ bs) 0x06
  | i64Short {tag bs : List Byte} {fn : Nat} : varintOk tag = true → (varintWord tag).toNat = 8 * fn + 1 →
      allows fn 1 → bs.length < 8 → BreaksOff allows (tag ++ bs) 0x0A
  | lenCut {tag bs : List Byte} {fn : Nat} : varintOk tag = true → (varintWord tag).toNat = 8 * fn + 2 →
      allows fn 2 → BytesCut bs → BreaksOff allows (tag ++ bs) 0x07
  | lenLong {tag bs : List Byte} {fn : Nat} : varintOk tag = true → (varintWord tag).toNat = 8 * fn + 2 →
      allows fn 2 → BytesLong bs → BreaksOff allows (tag ++ bs) 0x06
  | lenShort {tag pre bs : List Byte} {fn : Nat} : varintOk tag = true → (varintWord tag).toNat = 8 * fn + 2 →
      allows fn 2 → varintOk pre = true → bs.length < (varintWord pre).toNat →
      BreaksOff allows (tag ++ (pre ++ bs)) 0x0A
  | i32Short {tag bs : List Byte} {fn : Nat} : varintOk tag = true → (varintWord tag).toNat = 8 * fn + 5 →
      allows fn 5 → bs.length < 4 → BreaksOff allows (tag ++ bs) 0x0A

end Sys2Proof.Machine
end

