-- ==== Sys2Proof/Certificates/Slice0/Obligations.lean ====
section
/-! DEFINITION. The statements for the provers, in the order of OBLIGATIONS.json. Host accesses are written with their
offsets from the block's base (20_memory.md R75), added to it modulo 2^32 (DESIGN CHOICE, log entry 5), error codes and
STATUS bits with their numbers (R23, R271). The list of accesses still to come is the model's (DESIGN CHOICE, log entry 2). -/

open Sys2Proof Sys2Proof.Machine

/-! Command words (30_encoding.md). -/

/-- Decoding the canonical word of any well-formed command gives the command back (R91, R96, R97). -/
def Obligations.DecodeInvertsEncode : Prop :=
  ∀ i : Instr, i.wellFormed = true → decode (encode i) = .ok i

/-- A word that decodes is the canonical word of the command it decodes to, and that command is well-formed (R97, R98). -/
def Obligations.EncodeInvertsDecode : Prop :=
  ∀ (c : Word) (i : Instr), decode c = .ok i → i.wellFormed = true ∧ encode i = c

/-- Words written out from the bit layout of R91 and the opcodes of R96, and three words that spell no command. -/
def Obligations.SampleWordsDecode : Prop :=
  decode 0x00000000 = .ok .nop ∧ decode 0x00000A11 = .ok (.wrbits 10) ∧ decode 0x00002021 = .ok (.rdbits 32) ∧
  decode 0x00000013 = .ok .flush ∧ decode 0x00000038 = .ok .bitsreq ∧ decode 0x00000043 = .ok .recdec ∧
  decode 0x00000053 = .ok .twdec ∧ decode 0x00000001 = .error .unassignedOp ∧
  decode 0x00004010 = .error .reservedBits ∧ decode 0x00000110 = .error .widthNotUsed

/-- A host write to CMD (offset 0x000) of a word that decodes stores the word in CMD and runs exactly that command on
what results, as one step (R120, R121). -/
def Obligations.StepRunsDecodedCommand : Prop :=
  ∀ (s : State) (q : List HostAccess) (c : Word) (i : Instr),
    s.hostQueue = .write 32 s.cfg.base c :: q → decode c = .ok i →
    step s = exec i { s with hostQueue := q, cmd := c }

/-- A word that is no canonical word fails with ILLEGAL (0x01) and changes no state but CMD and STATUS; the OP values
that no command has are the ranges R98 lists. -/
def Obligations.IllegalWordsChangeOnlyCmdAndStatus : Prop :=
  (∀ (s : State) (q : List HostAccess) (c : Word),
    s.hostQueue = .write 32 s.cfg.base c :: q → (∀ i : Instr, i.wellFormed = true → encode i ≠ c) →
    step s = .next (State.failed { s with hostQueue := q, cmd := c } 0x01)) ∧
  (∀ op w : Nat, op < 256 →
    (commandOf op w = none ↔
      (0x01 ≤ op ∧ op ≤ 0x0F) ∨ (0x15 ≤ op ∧ op ≤ 0x1F) ∨ (0x24 ≤ op ∧ op ≤ 0x2F) ∨ (0x39 ≤ op ∧ op ≤ 0x3F) ∨
      (0x44 ≤ op ∧ op ≤ 0x4F) ∨ 0x54 ≤ op))

/-! The host port (10_state.md, 20_memory.md). -/

/-- A 32-bit host read at each offset of the register map returns the register's value, CAPW, CAPR and CAPX read the
capacities, STATUS reads its fields with zeros above, and nothing but the host's own record changes (R21, R23, R32, R74).
The record of the data read is the model's (DESIGN CHOICE, log entry 2). -/
def Obligations.HostReadsEveryRegister : Prop :=
  ∀ (s : State) (q : List HostAccess) (o : Nat) (v : Word),
    s.hostQueue = .read 32 (s.cfg.base + BitVec.ofNat 32 o) :: q →
    (o, v) ∈ [(0x000, s.cmd),
      (0x004, BitVec.ofNat 32 (s.status.ecode.toNat + 256 * s.status.err.toNat + 512 * s.status.short.toNat)),
      (0x008, s.arg0), (0x00C, s.arg1), (0x010, s.res0), (0x014, s.res1),
      (0x018, s.writer.bytes), (0x01C, s.writer.cnt), (0x020, s.writer.total),
      (0x024, s.reader.len), (0x028, s.reader.cur), (0x02C, s.reader.cnt), (0x030, s.reader.total),
      (0x034, BitVec.ofNat 32 s.cfg.wcap), (0x038, BitVec.ofNat 32 s.cfg.rcap), (0x03C, BitVec.ofNat 32 s.cfg.xcap),
      (0x080, s.f.f0), (0x084, s.f.f1), (0x088, s.f.f2), (0x08C, s.f.f3),
      (0x090, s.f.f4), (0x094, s.f.f5), (0x098, s.f.f6), (0x09C, s.f.f7)] →
    step s = .next { s with hostQueue := q, hostReads := s.hostReads ++ [v] }

/-- A 32-bit host write stores the word in ARG0, ARG1 or F0-F7, clears in STATUS only the sticky bits written as 1, and
is ignored by a read-only register (R23, R36, R74). Offsets: DESIGN CHOICE, log entry 5. -/
def Obligations.HostWritesStoreClearOrAreIgnored : Prop :=
  ∀ (s : State) (q : List HostAccess) (o : Nat) (v : Word),
    s.hostQueue = .write 32 (s.cfg.base + BitVec.ofNat 32 o) v :: q →
    (o = 0x008 → step s = .next { s with hostQueue := q, arg0 := v }) ∧
    (o = 0x00C → step s = .next { s with hostQueue := q, arg1 := v }) ∧
    (o = 0x080 → step s = .next { s with hostQueue := q, f := { s.f with f0 := v } }) ∧
    (o = 0x084 → step s = .next { s with hostQueue := q, f := { s.f with f1 := v } }) ∧
    (o = 0x088 → step s = .next { s with hostQueue := q, f := { s.f with f2 := v } }) ∧
    (o = 0x08C → step s = .next { s with hostQueue := q, f := { s.f with f3 := v } }) ∧
    (o = 0x090 → step s = .next { s with hostQueue := q, f := { s.f with f4 := v } }) ∧
    (o = 0x094 → step s = .next { s with hostQueue := q, f := { s.f with f5 := v } }) ∧
    (o = 0x098 → step s = .next { s with hostQueue := q, f := { s.f with f6 := v } }) ∧
    (o = 0x09C → step s = .next { s with hostQueue := q, f := { s.f with f7 := v } }) ∧
    (o = 0x004 → step s = .next { s with hostQueue := q, status :=
      { ecode := s.status.ecode, err := s.status.err && !v.getLsbD 8, short := s.status.short && !v.getLsbD 9 } }) ∧
    (o ∈ [0x010, 0x014, 0x018, 0x01C, 0x020, 0x024, 0x028, 0x02C, 0x030, 0x034, 0x038, 0x03C] →
      step s = .next { s with hostQueue := q })

/-- An 8-bit host write to a byte of the RBUF or XBUF window stores it there and changes no other byte (R62, R74). The
byte stands in the low bits of the model's data word (DESIGN CHOICE, log entry 7). -/
def Obligations.HostWritesOneWindowByte : Prop :=
  ∀ (s : State) (q : List HostAccess) (i : Nat) (v : Word), s.cfg.Legal →
    (i < s.cfg.rcap → s.hostQueue = .write 8 (s.cfg.base + BitVec.ofNat 32 (0x20000 + i)) v :: q →
      ∃ m, step s = .next { s with hostQueue := q, rbuf := m } ∧
        ∀ j, Memory.read m j = if j = i then some (v.setWidth 8) else Memory.read s.rbuf j) ∧
    (i < s.cfg.xcap → s.hostQueue = .write 8 (s.cfg.base + BitVec.ofNat 32 (0x30000 + i)) v :: q →
      ∃ m, step s = .next { s with hostQueue := q, xbuf := m } ∧
        ∀ j, Memory.read m j = if j = i then some (v.setWidth 8) else Memory.read s.xbuf j)

/-- An 8-bit host read of a valid window byte has no side effect on the block, and its byte `b`, in the low bits of the
data, is the same at every read of it, whatever the host reads between (R74, R301). It is the byte written last where one
has been written, in WBUF below WBYTES (R62, R77). The data word's zeros above the byte and the record of reads are the
model's (DESIGN CHOICE, log entries 7 and 2). -/
def Obligations.HostReadsLatestWindowByte : Prop :=
  ∀ (s : State) (i : Nat), s.cfg.Legal →
    (i < s.cfg.wcap → ∃ b : Byte,
      (∀ c, i < s.writer.bytes.toNat → Memory.read s.writer.buf i = some c → b = c) ∧
      ∀ q vs, step { s with
          hostQueue := .read 8 (s.cfg.base + BitVec.ofNat 32 (0x10000 + i)) :: q, hostReads := vs } =
        .next { s with hostQueue := q, hostReads := vs ++ [b.setWidth 32] }) ∧
    (i < s.cfg.rcap → ∃ b : Byte,
      (∀ c, Memory.read s.rbuf i = some c → b = c) ∧
      ∀ q vs, step { s with
          hostQueue := .read 8 (s.cfg.base + BitVec.ofNat 32 (0x20000 + i)) :: q, hostReads := vs } =
        .next { s with hostQueue := q, hostReads := vs ++ [b.setWidth 32] }) ∧
    (i < s.cfg.xcap → ∃ b : Byte,
      (∀ c, Memory.read s.xbuf i = some c → b = c) ∧
      ∀ q vs, step { s with
          hostQueue := .read 8 (s.cfg.base + BitVec.ofNat 32 (0x30000 + i)) :: q, hostReads := vs } =
        .next { s with hostQueue := q, hostReads := vs ++ [b.setWidth 32] })

/-- Exactly which host accesses give a bus error (R63, R64): `o` is the address's offset from the base. A read is
correct at a register (32 bits) or a valid window byte (8 bits); a write likewise, but not in the WBUF window. The offset
is taken modulo 2^32 (DESIGN CHOICE, log entry 5). -/
def Obligations.BusErrorsExactly : Prop :=
  ∀ (s : State) (q : List HostAccess) (bits : Nat) (addr data : Word) (o : Nat), s.cfg.Legal →
    o = (addr - s.cfg.base).toNat →
    (s.hostQueue = .read bits addr :: q →
      ((∃ e, step s = .fault e) ↔
        ¬ ((o % 4 = 0 ∧ (o < 0x040 ∨ (0x080 ≤ o ∧ o < 0x0A0)) ∧ bits = 32) ∨
           (bits = 8 ∧ ((0x10000 ≤ o ∧ o < 0x10000 + s.cfg.wcap) ∨ (0x20000 ≤ o ∧ o < 0x20000 + s.cfg.rcap) ∨
             (0x30000 ≤ o ∧ o < 0x30000 + s.cfg.xcap)))))) ∧
    (s.hostQueue = .write bits addr data :: q →
      ((∃ e, step s = .fault e) ↔
        ¬ ((o % 4 = 0 ∧ (o < 0x040 ∨ (0x080 ≤ o ∧ o < 0x0A0)) ∧ bits = 32) ∨
           (bits = 8 ∧ ((0x20000 ≤ o ∧ o < 0x20000 + s.cfg.rcap) ∨ (0x30000 ≤ o ∧ o < 0x30000 + s.cfg.xcap))))))

/-- With no host access pending the block holds its state (R284, R302). The pending accesses are the model's own list
(DESIGN CHOICE, log entry 2). -/
def Obligations.IdleBlockHoldsItsState : Prop :=
  ∀ s : State, s.hostQueue = [] → step s = .next s

/-- No step is refused, and only a host read or write can fault: neither the reset input nor any 32-bit write to CMD,
whatever the word, does (R287). -/
def Obligations.OnlyBusAccessesFault : Prop :=
  ∀ s : State, (∀ r, step s ≠ .refused r) ∧
    (∀ e, step s = .fault e → ∃ a q, s.hostQueue = a :: q ∧ a ≠ .reset ∧ ∀ c, a ≠ .write 32 s.cfg.base c)

/-! Reset (70_reset_and_hazards.md). -/

/-- The reset input gives every register the value of R300 whatever the state before it, keeps the capacities, leaves no
buffer byte known, and establishes the writer and the reader invariants. -/
def Obligations.ResetEstablishesTheResetState : Prop :=
  ∀ (s : State) (q : List HostAccess), s.hostQueue = .reset :: q →
    ∃ t, step s = .next t ∧ t.cmd = 0 ∧ t.status = { ecode := 0, err := false, short := false } ∧
      t.arg0 = 0 ∧ t.arg1 = 0 ∧ t.res0 = 0 ∧ t.res1 = 0 ∧
      t.writer.bytes = 0 ∧ t.writer.cnt = 0 ∧ t.writer.total = 0 ∧ t.writer.acc = 0 ∧
      t.reader = { len := 0, cur := 0, cnt := 0, total := 0, acc := 0 } ∧
      t.f = { f0 := 0, f1 := 0, f2 := 0, f3 := 0, f4 := 0, f5 := 0, f6 := 0, f7 := 0 } ∧ t.cfg = s.cfg ∧
      (∀ i, Memory.read t.writer.buf i = none ∧ Memory.read t.rbuf i = none ∧ Memory.read t.xbuf i = none) ∧
      t.writer.Inv t.cfg.wcap ∧ t.reader.Inv t.cfg.rcap

/-- The state after reset is a legal one. Its capacities are the model's choice (DESIGN CHOICE, log entry 1). -/
def Obligations.ResetStateIsLegal : Prop := State.reset.Inv

/-! Whole-machine rules. -/

/-- Every step keeps the legal states legal: the invariants of R28 and R30, ECODE a code of R271, and every buffer in
canonical form within its capacity (R60). -/
def Obligations.StepKeepsLegalStates : Prop :=
  ∀ s t : State, s.Inv → step s = .next t → t.Inv

/-- No step changes the implementation's parameters, so CAPW, CAPR and CAPX are constant (R32). -/
def Obligations.StepKeepsTheConfiguration : Prop :=
  ∀ s t : State, step s = .next t → t.cfg = s.cfg

/-- Every command on every state ends in a next state: it completes with ECODE 0x00 and ERR as it was, or it fails with
one code of R271 and changes nothing but ECODE and ERR (R121, R123, R127, R274). -/
def Obligations.CommandsCompleteOrFailPrecisely : Prop :=
  ∀ (i : Instr) (s : State),
    (∃ t, exec i s = .next t ∧ t.status.ecode = 0x00 ∧ t.status.err = s.status.err) ∨
    (∃ code : BitVec 8, 0x01 ≤ code.toNat ∧ code.toNat ≤ 0x0C ∧ exec i s = .next (s.failed code))

/-- The codes a command may fail with are those its rule lists (R271, R272). ILLEGAL belongs to the word, not to a
decoded command. -/
def Obligations.CommandsFailOnlyAsListed : Prop :=
  ∀ (i : Instr) (s t : State), exec i s = .next t →
    t.status.ecode.toNat ∈ 0x00 ::
      (match i with
      | .nop => []
      | .winit => []
      | .wrbits _ => [0x02, 0x04]
      | .wrbool => [0x04]
      | .flush => []
      | .wrbytes => [0x0B, 0x04]
      | .rinit => [0x08]
      | .rdbits _ => [0x02, 0x03]
      | .rdbool => [0x03]
      | .rdbytes => [0x0B]
      | .venc => [0x04]
      | .vdec => [0x07, 0x06]
      | .svenc => [0x04]
      | .svdec => [0x07, 0x06]
      | .zzenc32 => []
      | .zzdec32 => []
      | .zzenc64 => []
      | .zzdec64 => []
      | .bitsreq => [0x08]
      | .strenc => [0x05, 0x0B, 0x04]
      | .strdec => [0x07, 0x06, 0x05, 0x0B, 0x0C]
      | .recenc => [0x08, 0x05, 0x0B, 0x04]
      | .recdec => [0x03, 0x08, 0x07, 0x06, 0x05, 0x0B, 0x0C]
      | .mktag => [0x08]
      | .ptag => []
      | .twenc => [0x04]
      | .twdec => [0x0A, 0x09, 0x07, 0x06] : List Nat)

/-- No command changes ARG0, ARG1, CMD, RBUF, the capacities, or what the host has issued and recorded (R24, R72, R120). -/
def Obligations.CommandsKeepOperandsAndInput : Prop :=
  ∀ (i : Instr) (s t : State), exec i s = .next t →
    t.arg0 = s.arg0 ∧ t.arg1 = s.arg1 ∧ t.cmd = s.cmd ∧ t.rbuf = s.rbuf ∧ t.cfg = s.cfg ∧
    t.hostQueue = s.hostQueue ∧ t.hostReads = s.hostReads ∧ t.resetDraw = s.resetDraw

/-- Only the writer commands of R27 change the writer state or a byte of WBUF. -/
def Obligations.OnlyWriterCommandsChangeTheWriter : Prop :=
  ∀ (i : Instr) (s t : State), exec i s = .next t →
    (t.writer = s.writer ∧ t.tailDraw = s.tailDraw) ∨ i = .winit ∨ (∃ w, i = .wrbits w) ∨ i = .wrbool ∨ i = .flush ∨
      i = .wrbytes ∨ i = .venc ∨ i = .svenc ∨ i = .strenc ∨ i = .recenc ∨ i = .twenc

/-- Only the reader commands of R29 change the reader state. -/
def Obligations.OnlyReaderCommandsChangeTheReader : Prop :=
  ∀ (i : Instr) (s t : State), exec i s = .next t →
    t.reader = s.reader ∨ i = .rinit ∨ (∃ w, i = .rdbits w) ∨ i = .rdbool ∨ i = .rdbytes ∨ i = .vdec ∨ i = .svdec ∨
      i = .strdec ∨ i = .recdec ∨ i = .twdec

/-- Only RECDEC and TWDEC change field registers, TWDEC not F4-F7 (R31, R254); only RDBYTES, STRDEC and RECDEC change
XBUF (R72); and only RDBYTES changes SHORT, to 1 (R168). -/
def Obligations.OnlyDecodersChangeFieldsXbufAndShort : Prop :=
  ∀ (i : Instr) (s t : State), exec i s = .next t →
    (t.f = s.f ∨ i = .recdec ∨ (i = .twdec ∧
      t.f.f4 = s.f.f4 ∧ t.f.f5 = s.f.f5 ∧ t.f.f6 = s.f.f6 ∧ t.f.f7 = s.f.f7)) ∧
    (t.xbuf = s.xbuf ∨ i = .rdbytes ∨ i = .strdec ∨ i = .recdec) ∧
    (t.status.short = s.status.short ∨ (i = .rdbytes ∧ t.status.short = true))

/-- A command writes RES0 and RES1 only if R94 lists a result there (R25). -/
def Obligations.ResultsAreWrittenOnlyAsListed : Prop :=
  ∀ (i : Instr) (s t : State), exec i s = .next t →
    (t.res0 = s.res0 ∨ (∃ w, i = .rdbits w) ∨ i ∈ [.rdbool, .rdbytes, .venc, .vdec, .svenc, .svdec, .zzenc32, .zzdec32,
      .zzenc64, .zzdec64, .bitsreq, .strenc, .strdec, .recenc, .recdec, .mktag, .ptag, .twenc, .twdec]) ∧
    (t.res1 = s.res1 ∨ i ∈ [.vdec, .svenc, .svdec, .zzenc64, .zzdec64, .strdec, .ptag, .twenc])

/-- A command's behaviour never depends on STATUS (R35): from two states that differ in STATUS alone, the outcomes differ
in ERR and SHORT alone. -/
def Obligations.StatusNeverSteersACommand : Prop :=
  ∀ (i : Instr) (s : State) (st : Status), ∃ t t',
    exec i s = .next t ∧ exec i { s with status := st } = .next t' ∧ t'.status.ecode = t.status.ecode ∧
    { t' with status := t.status } = t

/-! Control and writer commands (40_control.md, 41_bitstream_writer.md). -/

/-- NOP changes ECODE alone, to 0x00 (R125). -/
def Obligations.NopChangesOnlyEcode : Prop :=
  ∀ s : State, exec .nop s = .next { s with status := s.doneStatus }

/-- WINIT starts a fresh writer and writes no byte of WBUF (R144). The draw of the unspecified bytes past WBYTES moves on
(DESIGN CHOICE, log entry 4). -/
def Obligations.WinitStartsAFreshWriter : Prop :=
  ∀ s : State, exec .winit s = .next { s with
    status := s.doneStatus
    writer := { buf := s.writer.buf, bytes := 0, cnt := 0, total := 0, acc := 0 }
    tailDraw := s.tailDraw + 1 }

/-- WRBITS (R145): WIDTH unless 1 ≤ W ≤ 32; WOVF unless the bits fit WBUF; otherwise the low W bits of ARG0 are appended,
least significant first, WTOTAL counts W, and nothing else changes. -/
def Obligations.WrbitsAppendsTheLowBits : Prop :=
  ∀ (s : State) (w : Nat), s.Inv →
    (w < 1 ∨ 32 < w → exec (.wrbits w) s = .next (s.failed 0x02)) ∧
    (1 ≤ w → w ≤ 32 → s.cfg.wcap < ceil8 (s.writer.bitCount + w) → exec (.wrbits w) s = .next (s.failed 0x04)) ∧
    (1 ≤ w → w ≤ 32 → ceil8 (s.writer.bitCount + w) ≤ s.cfg.wcap →
      ∃ w', exec (.wrbits w) s = .next { s with status := s.doneStatus, writer := w' } ∧
        s.writer.Appends w' w s.arg0.getLsbD ∧ w'.Inv s.cfg.wcap ∧ w'.total = s.writer.total + BitVec.ofNat 32 w)

/-- WRBOOL (R146): WOVF unless one bit fits; otherwise it appends 1 if ARG0 is not zero, as a whole, and 0 if it is. -/
def Obligations.WrboolAppendsOneBit : Prop :=
  ∀ s : State, s.Inv →
    (s.cfg.wcap < ceil8 (s.writer.bitCount + 1) → exec .wrbool s = .next (s.failed 0x04)) ∧
    (ceil8 (s.writer.bitCount + 1) ≤ s.cfg.wcap →
      ∃ w', exec .wrbool s = .next { s with status := s.doneStatus, writer := w' } ∧
        s.writer.Appends w' 1 (fun _ => decide (s.arg0 ≠ 0)) ∧ w'.Inv s.cfg.wcap ∧ w'.total = s.writer.total + 1)

/-- FLUSH (R147): it appends zeros up to the next byte boundary, leaves no bit pending and WTOTAL as it was, changes
nothing else, and cannot fail; a second FLUSH changes nothing. -/
def Obligations.FlushPadsWithZerosOnce : Prop :=
  ∀ s : State, s.Inv →
    ∃ w', exec .flush s = .next { s with status := s.doneStatus, writer := w' } ∧
      s.writer.Appends w' (padBits s.writer.bitCount) (fun _ => false) ∧ w'.cnt = 0 ∧ w'.acc = 0 ∧
      w'.total = s.writer.total ∧
      exec .flush { s with status := s.doneStatus, writer := w' } = .next { s with status := s.doneStatus, writer := w' }

/-- WRBYTES (R148): XRANGE if ARG0 + ARG1 > XCAP, exactly; then WOVF unless the flushed writer and the bytes fit;
otherwise the padding and XBUF[ARG0 .. ARG0+ARG1) are appended, WTOTAL counts the bytes alone, nothing else changes. -/
def Obligations.WrbytesAppendsBytesAligned : Prop :=
  ∀ s : State, s.Inv →
    (s.cfg.xcap < s.arg0.toNat + s.arg1.toNat → exec .wrbytes s = .next (s.failed 0x0B)) ∧
    (s.arg0.toNat + s.arg1.toNat ≤ s.cfg.xcap → s.cfg.wcap < ceil8 s.writer.bitCount + s.arg1.toNat →
      exec .wrbytes s = .next (s.failed 0x04)) ∧
    (s.arg0.toNat + s.arg1.toNat ≤ s.cfg.xcap → ceil8 s.writer.bitCount + s.arg1.toNat ≤ s.cfg.wcap →
      ∃ w', exec .wrbytes s = .next { s with status := s.doneStatus, writer := w' } ∧
        s.writer.Appends w' (padBits s.writer.bitCount + 8 * s.arg1.toNat)
          (rawBits (padBits s.writer.bitCount) (bytesFrom s.xbufByte s.arg0.toNat s.arg1.toNat)) ∧
        w'.cnt = 0 ∧ w'.acc = 0 ∧ w'.total = s.writer.total + BitVec.ofNat 32 (8 * s.arg1.toNat))

/-! Reader commands (42_bitstream_reader.md). -/

/-- RINIT (R164): RANGE if ARG0 > RCAP; otherwise a fresh reader over RBUF[0..ARG0), and nothing else changes. -/
def Obligations.RinitStartsAFreshReader : Prop :=
  ∀ s : State,
    (s.cfg.rcap < s.arg0.toNat → exec .rinit s = .next (s.failed 0x08)) ∧
    (s.arg0.toNat ≤ s.cfg.rcap → exec .rinit s = .next { s with
      status := s.doneStatus, reader := { len := s.arg0, cur := 0, cnt := 0, total := 0, acc := 0 } })

/-- RDBITS (R165): WIDTH unless 1 ≤ W ≤ 32; UNDERRUN if fewer than W bits are unread; otherwise RES0 is the next W unread
bits, the first in bit 0 and zeros above, they leave the unread sequence, RTOTAL counts W, nothing else changes. -/
def Obligations.RdbitsTakesTheNextBits : Prop :=
  ∀ (s : State) (w : Nat), s.Inv →
    (w < 1 ∨ 32 < w → exec (.rdbits w) s = .next (s.failed 0x02)) ∧
    (1 ≤ w → w ≤ 32 → s.reader.avail < w → exec (.rdbits w) s = .next (s.failed 0x03)) ∧
    (1 ≤ w → w ≤ 32 → w ≤ s.reader.avail →
      ∃ v r', exec (.rdbits w) s = .next { s with status := s.doneStatus, reader := r', res0 := v } ∧
        (∀ j, v.getLsbD j = (decide (j < w) && s.reader.bit s.rbufByte j)) ∧
        s.reader.Consumes s.rbufByte r' w ∧ r'.Inv s.cfg.rcap ∧ r'.total = s.reader.total + BitVec.ofNat 32 w)

/-- RDBOOL (R166): UNDERRUN if no bit is unread; otherwise RES0 is the next unread bit as 0 or 1. -/
def Obligations.RdboolTakesTheNextBit : Prop :=
  ∀ s : State, s.Inv →
    (s.reader.avail = 0 → exec .rdbool s = .next (s.failed 0x03)) ∧
    (1 ≤ s.reader.avail →
      ∃ r', exec .rdbool s = .next { s with
          status := s.doneStatus, reader := r', res0 := if s.reader.bit s.rbufByte 0 then 1 else 0 } ∧
        s.reader.Consumes s.rbufByte r' 1 ∧ r'.Inv s.cfg.rcap ∧ r'.total = s.reader.total + 1)

/-- RDBYTES (R167): XRANGE if ARG0 + ARG1 > XCAP; otherwise k = min(ARG1, RLEN - RCUR) bytes are copied from RBUF at RCUR
to XBUF at ARG0, no other byte of XBUF changes, the partial bits are discarded, RCUR passes k bytes, RTOTAL counts
8 x ARG1 bits, RES0 is k, and SHORT is set when k < ARG1; nothing else changes. -/
def Obligations.RdbytesCopiesWhatRemains : Prop :=
  ∀ (s : State) (k : Nat), s.Inv → k = min s.arg1.toNat (s.reader.len.toNat - s.reader.cur.toNat) →
    (s.cfg.xcap < s.arg0.toNat + s.arg1.toNat → exec .rdbytes s = .next (s.failed 0x0B)) ∧
    (s.arg0.toNat + s.arg1.toNat ≤ s.cfg.xcap →
      ∃ r' xb, exec .rdbytes s = .next { s with
          status := { ecode := 0x00, err := s.status.err, short := s.status.short || decide (k < s.arg1.toNat) }
          reader := r', xbuf := xb, res0 := BitVec.ofNat 32 k } ∧
        StoredAt s.xbuf xb s.arg0.toNat (bytesFrom s.rbufByte s.reader.cur.toNat k) ∧
        r'.len = s.reader.len ∧ r'.cur.toNat = s.reader.cur.toNat + k ∧ r'.cnt = 0 ∧ r'.acc = 0 ∧
        r'.total = s.reader.total + BitVec.ofNat 32 (8 * s.arg1.toNat))

/-- The round trip of R170: what WRBITS w wrote, flushed and copied to the start of RBUF, RDBITS w reads back, modulo
2^w. `s1` is the state WINIT leaves, `s2` the one after WRBITS w with v in ARG0, `s3` the one after FLUSH, and `u` any legal
state that holds the bytes at the start of RBUF and their number in ARG0. -/
def Obligations.WrittenBitsReadBack : Prop :=
  ∀ (s s1 s2 s3 u : State) (v : Word) (w : Nat), s.Inv → 1 ≤ w → w ≤ 32 →
    exec .winit s = .next s1 → exec (.wrbits w) { s1 with arg0 := v } = .next s2 → s2.status.ecode = 0x00 →
    exec .flush s2 = .next s3 → u.Inv → u.arg0 = s3.writer.bytes → u.arg0.toNat ≤ u.cfg.rcap →
    (∀ i, i < s3.writer.bytes.toNat → u.rbufByte i = s3.wbufByte i) →
    ∃ u1 u2, exec .rinit u = .next u1 ∧ exec (.rdbits w) u1 = .next u2 ∧ u2.status.ecode = 0x00 ∧
      u2.res0.toNat = v.toNat % 2 ^ w

/-! Varints, ZigZag and bits_required (43_varint_zigzag.md). -/

/-- VENC (R185): the varint bytes of ARG0 are appended at the current bit offset, low group first, seven bits of ARG0 in
each byte and the continuation flag on all but the last (R66, R181); they are as few as hold ARG0; RES0 is their number
n; nothing else changes. WOVF, and no effect, if they do not fit. -/
def Obligations.VencAppendsTheVarint : Prop :=
  ∀ s : State, s.Inv → ∃ n : Nat, 1 ≤ n ∧ n ≤ 5 ∧ s.arg0.toNat < 2 ^ (7 * n) ∧
    (n = 1 ∨ 2 ^ (7 * (n - 1)) ≤ s.arg0.toNat) ∧
    (s.cfg.wcap < ceil8 (s.writer.bitCount + 8 * n) → exec .venc s = .next (s.failed 0x04)) ∧
    (ceil8 (s.writer.bitCount + 8 * n) ≤ s.cfg.wcap →
      ∃ w', exec .venc s = .next { s with status := s.doneStatus, writer := w', res0 := BitVec.ofNat 32 n } ∧
        s.writer.Appends w' (8 * n)
          (fun k => if k % 8 = 7 then decide (k / 8 + 1 < n) else s.arg0.getLsbD (7 * (k / 8) + k % 8)) ∧
        w'.Inv s.cfg.wcap ∧ w'.total = s.writer.total + BitVec.ofNat 32 (8 * n))

/-- SVENC (R187): the same of ARG0's ZigZag image u, with RES1 = u; u is 2n for n ≥ 0 and -2n - 1 for n < 0 (R183). -/
def Obligations.SvencAppendsTheZigzagVarint : Prop :=
  ∀ s : State, s.Inv → ∃ (u : Word) (n : Nat),
    (u.toNat : Int) = (if 0 ≤ s.arg0.toInt then 2 * s.arg0.toInt else -2 * s.arg0.toInt - 1) ∧
    1 ≤ n ∧ n ≤ 5 ∧ u.toNat < 2 ^ (7 * n) ∧ (n = 1 ∨ 2 ^ (7 * (n - 1)) ≤ u.toNat) ∧
    (s.cfg.wcap < ceil8 (s.writer.bitCount + 8 * n) → exec .svenc s = .next (s.failed 0x04)) ∧
    (ceil8 (s.writer.bitCount + 8 * n) ≤ s.cfg.wcap →
      ∃ w', exec .svenc s = .next { s with
          status := s.doneStatus, writer := w', res0 := BitVec.ofNat 32 n, res1 := u } ∧
        s.writer.Appends w' (8 * n)
          (fun k => if k % 8 = 7 then decide (k / 8 + 1 < n) else u.getLsbD (7 * (k / 8) + k % 8)) ∧
        w'.Inv s.cfg.wcap ∧ w'.total = s.writer.total + BitVec.ofNat 32 (8 * n))

/-- VDEC (R186): a varint of n bytes at the current bit offset gives RES0 its value and RES1 n, and leaves the unread
sequence; non-shortest forms count, and a fifth byte's bits above bit 31 fall off. If the unread bits end inside a varint,
VTRUNC; if five bytes in a row have their continuation flag, VOVERLONG; neither consumes anything. -/
def Obligations.VdecReadsAVarint : Prop :=
  ∀ (s : State) (n : Nat) (v : Word), s.Inv →
    (VarintAt s.reader.avail (s.reader.bit s.rbufByte) n v →
      ∃ r', exec .vdec s = .next { s with
          status := s.doneStatus, reader := r', res0 := v, res1 := BitVec.ofNat 32 n } ∧
        s.reader.Consumes s.rbufByte r' (8 * n) ∧ r'.Inv s.cfg.rcap ∧
        r'.total = s.reader.total + BitVec.ofNat 32 (8 * n)) ∧
    (VarintCut s.reader.avail (s.reader.bit s.rbufByte) → exec .vdec s = .next (s.failed 0x07)) ∧
    (VarintLong s.reader.avail (s.reader.bit s.rbufByte) → exec .vdec s = .next (s.failed 0x06))

/-- SVDEC (R188): the same, with RES0 the signed value the ZigZag image v stands for: v/2 for even v, -(v+1)/2 for odd v
(R183). -/
def Obligations.SvdecReadsAZigzagVarint : Prop :=
  ∀ (s : State) (n : Nat) (v : Word), s.Inv →
    (VarintAt s.reader.avail (s.reader.bit s.rbufByte) n v →
      ∃ r' x, exec .svdec s = .next { s with
          status := s.doneStatus, reader := r', res0 := x, res1 := BitVec.ofNat 32 n } ∧
        x.toInt = (if v.toNat % 2 = 0 then ((v.toNat / 2 : Nat) : Int) else -(((v.toNat + 1) / 2 : Nat) : Int)) ∧
        s.reader.Consumes s.rbufByte r' (8 * n) ∧ r'.Inv s.cfg.rcap ∧
        r'.total = s.reader.total + BitVec.ofNat 32 (8 * n)) ∧
    (VarintCut s.reader.avail (s.reader.bit s.rbufByte) → exec .svdec s = .next (s.failed 0x07)) ∧
    (VarintLong s.reader.avail (s.reader.bit s.rbufByte) → exec .svdec s = .next (s.failed 0x06))

/-- ZZENC32 and ZZENC64 (R189, R191): the ZigZag image of the signed operand, 2n for n ≥ 0 and -2n - 1 for n < 0, in RES0
or in RES1:RES0; the 64-bit operand is ARG1:ARG0; nothing else changes. -/
def Obligations.ZigzagEncodeCommands : Prop :=
  ∀ s : State,
    (∃ u : Word, exec .zzenc32 s = .next { s with status := s.doneStatus, res0 := u } ∧
      (u.toNat : Int) = (if 0 ≤ s.arg0.toInt then 2 * s.arg0.toInt else -2 * s.arg0.toInt - 1)) ∧
    (∃ hi lo : Word, exec .zzenc64 s = .next { s with status := s.doneStatus, res0 := lo, res1 := hi } ∧
      ((hi ++ lo : BitVec 64).toNat : Int) =
        (if 0 ≤ (s.arg1 ++ s.arg0 : BitVec 64).toInt then 2 * (s.arg1 ++ s.arg0 : BitVec 64).toInt
        else -2 * (s.arg1 ++ s.arg0 : BitVec 64).toInt - 1))

/-- ZZDEC32 and ZZDEC64 (R190, R192): the signed value of the image u, u/2 for even u and -(u+1)/2 for odd u. -/
def Obligations.ZigzagDecodeCommands : Prop :=
  ∀ s : State,
    (∃ x : Word, exec .zzdec32 s = .next { s with status := s.doneStatus, res0 := x } ∧
      x.toInt = (if s.arg0.toNat % 2 = 0 then ((s.arg0.toNat / 2 : Nat) : Int)
        else -(((s.arg0.toNat + 1) / 2 : Nat) : Int))) ∧
    (∃ hi lo : Word, exec .zzdec64 s = .next { s with status := s.doneStatus, res0 := lo, res1 := hi } ∧
      (hi ++ lo : BitVec 64).toInt =
        (if (s.arg1 ++ s.arg0 : BitVec 64).toNat % 2 = 0 then (((s.arg1 ++ s.arg0 : BitVec 64).toNat / 2 : Nat) : Int)
        else -((((s.arg1 ++ s.arg0 : BitVec 64).toNat + 1) / 2 : Nat) : Int)))

/-- The bijection laws of R195, of zz_enc, zz_dec and varint_dec themselves: decoding an image gives the operand back, at
both widths and in both orders, and varint_dec over a region that holds varint_enc(v) gives v and the position after it. -/
def Obligations.ZigzagAndVarintAreBijections : Prop :=
  (∀ n : BitVec 32, zigzagDec (zigzagEnc n) = n ∧ zigzagEnc (zigzagDec n) = n) ∧
  (∀ n : BitVec 64, zigzagDec (zigzagEnc n) = n ∧ zigzagEnc (zigzagDec n) = n) ∧
  (∀ (v : Word) (rd : Nat → Byte) (p hi : Nat), p + (varintEnc v).length ≤ hi →
    bytesFrom rd p (varintEnc v).length = varintEnc v →
    regionVarint rd hi p = .ok (v, p + (varintEnc v).length))

/-- BITSREQ (R193): RANGE if the signed ARG0 exceeds the signed ARG1; otherwise RES0 is the smallest b ≥ 1 with
2^b > max - min (R184), between 1 and 32, and nothing else changes. -/
def Obligations.BitsreqFindsTheLeastWidth : Prop :=
  ∀ s : State,
    (s.arg1.toInt < s.arg0.toInt → exec .bitsreq s = .next (s.failed 0x08)) ∧
    (s.arg0.toInt ≤ s.arg1.toInt →
      ∃ b : Nat, exec .bitsreq s = .next { s with status := s.doneStatus, res0 := BitVec.ofNat 32 b } ∧
        1 ≤ b ∧ b ≤ 32 ∧ s.arg1.toInt - s.arg0.toInt < 2 ^ b ∧
        ∀ c : Nat, 1 ≤ c → c < b → (2 : Int) ^ c ≤ s.arg1.toInt - s.arg0.toInt)

/-! Strings and records (44_record.md). -/

/-- STRENC (R217): STRLEN if ARG1 > 255, then XRANGE if ARG0 + ARG1 > XCAP, then WOVF if the whole does not fit; otherwise
the length varint at the current bit offset, zeros to the byte boundary and the text are appended, RES0 is the number of
bytes committed, no bit is pending, and nothing else changes. -/
def Obligations.StrencAppendsTheString : Prop :=
  ∀ (s : State) (len : List Byte) (pad m : Nat), s.Inv → len = varintEnc s.arg1 →
    pad = padBits (s.writer.bitCount + 8 * len.length) → m = 8 * len.length + pad + 8 * s.arg1.toNat →
    (255 < s.arg1.toNat → exec .strenc s = .next (s.failed 0x05)) ∧
    (s.arg1.toNat ≤ 255 → s.cfg.xcap < s.arg0.toNat + s.arg1.toNat → exec .strenc s = .next (s.failed 0x0B)) ∧
    (s.arg1.toNat ≤ 255 → s.arg0.toNat + s.arg1.toNat ≤ s.cfg.xcap → 8 * s.cfg.wcap < s.writer.bitCount + m →
      exec .strenc s = .next (s.failed 0x04)) ∧
    (s.arg1.toNat ≤ 255 → s.arg0.toNat + s.arg1.toNat ≤ s.cfg.xcap → s.writer.bitCount + m ≤ 8 * s.cfg.wcap →
      ∃ w', exec .strenc s = .next { s with
          status := s.doneStatus, writer := w', res0 := w'.bytes - s.writer.bytes } ∧
        s.writer.Appends w' m (textBits len pad (bytesFrom s.xbufByte s.arg0.toNat s.arg1.toNat)) ∧ w'.cnt = 0 ∧
        w'.acc = 0 ∧ w'.total = s.writer.total + BitVec.ofNat 32 (8 * len.length + 8 * s.arg1.toNat))

/-- STRDEC (R218): after a length varint of n bytes and value v, STRLEN if v > 255, then XRANGE if ARG0 + v > XCAP, then
TRUNC if fewer than v bytes follow; otherwise those bytes go to XBUF at ARG0 and nowhere else, RES0 is v, RES1 the bytes
pulled, the reader stands aligned behind the text, and nothing else changes. -/
def Obligations.StrdecReadsTheString : Prop :=
  ∀ (s : State) (n : Nat) (v : Word), s.Inv → VarintAt s.reader.avail (s.reader.bit s.rbufByte) n v →
    (255 < v.toNat → exec .strdec s = .next (s.failed 0x05)) ∧
    (v.toNat ≤ 255 → s.cfg.xcap < s.arg0.toNat + v.toNat → exec .strdec s = .next (s.failed 0x0B)) ∧
    (v.toNat ≤ 255 → s.arg0.toNat + v.toNat ≤ s.cfg.xcap → s.reader.len.toNat < s.reader.cur.toNat + n + v.toNat →
      exec .strdec s = .next (s.failed 0x0C)) ∧
    (v.toNat ≤ 255 → s.arg0.toNat + v.toNat ≤ s.cfg.xcap → s.reader.cur.toNat + n + v.toNat ≤ s.reader.len.toNat →
      ∃ r' xb, exec .strdec s = .next { s with
          status := s.doneStatus, reader := r', xbuf := xb, res0 := v,
          res1 := BitVec.ofNat 32 (n + v.toNat) } ∧
        StoredAt s.xbuf xb s.arg0.toNat (bytesFrom s.rbufByte (s.reader.cur.toNat + n) v.toNat) ∧
        r'.len = s.reader.len ∧ r'.cur.toNat = s.reader.cur.toNat + n + v.toNat ∧ r'.cnt = 0 ∧ r'.acc = 0 ∧
        r'.total = s.reader.total + BitVec.ofNat 32 (8 * n + 8 * v.toNat))

/-- A string decode that finds no length (R182, R213): VTRUNC or VOVERLONG, and nothing consumed. -/
def Obligations.StrdecNeedsALength : Prop :=
  ∀ s : State, s.Inv →
    (VarintCut s.reader.avail (s.reader.bit s.rbufByte) → exec .strdec s = .next (s.failed 0x07)) ∧
    (VarintLong s.reader.avail (s.reader.bit s.rbufByte) → exec .strdec s = .next (s.failed 0x06))

/-- RECENC's checks, in order (R219, R273): RANGE for a numeric field outside its declared range, then STRLEN, then
XRANGE, then WOVF if the whole record does not fit. -/
def Obligations.RecencChecksInOrder : Prop :=
  ∀ (s : State) (len : List Byte) (pad : Nat) (ok : Bool), s.Inv → len = varintEnc s.f.f7 →
    pad = padBits (s.writer.bitCount + 49 + 8 * len.length) →
    ok = decide (s.f.f0.toNat ≤ 1023 ∧ s.f.f1.toNat ≤ 1023 ∧ s.f.f2.toNat ≤ 1023 ∧ s.f.f3.toNat ≤ 100 ∧
      s.f.f4.toNat ≤ 359 ∧ s.f.f5.toNat ≤ 3) →
    (ok = false → exec .recenc s = .next (s.failed 0x08)) ∧
    (ok = true → 255 < s.f.f7.toNat → exec .recenc s = .next (s.failed 0x05)) ∧
    (ok = true → s.f.f7.toNat ≤ 255 → s.cfg.xcap < s.arg0.toNat + s.f.f7.toNat →
      exec .recenc s = .next (s.failed 0x0B)) ∧
    (ok = true → s.f.f7.toNat ≤ 255 → s.arg0.toNat + s.f.f7.toNat ≤ s.cfg.xcap →
      8 * s.cfg.wcap < s.writer.bitCount + 49 + 8 * len.length + pad + 8 * s.f.f7.toNat →
      exec .recenc s = .next (s.failed 0x04))

/-- RECENC lays a record out as R216's table does, at whatever bit offset it starts: 49 field bits, the length varint of
the name, zeros to the byte boundary, the name's bytes from XBUF at ARG0. RES0 is the number of bytes committed, no bit
is pending, and nothing else changes (R219). -/
def Obligations.RecencLaysOutTheRecord : Prop :=
  ∀ (s : State) (len : List Byte) (pad m : Nat), s.Inv → len = varintEnc s.f.f7 →
    pad = padBits (s.writer.bitCount + 49 + 8 * len.length) → m = 49 + 8 * len.length + pad + 8 * s.f.f7.toNat →
    s.f.f0.toNat ≤ 1023 → s.f.f1.toNat ≤ 1023 → s.f.f2.toNat ≤ 1023 → s.f.f3.toNat ≤ 100 → s.f.f4.toNat ≤ 359 →
    s.f.f5.toNat ≤ 3 → s.f.f7.toNat ≤ 255 → s.arg0.toNat + s.f.f7.toNat ≤ s.cfg.xcap →
    s.writer.bitCount + m ≤ 8 * s.cfg.wcap →
    ∃ w', exec .recenc s = .next { s with
        status := s.doneStatus, writer := w', res0 := w'.bytes - s.writer.bytes } ∧
      s.writer.Appends w' m (recordBits s.f len pad (bytesFrom s.xbufByte s.arg0.toNat s.f.f7.toNat)) ∧ w'.cnt = 0 ∧
      w'.acc = 0 ∧ w'.total = s.writer.total + BitVec.ofNat 32 (49 + 8 * len.length + 8 * s.f.f7.toNat)

/-- RECDEC (R220): if the unread bits begin with the 49 field bits of `g`, in range, and a length varint of n bytes and
value v ≤ 255, and the text is there and fits XBUF, F0-F7 become the fields, alive 0 or 1 and F7 the length, the text goes
to XBUF at ARG0 and nowhere else, RES0 is the bytes pulled, the reader stands behind the text, nothing else changes. -/
def Obligations.RecdecReadsTheRecord : Prop :=
  ∀ (s : State) (g : FRegs) (n p : Nat) (v : Word), s.Inv → p = ceil8 (49 + 8 * n - s.reader.cnt.toNat) →
    49 ≤ s.reader.avail → (∀ k, k < 49 → s.reader.bit s.rbufByte k = playerBits g k) →
    g.f0.toNat ≤ 1023 → g.f1.toNat ≤ 1023 → g.f2.toNat ≤ 1023 → g.f3.toNat ≤ 100 → g.f4.toNat ≤ 359 →
    g.f5.toNat ≤ 3 → g.f6.toNat ≤ 1 →
    VarintAt (s.reader.avail - 49) (fun k => s.reader.bit s.rbufByte (49 + k)) n v → g.f7 = v → v.toNat ≤ 255 →
    s.arg0.toNat + v.toNat ≤ s.cfg.xcap → s.reader.cur.toNat + p + v.toNat ≤ s.reader.len.toNat →
    ∃ r' xb, exec .recdec s = .next { s with
        status := s.doneStatus, reader := r', xbuf := xb, f := g,
        res0 := BitVec.ofNat 32 (p + v.toNat) } ∧
      StoredAt s.xbuf xb s.arg0.toNat (bytesFrom s.rbufByte (s.reader.cur.toNat + p) v.toNat) ∧
      r'.len = s.reader.len ∧ r'.cur.toNat = s.reader.cur.toNat + p + v.toNat ∧ r'.cnt = 0 ∧ r'.acc = 0 ∧
      r'.total = s.reader.total + BitVec.ofNat 32 (49 + 8 * n + 8 * v.toNat)

/-- RECDEC's failures before the text (R220): UNDERRUN with fewer than 49 unread bits; RANGE if the health or heading bits
are out of range, whatever follows; nothing else changes. -/
def Obligations.RecdecRejectsFieldsOutOfRange : Prop :=
  ∀ (s : State) (g : FRegs), s.Inv →
    (s.reader.avail < 49 → exec .recdec s = .next (s.failed 0x03)) ∧
    (49 ≤ s.reader.avail → (∀ k, k < 49 → s.reader.bit s.rbufByte k = playerBits g k) →
      100 < g.f3.toNat % 128 ∨ 359 < g.f4.toNat % 512 → exec .recdec s = .next (s.failed 0x08))

/-- The record round trip of R221: the bits RECENC appended, standing next in a reader at the same alignment, RECDEC reads
back into the same F0-F5 and F7, alive as 0 or 1, and the same name bytes at any destination that fits XBUF. -/
def Obligations.RecordsRoundTrip : Prop :=
  ∀ (s t u : State) (m : Nat), s.Inv → exec .recenc s = .next t → t.status.ecode = 0x00 → u.Inv →
    s.writer.bitCount + m = t.writer.bitCount → m ≤ u.reader.avail →
    (∀ k, k < m → u.reader.bit u.rbufByte k = t.writer.bit (s.writer.bitCount + k)) →
    (u.reader.cnt.toNat + s.writer.cnt.toNat) % 8 = 0 → u.arg0.toNat + s.f.f7.toNat ≤ u.cfg.xcap →
    ∃ t', exec .recdec u = .next t' ∧ t'.status.ecode = 0x00 ∧
      t'.f = { s.f with f6 := if s.f.f6 = 0 then 0 else 1 } ∧
      ∀ i, i < s.f.f7.toNat → Memory.read t'.xbuf (u.arg0.toNat + i) = some (s.xbufByte (s.arg0.toNat + i))

/-! Tagged wire (45_tagged_wire.md). -/

/-- MKTAG (R244): RANGE if the field number has more than 29 bits or the wire type more than 3; otherwise RES0 is
8 x field number + wire type. PTAG (R245): RES0 is the tag div 8 and RES1 the tag mod 8, for every tag. -/
def Obligations.TagsPackAndParse : Prop :=
  ∀ s : State,
    (2 ^ 29 ≤ s.arg0.toNat ∨ 7 < s.arg1.toNat → exec .mktag s = .next (s.failed 0x08)) ∧
    (s.arg0.toNat < 2 ^ 29 → s.arg1.toNat ≤ 7 → exec .mktag s = .next { s with
      status := s.doneStatus, res0 := BitVec.ofNat 32 (8 * s.arg0.toNat + s.arg1.toNat) }) ∧
    exec .ptag s = .next { s with
      status := s.doneStatus, res0 := BitVec.ofNat 32 (s.arg0.toNat / 8),
      res1 := BitVec.ofNat 32 (s.arg0.toNat % 8) }

/-- TWENC (R249, R250): WOVF if the flushed writer and the message do not fit; otherwise the padding and the message, laid
out as in R249's table, are appended, RES0 is the message's length, RES1 is 15, and nothing else changes. The I32 bytes
are little-endian as R67 says from general knowledge (PRESUMED, log entry 10). -/
def Obligations.TwencLaysOutTheMessage : Prop :=
  ∀ (s : State) (msg : List Byte), s.Inv →
    msg = [0x08] ++ varintEnc s.f.f0 ++ [0x12, 0x0F, 0x0D] ++ le32Bytes s.f.f1 ++ [0x15] ++ le32Bytes s.f.f2 ++
      [0x1D] ++ le32Bytes s.f.f3 →
    (s.cfg.wcap < ceil8 s.writer.bitCount + msg.length → exec .twenc s = .next (s.failed 0x04)) ∧
    (ceil8 s.writer.bitCount + msg.length ≤ s.cfg.wcap →
      ∃ w', exec .twenc s = .next { s with
          status := s.doneStatus, writer := w',
          res0 := BitVec.ofNat 32 msg.length, res1 := 15 } ∧
        s.writer.Appends w' (padBits s.writer.bitCount + 8 * msg.length) (rawBits (padBits s.writer.bitCount) msg) ∧
        w'.cnt = 0 ∧ w'.acc = 0 ∧ w'.total = s.writer.total + BitVec.ofNat 32 (8 * msg.length))

/-- TWDEC decodes every message of accepted items (R251-R255): ids, positions with any nested fields, and unknown fields
of every wire type, in any order and number, with every varint in any form R182 accepts. F0-F3 are what the items leave of
(0, 0, 0, 0): the last id, the last of each coordinate, unknown fields skipped; F4-F7 and everything but the reader, RES0
and ECODE are unchanged. The I32 bytes are little-endian as R67 says from general knowledge (PRESUMED, log entry 10). -/
def Obligations.TwdecDecodesEveryMessage : Prop :=
  ∀ (s : State) (items : List MessageItem) (o : ObjectRec), s.Inv → items.all MessageItem.ok = true →
    s.arg0.toNat = (messageOf items).length → s.reader.HoldsRaw s.rbufByte (messageOf items) →
    o = items.foldl MessageItem.apply { id := 0, x := 0, y := 0, z := 0 } →
    exec .twdec s = .next { s with
      status := s.doneStatus
      reader := {
        len := s.reader.len
        cur := s.reader.cur + s.arg0
        cnt := 0
        total := s.reader.total + BitVec.ofNat 32 (8 * s.arg0.toNat)
        acc := 0 }
      f := { s.f with f0 := o.id, f1 := o.x, f2 := o.y, f3 := o.z }
      res0 := s.arg0 }

/-- TWDEC's refusals of a region and of wire types (R253, R254): LENOVR if ARG0 passes RLEN; WIRETYPE at a tag, after any
accepted items, whose wire type is 3, 4, 6 or 7 or whose field is known with another wire type, and the same inside a
position, after any accepted nested fields; nothing else changes. Every varint is in any form R182 accepts. -/
def Obligations.TwdecRejectsWrongWireTypes : Prop :=
  ∀ (s : State) (items : List MessageItem) (fn wt : Nat) (nested : List WireField)
    (tag ptag pre body rest rest' : List Byte), s.Inv →
    (s.reader.len.toNat < s.reader.cur.toNat + s.arg0.toNat → exec .twdec s = .next (s.failed 0x0A)) ∧
    (items.all MessageItem.ok = true → varintOk tag = true → (varintWord tag).toNat = 8 * fn + wt → wt < 8 →
      ¬ OuterAllows fn wt →
      s.arg0.toNat = (messageOf items ++ (tag ++ rest)).length →
      s.reader.HoldsRaw s.rbufByte (messageOf items ++ (tag ++ rest)) → exec .twdec s = .next (s.failed 0x09)) ∧
    (items.all MessageItem.ok = true → nested.all WireField.nestedOk = true →
      varintOk tag = true → (varintWord tag).toNat = 8 * fn + wt → wt < 8 → ¬ NestedAllows fn wt →
      body = nested.flatMap WireField.bytes ++ (tag ++ rest) →
      varintOk ptag = true → varintWord ptag = 0x12 → varintOk pre = true → (varintWord pre).toNat = body.length →
      s.arg0.toNat = (messageOf items ++ (ptag ++ (pre ++ body) ++ rest')).length →
      s.reader.HoldsRaw s.rbufByte (messageOf items ++ (ptag ++ (pre ++ body) ++ rest')) →
      exec .twdec s = .next (s.failed 0x09))

/-- TWDEC's refusals of a message that breaks off (R253), after any accepted items, or inside a position after any accepted
nested fields: VTRUNC where a tag, a VARINT value or a LEN length runs to the end of its region, VOVERLONG where one has
five continuation flags, LENOVR where an I64 value, an I32 value or a LEN body extends past its region. The region of a
nested field is the position's body, whatever follows it. Nothing else changes. -/
def Obligations.TwdecRejectsBrokenMessages : Prop :=
  ∀ (s : State) (items : List MessageItem) (nested : List WireField) (rest body ptag pre rest' : List Byte)
    (code : BitVec 8), s.Inv → items.all MessageItem.ok = true →
    (BreaksOff OuterAllows rest code →
      s.arg0.toNat = (messageOf items ++ rest).length → s.reader.HoldsRaw s.rbufByte (messageOf items ++ rest) →
      exec .twdec s = .next (s.failed code)) ∧
    (nested.all WireField.nestedOk = true → BreaksOff NestedAllows rest code →
      body = nested.flatMap WireField.bytes ++ rest →
      varintOk ptag = true → varintWord ptag = 0x12 → varintOk pre = true → (varintWord pre).toNat = body.length →
      s.arg0.toNat = (messageOf items ++ (ptag ++ (pre ++ body) ++ rest')).length →
      s.reader.HoldsRaw s.rbufByte (messageOf items ++ (ptag ++ (pre ++ body) ++ rest')) →
      exec .twdec s = .next (s.failed code))

/-- The tagged-wire round trip of R258: the message bytes TWENC appended, standing at the reader's cursor, TWDEC restores
to the same F0-F3, bit for bit. `a` is where the message begins in WBUF. -/
def Obligations.TaggedObjectsRoundTrip : Prop :=
  ∀ (s t u : State) (a : Nat), s.Inv → exec .twenc s = .next t → t.status.ecode = 0x00 → u.Inv →
    a + t.res0.toNat = t.writer.bytes.toNat → u.arg0 = t.res0 → t.res0.toNat ≤ u.reader.left →
    (∀ i, i < t.res0.toNat → u.rbufByte (u.reader.cur.toNat + i) = t.wbufByte (a + i)) →
    ∃ t', exec .twdec u = .next t' ∧ t'.status.ecode = 0x00 ∧
      t'.f.f0 = s.f.f0 ∧ t'.f.f1 = s.f.f1 ∧ t'.f.f2 = s.f.f2 ∧ t'.f.f3 = s.f.f3

/-! Two statements that complete earlier ones: RecdecRejectsFieldsOutOfRange and HostReadsLatestWindowByte. -/

/-- RECDEC's failures behind 49 field bits in range (R213, R220), in order: VTRUNC or VOVERLONG where no length can be
read, STRLEN if it is over 255, XRANGE if the text would pass XCAP, TRUNC if it runs past RLEN; nothing else changes. -/
def Obligations.RecdecRejectsItsName : Prop :=
  ∀ (s : State) (g : FRegs) (avail : Nat) (bit : Nat → Bool), s.Inv →
    49 ≤ s.reader.avail → (∀ k, k < 49 → s.reader.bit s.rbufByte k = playerBits g k) →
    g.f3.toNat % 128 ≤ 100 → g.f4.toNat % 512 ≤ 359 →
    avail = s.reader.avail - 49 → bit = (fun k => s.reader.bit s.rbufByte (49 + k)) →
    (VarintCut avail bit → exec .recdec s = .next (s.failed 0x07)) ∧
    (VarintLong avail bit → exec .recdec s = .next (s.failed 0x06)) ∧
    (∀ (n p : Nat) (v : Word), VarintAt avail bit n v → p = ceil8 (49 + 8 * n - s.reader.cnt.toNat) →
      (255 < v.toNat → exec .recdec s = .next (s.failed 0x05)) ∧
      (v.toNat ≤ 255 → s.cfg.xcap < s.arg0.toNat + v.toNat → exec .recdec s = .next (s.failed 0x0B)) ∧
      (v.toNat ≤ 255 → s.arg0.toNat + v.toNat ≤ s.cfg.xcap →
        s.reader.len.toNat < s.reader.cur.toNat + p + v.toNat → exec .recdec s = .next (s.failed 0x0C)))

/-- The value that commands and host reads take a byte of RBUF or XBUF to have, where nothing has written it since reset,
is the same after any step but a reset that leaves it unwritten: it is fixed once drawn (R301, R128). -/
def Obligations.UnwrittenBytesStayFixed : Prop :=
  ∀ (s t : State) (i : Nat), step s = .next t → (∀ q, s.hostQueue ≠ .reset :: q) →
    (Memory.read t.rbuf i = none → Memory.read s.rbuf i = none ∧ t.rbufByte i = s.rbufByte i) ∧
    (Memory.read t.xbuf i = none → Memory.read s.xbuf i = none ∧ t.xbufByte i = s.xbufByte i)
end

