-- ==== Sys2Proof/Laws/Bits.lean ====
section
/-! SUPPORT. Bits of the words, bytes and accumulators the micro-operations move. -/

namespace Sys2Proof.Machine

/-- The high bits of a value below a power of two are zero. -/
theorem getLsbD_of_toNat_lt {n : Nat} {x : BitVec n} {c k : Nat} (h : x.toNat < 2 ^ c) (hk : c ≤ k) :
    x.getLsbD k = false := by
  rw [← BitVec.testBit_toNat]
  exact Nat.testBit_lt_two_pow (Nat.lt_of_lt_of_le h (Nat.pow_le_pow_right (by decide) hk))

/-- A value whose bits from `c` up are zero is below 2^c. -/
theorem toNat_lt_of_getLsbD {n : Nat} {x : BitVec n} {c : Nat} (h : ∀ k, c ≤ k → x.getLsbD k = false) :
    x.toNat < 2 ^ c :=
  Nat.lt_pow_two_of_testBit _ fun i hi => by rw [BitVec.testBit_toNat]; exact h i hi

theorem lowBits_getLsbD {m : Nat} (v : BitVec m) (w k : Nat) :
    (lowBits v w).getLsbD k = (decide (k < 64) && (decide (k < w) && v.getLsbD k)) := by
  simp [lowBits]

/-- ceil8 is the number of bytes that hold that many bits. -/
theorem ceil8_le_iff (n c : Nat) : ceil8 n ≤ c ↔ n ≤ 8 * c := by
  unfold ceil8; omega

end Sys2Proof.Machine
end

