-- ==== Sys2Proof/Laws/Memory.lean ====
section
/-! SUPPORT. The laws of the byte buffers: a read after a write, and that every write keeps the canonical form and the
capacity bound. -/

namespace Sys2Proof.Machine

@[simp] theorem Memory.read_nil (a : Nat) : Memory.read [] a = none := rfl

theorem Memory.read_write_same (m : Memory) (a : Nat) (b : Byte) : Memory.read (Memory.write m a b) a = some b := by
  induction m with
  | nil => simp [Memory.write, Memory.read]
  | cons c m ih =>
    obtain ⟨k, x⟩ := c
    simp only [Memory.write]
    split
    · simp [Memory.read]
    · split
      · simp [Memory.read]
      · rename_i h1 h2
        simp [Memory.read, h2, ih]

theorem Memory.read_write_other (m : Memory) {a i : Nat} (b : Byte) (h : i ≠ a) :
    Memory.read (Memory.write m a b) i = Memory.read m i := by
  induction m with
  | nil => simp [Memory.write, Memory.read, h]
  | cons c m ih =>
    obtain ⟨k, x⟩ := c
    simp only [Memory.write]
    split
    · simp [Memory.read, h]
    · split
      · rename_i h1 h2
        subst h2
        simp [Memory.read, h]
      · simp only [Memory.read, ih]

theorem Memory.read_write (m : Memory) (a i : Nat) (b : Byte) :
    Memory.read (Memory.write m a b) i = if i = a then some b else Memory.read m i := by
  by_cases h : i = a
  · subst h; simp [Memory.read_write_same]
  · simp [h, Memory.read_write_other m b h]

theorem Memory.rising_write {m : Memory} {lo a : Nat} (b : Byte) (h : Memory.rising lo m = true) (hl : lo ≤ a) :
    Memory.rising lo (Memory.write m a b) = true := by
  induction m generalizing lo with
  | nil => simp [Memory.write, Memory.rising, hl]
  | cons c m ih =>
    obtain ⟨k, x⟩ := c
    simp only [Memory.rising, Bool.and_eq_true, decide_eq_true_eq] at h
    simp only [Memory.write]
    split
    · rename_i h1
      simp only [Memory.rising, Bool.and_eq_true, decide_eq_true_eq]
      exact ⟨hl, by omega, h.2⟩
    · split
      · rename_i h1 h2
        subst h2
        simp only [Memory.rising, Bool.and_eq_true, decide_eq_true_eq]
        exact ⟨hl, h.2⟩
      · simp only [Memory.rising, Bool.and_eq_true, decide_eq_true_eq]
        exact ⟨h.1, ih h.2 (by omega)⟩

/-- A write keeps the canonical form. -/
theorem Memory.wf_write {m : Memory} (a : Nat) (b : Byte) (h : Memory.wf m = true) :
    Memory.wf (Memory.write m a b) = true :=
  Memory.rising_write b h (Nat.zero_le a)

/-- A write below the capacity keeps the capacity bound. -/
theorem Memory.below_write {m : Memory} {cap a : Nat} (b : Byte) (h : Memory.below cap m = true) (ha : a < cap) :
    Memory.below cap (Memory.write m a b) = true := by
  induction m with
  | nil => simp [Memory.write, Memory.below, ha]
  | cons c m ih =>
    obtain ⟨k, x⟩ := c
    simp only [Memory.below, List.all_cons, Bool.and_eq_true, decide_eq_true_eq] at h ih
    simp only [Memory.write]
    split
    · simpa [Memory.below, ha] using h
    · split
      · simpa [Memory.below, ha] using h.2
      · simp only [Memory.below, List.all_cons, Bool.and_eq_true, decide_eq_true_eq]
        exact ⟨h.1, ih h.2⟩

/-- MemWrite stores its bytes and nothing else. -/
theorem read_storeBytes (m : Memory) (a : Nat) (bs : List Byte) (i : Nat) :
    Memory.read (storeBytes m a bs) i = if a ≤ i ∧ i < a + bs.length then bs[i - a]? else Memory.read m i := by
  induction bs generalizing m a with
  | nil => simp only [storeBytes, List.length_nil]; split <;> [omega; rfl]
  | cons b bs ih =>
    simp only [storeBytes, ih, Memory.read_write, List.length_cons]
    by_cases h : i = a
    · subst h
      simp
    · by_cases h2 : a + 1 ≤ i ∧ i < a + 1 + bs.length
      · rw [if_pos h2, if_pos (by omega), List.getElem?_cons]
        have : i - a ≠ 0 := by omega
        simp only [this, if_false]
        congr 1
      · rw [if_neg h2, if_neg h, if_neg (by omega)]

/-- MemWrite keeps the canonical form. -/
theorem wf_storeBytes {m : Memory} (a : Nat) (bs : List Byte) (h : Memory.wf m = true) :
    Memory.wf (storeBytes m a bs) = true := by
  induction bs generalizing m a with
  | nil => exact h
  | cons b bs ih => exact ih (a + 1) (Memory.wf_write a b h)

/-- MemWrite below the capacity keeps the capacity bound. -/
theorem below_storeBytes {m : Memory} {cap a : Nat} (bs : List Byte) (h : Memory.below cap m = true)
    (ha : a + bs.length ≤ cap) : Memory.below cap (storeBytes m a bs) = true := by
  induction bs generalizing m a with
  | nil => exact h
  | cons b bs ih =>
    simp only [List.length_cons] at ha
    exact ih (Memory.below_write b h (by omega)) (by omega)

@[simp] theorem bytesFrom_length (rd : Nat → Byte) (a n : Nat) : (bytesFrom rd a n).length = n := by
  simp [bytesFrom]

theorem bytesFrom_get (rd : Nat → Byte) {a n i : Nat} (h : i < n) : (bytesFrom rd a n)[i]? = some (rd (a + i)) := by
  simp [bytesFrom, h]

end Sys2Proof.Machine
end

