-- ==== Sys2Proof/Laws/Ops.lean ====
section
/-! SUPPORT. The end of a command, said once (40_control.md R121, R123): a command completes with the effects it made of
its working copy, or fails and changes ECODE and ERR alone. -/

namespace Sys2Proof.Machine

variable {s t : State} {e : ErrorCode} {α : Type}

/-- The command completes. -/
theorem finish_ok (s s' : State) : finish s (.ok s') = .next (commit s') := rfl

/-- The command fails. -/
theorem finish_error (s : State) (e : ErrorCode) : finish s (.error e) = .next (takeError e s) := rfl

/-- A command built on an operation that succeeds. -/
theorem finish_map_ok {x : Except ErrorCode α} {a : α} (f : α → State) (h : x = .ok a) :
    finish s (x.map f) = .next (commit (f a)) := by rw [h]; rfl

/-- A command built on an operation that fails. -/
theorem finish_map_error {x : Except ErrorCode α} (f : α → State) (h : x = .error e) :
    finish s (x.map f) = .next (takeError e s) := by rw [h]; rfl

/-- Every command's end is one of the two. -/
theorem finish_cases {r : Except ErrorCode State} (h : finish s r = .next t) :
    (∃ s', r = .ok s' ∧ t = commit s') ∨ ∃ e, r = .error e ∧ t = takeError e s := by
  cases r with
  | ok s' => exact .inl ⟨s', rfl, (Host.Outcome.next.inj h).symm⟩
  | error e => exact .inr ⟨e, rfl, (Host.Outcome.next.inj h).symm⟩

/-- The error entry in the terms of `State.failed`. -/
theorem takeError_eq (e : ErrorCode) (s : State) : takeError e s = s.failed e.code := rfl

/-- A command that completes writes STATUS as `State.doneStatus` says, if it left STATUS alone until then. -/
theorem commit_status (h : t.status = s.status) : (commit t).status = s.doneStatus := by
  change { t.status with ecode := ecodeOk } = _
  rw [h]
  rfl

/-- Every code of R271 is between 0x01 and 0x0C. -/
theorem ErrorCode.code_bounds (e : ErrorCode) : 1 ≤ e.code.toNat ∧ e.code.toNat ≤ 0x0C := by cases e <;> decide

end Sys2Proof.Machine
end

