-- ==== Sys2Proof/Laws/PerInstr.lean ====
section
/-! SUPPORT. Statements made of every command, one lemma per constructor. `Fields`: the canonical word of a command holds
its opcode in bits 7:0, its width in bits 13:8 and zeros above (30_encoding.md R91, R97). -/

namespace Sys2Proof.Laws

/-- The three fields of the canonical word of `i`. -/
def Fields.Statement (i : Instr) : Prop :=
  i.wellFormed = true → opField (encode i) = i.opcode ∧ widthField (encode i) = i.width ∧ reservedField (encode i) = 0

theorem Fields.nop : Fields.Statement .nop := fun _ => by decide

theorem Fields.winit : Fields.Statement .winit := fun _ => by decide

theorem Fields.wrbits (w : Nat) : Fields.Statement (.wrbits w) := by
  intro h
  have hw : w < 64 := by simpa [Instr.wellFormed] using h
  have e : (encode (.wrbits w)).toNat = w * 2 ^ 8 + 0x11 := by
    simp only [encode, Instr.width, Instr.opcode, BitVec.toNat_ofNat]; omega
  unfold opField widthField reservedField
  rw [e]
  refine ⟨?_, ?_, ?_⟩
  · change _ = (0x11 : Nat); omega
  · change _ = w; omega
  · omega

theorem Fields.wrbool : Fields.Statement .wrbool := fun _ => by decide

theorem Fields.flush : Fields.Statement .flush := fun _ => by decide

theorem Fields.wrbytes : Fields.Statement .wrbytes := fun _ => by decide

theorem Fields.rinit : Fields.Statement .rinit := fun _ => by decide

theorem Fields.rdbits (w : Nat) : Fields.Statement (.rdbits w) := by
  intro h
  have hw : w < 64 := by simpa [Instr.wellFormed] using h
  have e : (encode (.rdbits w)).toNat = w * 2 ^ 8 + 0x21 := by
    simp only [encode, Instr.width, Instr.opcode, BitVec.toNat_ofNat]; omega
  unfold opField widthField reservedField
  rw [e]
  refine ⟨?_, ?_, ?_⟩
  · change _ = (0x21 : Nat); omega
  · change _ = w; omega
  · omega

theorem Fields.rdbool : Fields.Statement .rdbool := fun _ => by decide

theorem Fields.rdbytes : Fields.Statement .rdbytes := fun _ => by decide

theorem Fields.venc : Fields.Statement .venc := fun _ => by decide

theorem Fields.vdec : Fields.Statement .vdec := fun _ => by decide

theorem Fields.svenc : Fields.Statement .svenc := fun _ => by decide

theorem Fields.svdec : Fields.Statement .svdec := fun _ => by decide

theorem Fields.zzenc32 : Fields.Statement .zzenc32 := fun _ => by decide

theorem Fields.zzdec32 : Fields.Statement .zzdec32 := fun _ => by decide

theorem Fields.zzenc64 : Fields.Statement .zzenc64 := fun _ => by decide

theorem Fields.zzdec64 : Fields.Statement .zzdec64 := fun _ => by decide

theorem Fields.bitsreq : Fields.Statement .bitsreq := fun _ => by decide

theorem Fields.strenc : Fields.Statement .strenc := fun _ => by decide

theorem Fields.strdec : Fields.Statement .strdec := fun _ => by decide

theorem Fields.recenc : Fields.Statement .recenc := fun _ => by decide

theorem Fields.recdec : Fields.Statement .recdec := fun _ => by decide

theorem Fields.mktag : Fields.Statement .mktag := fun _ => by decide

theorem Fields.ptag : Fields.Statement .ptag := fun _ => by decide

theorem Fields.twenc : Fields.Statement .twenc := fun _ => by decide

theorem Fields.twdec : Fields.Statement .twdec := fun _ => by decide

end Sys2Proof.Laws
end

