-- ==== Sys2Proof/Laws/State.lean ====
section
/-! SUPPORT. Each named update of State, field by field. -/

namespace Sys2Proof.Machine

section
variable (v : Word) (s : State)
@[simp] theorem State.setCmd_cfg : (s.setCmd v).cfg = s.cfg := rfl
@[simp] theorem State.setCmd_cmd : (s.setCmd v).cmd = v := rfl
@[simp] theorem State.setCmd_status : (s.setCmd v).status = s.status := rfl
@[simp] theorem State.setCmd_arg0 : (s.setCmd v).arg0 = s.arg0 := rfl
@[simp] theorem State.setCmd_arg1 : (s.setCmd v).arg1 = s.arg1 := rfl
@[simp] theorem State.setCmd_res0 : (s.setCmd v).res0 = s.res0 := rfl
@[simp] theorem State.setCmd_res1 : (s.setCmd v).res1 = s.res1 := rfl
@[simp] theorem State.setCmd_writer : (s.setCmd v).writer = s.writer := rfl
@[simp] theorem State.setCmd_reader : (s.setCmd v).reader = s.reader := rfl
@[simp] theorem State.setCmd_f : (s.setCmd v).f = s.f := rfl
@[simp] theorem State.setCmd_rbuf : (s.setCmd v).rbuf = s.rbuf := rfl
@[simp] theorem State.setCmd_xbuf : (s.setCmd v).xbuf = s.xbuf := rfl
@[simp] theorem State.setCmd_hostQueue : (s.setCmd v).hostQueue = s.hostQueue := rfl
@[simp] theorem State.setCmd_hostReads : (s.setCmd v).hostReads = s.hostReads := rfl
@[simp] theorem State.setCmd_resetDraw : (s.setCmd v).resetDraw = s.resetDraw := rfl
@[simp] theorem State.setCmd_tailDraw : (s.setCmd v).tailDraw = s.tailDraw := rfl
end

section
variable (v : Status) (s : State)
@[simp] theorem State.setStatus_cfg : (s.setStatus v).cfg = s.cfg := rfl
@[simp] theorem State.setStatus_cmd : (s.setStatus v).cmd = s.cmd := rfl
@[simp] theorem State.setStatus_status : (s.setStatus v).status = v := rfl
@[simp] theorem State.setStatus_arg0 : (s.setStatus v).arg0 = s.arg0 := rfl
@[simp] theorem State.setStatus_arg1 : (s.setStatus v).arg1 = s.arg1 := rfl
@[simp] theorem State.setStatus_res0 : (s.setStatus v).res0 = s.res0 := rfl
@[simp] theorem State.setStatus_res1 : (s.setStatus v).res1 = s.res1 := rfl
@[simp] theorem State.setStatus_writer : (s.setStatus v).writer = s.writer := rfl
@[simp] theorem State.setStatus_reader : (s.setStatus v).reader = s.reader := rfl
@[simp] theorem State.setStatus_f : (s.setStatus v).f = s.f := rfl
@[simp] theorem State.setStatus_rbuf : (s.setStatus v).rbuf = s.rbuf := rfl
@[simp] theorem State.setStatus_xbuf : (s.setStatus v).xbuf = s.xbuf := rfl
@[simp] theorem State.setStatus_hostQueue : (s.setStatus v).hostQueue = s.hostQueue := rfl
@[simp] theorem State.setStatus_hostReads : (s.setStatus v).hostReads = s.hostReads := rfl
@[simp] theorem State.setStatus_resetDraw : (s.setStatus v).resetDraw = s.resetDraw := rfl
@[simp] theorem State.setStatus_tailDraw : (s.setStatus v).tailDraw = s.tailDraw := rfl
end

section
variable (v : Word) (s : State)
@[simp] theorem State.setArg0_cfg : (s.setArg0 v).cfg = s.cfg := rfl
@[simp] theorem State.setArg0_cmd : (s.setArg0 v).cmd = s.cmd := rfl
@[simp] theorem State.setArg0_status : (s.setArg0 v).status = s.status := rfl
@[simp] theorem State.setArg0_arg0 : (s.setArg0 v).arg0 = v := rfl
@[simp] theorem State.setArg0_arg1 : (s.setArg0 v).arg1 = s.arg1 := rfl
@[simp] theorem State.setArg0_res0 : (s.setArg0 v).res0 = s.res0 := rfl
@[simp] theorem State.setArg0_res1 : (s.setArg0 v).res1 = s.res1 := rfl
@[simp] theorem State.setArg0_writer : (s.setArg0 v).writer = s.writer := rfl
@[simp] theorem State.setArg0_reader : (s.setArg0 v).reader = s.reader := rfl
@[simp] theorem State.setArg0_f : (s.setArg0 v).f = s.f := rfl
@[simp] theorem State.setArg0_rbuf : (s.setArg0 v).rbuf = s.rbuf := rfl
@[simp] theorem State.setArg0_xbuf : (s.setArg0 v).xbuf = s.xbuf := rfl
@[simp] theorem State.setArg0_hostQueue : (s.setArg0 v).hostQueue = s.hostQueue := rfl
@[simp] theorem State.setArg0_hostReads : (s.setArg0 v).hostReads = s.hostReads := rfl
@[simp] theorem State.setArg0_resetDraw : (s.setArg0 v).resetDraw = s.resetDraw := rfl
@[simp] theorem State.setArg0_tailDraw : (s.setArg0 v).tailDraw = s.tailDraw := rfl
end

section
variable (v : Word) (s : State)
@[simp] theorem State.setArg1_cfg : (s.setArg1 v).cfg = s.cfg := rfl
@[simp] theorem State.setArg1_cmd : (s.setArg1 v).cmd = s.cmd := rfl
@[simp] theorem State.setArg1_status : (s.setArg1 v).status = s.status := rfl
@[simp] theorem State.setArg1_arg0 : (s.setArg1 v).arg0 = s.arg0 := rfl
@[simp] theorem State.setArg1_arg1 : (s.setArg1 v).arg1 = v := rfl
@[simp] theorem State.setArg1_res0 : (s.setArg1 v).res0 = s.res0 := rfl
@[simp] theorem State.setArg1_res1 : (s.setArg1 v).res1 = s.res1 := rfl
@[simp] theorem State.setArg1_writer : (s.setArg1 v).writer = s.writer := rfl
@[simp] theorem State.setArg1_reader : (s.setArg1 v).reader = s.reader := rfl
@[simp] theorem State.setArg1_f : (s.setArg1 v).f = s.f := rfl
@[simp] theorem State.setArg1_rbuf : (s.setArg1 v).rbuf = s.rbuf := rfl
@[simp] theorem State.setArg1_xbuf : (s.setArg1 v).xbuf = s.xbuf := rfl
@[simp] theorem State.setArg1_hostQueue : (s.setArg1 v).hostQueue = s.hostQueue := rfl
@[simp] theorem State.setArg1_hostReads : (s.setArg1 v).hostReads = s.hostReads := rfl
@[simp] theorem State.setArg1_resetDraw : (s.setArg1 v).resetDraw = s.resetDraw := rfl
@[simp] theorem State.setArg1_tailDraw : (s.setArg1 v).tailDraw = s.tailDraw := rfl
end

section
variable (v : Word) (s : State)
@[simp] theorem State.setRes0_cfg : (s.setRes0 v).cfg = s.cfg := rfl
@[simp] theorem State.setRes0_cmd : (s.setRes0 v).cmd = s.cmd := rfl
@[simp] theorem State.setRes0_status : (s.setRes0 v).status = s.status := rfl
@[simp] theorem State.setRes0_arg0 : (s.setRes0 v).arg0 = s.arg0 := rfl
@[simp] theorem State.setRes0_arg1 : (s.setRes0 v).arg1 = s.arg1 := rfl
@[simp] theorem State.setRes0_res0 : (s.setRes0 v).res0 = v := rfl
@[simp] theorem State.setRes0_res1 : (s.setRes0 v).res1 = s.res1 := rfl
@[simp] theorem State.setRes0_writer : (s.setRes0 v).writer = s.writer := rfl
@[simp] theorem State.setRes0_reader : (s.setRes0 v).reader = s.reader := rfl
@[simp] theorem State.setRes0_f : (s.setRes0 v).f = s.f := rfl
@[simp] theorem State.setRes0_rbuf : (s.setRes0 v).rbuf = s.rbuf := rfl
@[simp] theorem State.setRes0_xbuf : (s.setRes0 v).xbuf = s.xbuf := rfl
@[simp] theorem State.setRes0_hostQueue : (s.setRes0 v).hostQueue = s.hostQueue := rfl
@[simp] theorem State.setRes0_hostReads : (s.setRes0 v).hostReads = s.hostReads := rfl
@[simp] theorem State.setRes0_resetDraw : (s.setRes0 v).resetDraw = s.resetDraw := rfl
@[simp] theorem State.setRes0_tailDraw : (s.setRes0 v).tailDraw = s.tailDraw := rfl
end

section
variable (v : Word) (s : State)
@[simp] theorem State.setRes1_cfg : (s.setRes1 v).cfg = s.cfg := rfl
@[simp] theorem State.setRes1_cmd : (s.setRes1 v).cmd = s.cmd := rfl
@[simp] theorem State.setRes1_status : (s.setRes1 v).status = s.status := rfl
@[simp] theorem State.setRes1_arg0 : (s.setRes1 v).arg0 = s.arg0 := rfl
@[simp] theorem State.setRes1_arg1 : (s.setRes1 v).arg1 = s.arg1 := rfl
@[simp] theorem State.setRes1_res0 : (s.setRes1 v).res0 = s.res0 := rfl
@[simp] theorem State.setRes1_res1 : (s.setRes1 v).res1 = v := rfl
@[simp] theorem State.setRes1_writer : (s.setRes1 v).writer = s.writer := rfl
@[simp] theorem State.setRes1_reader : (s.setRes1 v).reader = s.reader := rfl
@[simp] theorem State.setRes1_f : (s.setRes1 v).f = s.f := rfl
@[simp] theorem State.setRes1_rbuf : (s.setRes1 v).rbuf = s.rbuf := rfl
@[simp] theorem State.setRes1_xbuf : (s.setRes1 v).xbuf = s.xbuf := rfl
@[simp] theorem State.setRes1_hostQueue : (s.setRes1 v).hostQueue = s.hostQueue := rfl
@[simp] theorem State.setRes1_hostReads : (s.setRes1 v).hostReads = s.hostReads := rfl
@[simp] theorem State.setRes1_resetDraw : (s.setRes1 v).resetDraw = s.resetDraw := rfl
@[simp] theorem State.setRes1_tailDraw : (s.setRes1 v).tailDraw = s.tailDraw := rfl
end

section
variable (v : Writer) (s : State)
@[simp] theorem State.setWriter_cfg : (s.setWriter v).cfg = s.cfg := rfl
@[simp] theorem State.setWriter_cmd : (s.setWriter v).cmd = s.cmd := rfl
@[simp] theorem State.setWriter_status : (s.setWriter v).status = s.status := rfl
@[simp] theorem State.setWriter_arg0 : (s.setWriter v).arg0 = s.arg0 := rfl
@[simp] theorem State.setWriter_arg1 : (s.setWriter v).arg1 = s.arg1 := rfl
@[simp] theorem State.setWriter_res0 : (s.setWriter v).res0 = s.res0 := rfl
@[simp] theorem State.setWriter_res1 : (s.setWriter v).res1 = s.res1 := rfl
@[simp] theorem State.setWriter_writer : (s.setWriter v).writer = v := rfl
@[simp] theorem State.setWriter_reader : (s.setWriter v).reader = s.reader := rfl
@[simp] theorem State.setWriter_f : (s.setWriter v).f = s.f := rfl
@[simp] theorem State.setWriter_rbuf : (s.setWriter v).rbuf = s.rbuf := rfl
@[simp] theorem State.setWriter_xbuf : (s.setWriter v).xbuf = s.xbuf := rfl
@[simp] theorem State.setWriter_hostQueue : (s.setWriter v).hostQueue = s.hostQueue := rfl
@[simp] theorem State.setWriter_hostReads : (s.setWriter v).hostReads = s.hostReads := rfl
@[simp] theorem State.setWriter_resetDraw : (s.setWriter v).resetDraw = s.resetDraw := rfl
@[simp] theorem State.setWriter_tailDraw : (s.setWriter v).tailDraw = s.tailDraw := rfl
end

section
variable (v : Reader) (s : State)
@[simp] theorem State.setReader_cfg : (s.setReader v).cfg = s.cfg := rfl
@[simp] theorem State.setReader_cmd : (s.setReader v).cmd = s.cmd := rfl
@[simp] theorem State.setReader_status : (s.setReader v).status = s.status := rfl
@[simp] theorem State.setReader_arg0 : (s.setReader v).arg0 = s.arg0 := rfl
@[simp] theorem State.setReader_arg1 : (s.setReader v).arg1 = s.arg1 := rfl
@[simp] theorem State.setReader_res0 : (s.setReader v).res0 = s.res0 := rfl
@[simp] theorem State.setReader_res1 : (s.setReader v).res1 = s.res1 := rfl
@[simp] theorem State.setReader_writer : (s.setReader v).writer = s.writer := rfl
@[simp] theorem State.setReader_reader : (s.setReader v).reader = v := rfl
@[simp] theorem State.setReader_f : (s.setReader v).f = s.f := rfl
@[simp] theorem State.setReader_rbuf : (s.setReader v).rbuf = s.rbuf := rfl
@[simp] theorem State.setReader_xbuf : (s.setReader v).xbuf = s.xbuf := rfl
@[simp] theorem State.setReader_hostQueue : (s.setReader v).hostQueue = s.hostQueue := rfl
@[simp] theorem State.setReader_hostReads : (s.setReader v).hostReads = s.hostReads := rfl
@[simp] theorem State.setReader_resetDraw : (s.setReader v).resetDraw = s.resetDraw := rfl
@[simp] theorem State.setReader_tailDraw : (s.setReader v).tailDraw = s.tailDraw := rfl
end

section
variable (v : FRegs) (s : State)
@[simp] theorem State.setF_cfg : (s.setF v).cfg = s.cfg := rfl
@[simp] theorem State.setF_cmd : (s.setF v).cmd = s.cmd := rfl
@[simp] theorem State.setF_status : (s.setF v).status = s.status := rfl
@[simp] theorem State.setF_arg0 : (s.setF v).arg0 = s.arg0 := rfl
@[simp] theorem State.setF_arg1 : (s.setF v).arg1 = s.arg1 := rfl
@[simp] theorem State.setF_res0 : (s.setF v).res0 = s.res0 := rfl
@[simp] theorem State.setF_res1 : (s.setF v).res1 = s.res1 := rfl
@[simp] theorem State.setF_writer : (s.setF v).writer = s.writer := rfl
@[simp] theorem State.setF_reader : (s.setF v).reader = s.reader := rfl
@[simp] theorem State.setF_f : (s.setF v).f = v := rfl
@[simp] theorem State.setF_rbuf : (s.setF v).rbuf = s.rbuf := rfl
@[simp] theorem State.setF_xbuf : (s.setF v).xbuf = s.xbuf := rfl
@[simp] theorem State.setF_hostQueue : (s.setF v).hostQueue = s.hostQueue := rfl
@[simp] theorem State.setF_hostReads : (s.setF v).hostReads = s.hostReads := rfl
@[simp] theorem State.setF_resetDraw : (s.setF v).resetDraw = s.resetDraw := rfl
@[simp] theorem State.setF_tailDraw : (s.setF v).tailDraw = s.tailDraw := rfl
end

section
variable (v : Memory) (s : State)
@[simp] theorem State.setRbuf_cfg : (s.setRbuf v).cfg = s.cfg := rfl
@[simp] theorem State.setRbuf_cmd : (s.setRbuf v).cmd = s.cmd := rfl
@[simp] theorem State.setRbuf_status : (s.setRbuf v).status = s.status := rfl
@[simp] theorem State.setRbuf_arg0 : (s.setRbuf v).arg0 = s.arg0 := rfl
@[simp] theorem State.setRbuf_arg1 : (s.setRbuf v).arg1 = s.arg1 := rfl
@[simp] theorem State.setRbuf_res0 : (s.setRbuf v).res0 = s.res0 := rfl
@[simp] theorem State.setRbuf_res1 : (s.setRbuf v).res1 = s.res1 := rfl
@[simp] theorem State.setRbuf_writer : (s.setRbuf v).writer = s.writer := rfl
@[simp] theorem State.setRbuf_reader : (s.setRbuf v).reader = s.reader := rfl
@[simp] theorem State.setRbuf_f : (s.setRbuf v).f = s.f := rfl
@[simp] theorem State.setRbuf_rbuf : (s.setRbuf v).rbuf = v := rfl
@[simp] theorem State.setRbuf_xbuf : (s.setRbuf v).xbuf = s.xbuf := rfl
@[simp] theorem State.setRbuf_hostQueue : (s.setRbuf v).hostQueue = s.hostQueue := rfl
@[simp] theorem State.setRbuf_hostReads : (s.setRbuf v).hostReads = s.hostReads := rfl
@[simp] theorem State.setRbuf_resetDraw : (s.setRbuf v).resetDraw = s.resetDraw := rfl
@[simp] theorem State.setRbuf_tailDraw : (s.setRbuf v).tailDraw = s.tailDraw := rfl
end

section
variable (v : Memory) (s : State)
@[simp] theorem State.setXbuf_cfg : (s.setXbuf v).cfg = s.cfg := rfl
@[simp] theorem State.setXbuf_cmd : (s.setXbuf v).cmd = s.cmd := rfl
@[simp] theorem State.setXbuf_status : (s.setXbuf v).status = s.status := rfl
@[simp] theorem State.setXbuf_arg0 : (s.setXbuf v).arg0 = s.arg0 := rfl
@[simp] theorem State.setXbuf_arg1 : (s.setXbuf v).arg1 = s.arg1 := rfl
@[simp] theorem State.setXbuf_res0 : (s.setXbuf v).res0 = s.res0 := rfl
@[simp] theorem State.setXbuf_res1 : (s.setXbuf v).res1 = s.res1 := rfl
@[simp] theorem State.setXbuf_writer : (s.setXbuf v).writer = s.writer := rfl
@[simp] theorem State.setXbuf_reader : (s.setXbuf v).reader = s.reader := rfl
@[simp] theorem State.setXbuf_f : (s.setXbuf v).f = s.f := rfl
@[simp] theorem State.setXbuf_rbuf : (s.setXbuf v).rbuf = s.rbuf := rfl
@[simp] theorem State.setXbuf_xbuf : (s.setXbuf v).xbuf = v := rfl
@[simp] theorem State.setXbuf_hostQueue : (s.setXbuf v).hostQueue = s.hostQueue := rfl
@[simp] theorem State.setXbuf_hostReads : (s.setXbuf v).hostReads = s.hostReads := rfl
@[simp] theorem State.setXbuf_resetDraw : (s.setXbuf v).resetDraw = s.resetDraw := rfl
@[simp] theorem State.setXbuf_tailDraw : (s.setXbuf v).tailDraw = s.tailDraw := rfl
end

section
variable (v : List HostAccess) (s : State)
@[simp] theorem State.setHostQueue_cfg : (s.setHostQueue v).cfg = s.cfg := rfl
@[simp] theorem State.setHostQueue_cmd : (s.setHostQueue v).cmd = s.cmd := rfl
@[simp] theorem State.setHostQueue_status : (s.setHostQueue v).status = s.status := rfl
@[simp] theorem State.setHostQueue_arg0 : (s.setHostQueue v).arg0 = s.arg0 := rfl
@[simp] theorem State.setHostQueue_arg1 : (s.setHostQueue v).arg1 = s.arg1 := rfl
@[simp] theorem State.setHostQueue_res0 : (s.setHostQueue v).res0 = s.res0 := rfl
@[simp] theorem State.setHostQueue_res1 : (s.setHostQueue v).res1 = s.res1 := rfl
@[simp] theorem State.setHostQueue_writer : (s.setHostQueue v).writer = s.writer := rfl
@[simp] theorem State.setHostQueue_reader : (s.setHostQueue v).reader = s.reader := rfl
@[simp] theorem State.setHostQueue_f : (s.setHostQueue v).f = s.f := rfl
@[simp] theorem State.setHostQueue_rbuf : (s.setHostQueue v).rbuf = s.rbuf := rfl
@[simp] theorem State.setHostQueue_xbuf : (s.setHostQueue v).xbuf = s.xbuf := rfl
@[simp] theorem State.setHostQueue_hostQueue : (s.setHostQueue v).hostQueue = v := rfl
@[simp] theorem State.setHostQueue_hostReads : (s.setHostQueue v).hostReads = s.hostReads := rfl
@[simp] theorem State.setHostQueue_resetDraw : (s.setHostQueue v).resetDraw = s.resetDraw := rfl
@[simp] theorem State.setHostQueue_tailDraw : (s.setHostQueue v).tailDraw = s.tailDraw := rfl
end

section
variable (v : List Word) (s : State)
@[simp] theorem State.setHostReads_cfg : (s.setHostReads v).cfg = s.cfg := rfl
@[simp] theorem State.setHostReads_cmd : (s.setHostReads v).cmd = s.cmd := rfl
@[simp] theorem State.setHostReads_status : (s.setHostReads v).status = s.status := rfl
@[simp] theorem State.setHostReads_arg0 : (s.setHostReads v).arg0 = s.arg0 := rfl
@[simp] theorem State.setHostReads_arg1 : (s.setHostReads v).arg1 = s.arg1 := rfl
@[simp] theorem State.setHostReads_res0 : (s.setHostReads v).res0 = s.res0 := rfl
@[simp] theorem State.setHostReads_res1 : (s.setHostReads v).res1 = s.res1 := rfl
@[simp] theorem State.setHostReads_writer : (s.setHostReads v).writer = s.writer := rfl
@[simp] theorem State.setHostReads_reader : (s.setHostReads v).reader = s.reader := rfl
@[simp] theorem State.setHostReads_f : (s.setHostReads v).f = s.f := rfl
@[simp] theorem State.setHostReads_rbuf : (s.setHostReads v).rbuf = s.rbuf := rfl
@[simp] theorem State.setHostReads_xbuf : (s.setHostReads v).xbuf = s.xbuf := rfl
@[simp] theorem State.setHostReads_hostQueue : (s.setHostReads v).hostQueue = s.hostQueue := rfl
@[simp] theorem State.setHostReads_hostReads : (s.setHostReads v).hostReads = v := rfl
@[simp] theorem State.setHostReads_resetDraw : (s.setHostReads v).resetDraw = s.resetDraw := rfl
@[simp] theorem State.setHostReads_tailDraw : (s.setHostReads v).tailDraw = s.tailDraw := rfl
end

section
variable (v : Nat) (s : State)
@[simp] theorem State.setTailDraw_cfg : (s.setTailDraw v).cfg = s.cfg := rfl
@[simp] theorem State.setTailDraw_cmd : (s.setTailDraw v).cmd = s.cmd := rfl
@[simp] theorem State.setTailDraw_status : (s.setTailDraw v).status = s.status := rfl
@[simp] theorem State.setTailDraw_arg0 : (s.setTailDraw v).arg0 = s.arg0 := rfl
@[simp] theorem State.setTailDraw_arg1 : (s.setTailDraw v).arg1 = s.arg1 := rfl
@[simp] theorem State.setTailDraw_res0 : (s.setTailDraw v).res0 = s.res0 := rfl
@[simp] theorem State.setTailDraw_res1 : (s.setTailDraw v).res1 = s.res1 := rfl
@[simp] theorem State.setTailDraw_writer : (s.setTailDraw v).writer = s.writer := rfl
@[simp] theorem State.setTailDraw_reader : (s.setTailDraw v).reader = s.reader := rfl
@[simp] theorem State.setTailDraw_f : (s.setTailDraw v).f = s.f := rfl
@[simp] theorem State.setTailDraw_rbuf : (s.setTailDraw v).rbuf = s.rbuf := rfl
@[simp] theorem State.setTailDraw_xbuf : (s.setTailDraw v).xbuf = s.xbuf := rfl
@[simp] theorem State.setTailDraw_hostQueue : (s.setTailDraw v).hostQueue = s.hostQueue := rfl
@[simp] theorem State.setTailDraw_hostReads : (s.setTailDraw v).hostReads = s.hostReads := rfl
@[simp] theorem State.setTailDraw_resetDraw : (s.setTailDraw v).resetDraw = s.resetDraw := rfl
@[simp] theorem State.setTailDraw_tailDraw : (s.setTailDraw v).tailDraw = v := rfl
end

end Sys2Proof.Machine
end

