-- ==== Sys2Proof/Laws/Port.lean ====
section
/-! SUPPORT. What the host port does with one access, said once: which address is which place, and what a step does with
the access it serves. -/

namespace Sys2Proof.Machine

/-! Addresses. -/

/-- The offset of `base + o` is `o` (R75). -/
theorem hostOffset_base (c : Config) {o : Nat} (ho : o < 2 ^ 32) : hostOffset c (c.base + BitVec.ofNat 32 o) = o := by
  unfold hostOffset
  rw [BitVec.add_comm, BitVec.add_sub_cancel, BitVec.toNat_ofNat, Nat.mod_eq_of_lt ho]

theorem hostOffset_zero (c : Config) : hostOffset c c.base = 0 := by
  unfold hostOffset
  rw [BitVec.sub_self]
  rfl

/-- The register addresses are the multiples of 4 in two ranges (R21, R75). -/
theorem Reg.ofOffset_isSome {o : Nat} (h4 : o % 4 = 0) :
    (Reg.ofOffset o).isSome = true ↔ o < 0x040 ∨ (0x080 ≤ o ∧ o < 0x0A0) := by
  by_cases h : o < 0xA0
  · interval_cases o <;> simp_all [Reg.ofOffset]
  · unfold Reg.ofOffset
    split <;> first | omega | (simp; omega)

/-- A window byte below its buffer's capacity (R62). -/
theorem placeAt_wbuf {c : Config} {i : Nat} (hc : c.wcap ≤ 65536) (hi : i < c.wcap) :
    placeAt c (0x10000 + i) = .byte .wbuf i := by
  rw [placeAt, if_neg (by unfold windowSize; omega), windowAt,
    show (0x10000 + i) / windowSize = 1 by unfold windowSize; omega,
    show (0x10000 + i) % windowSize = i by unfold windowSize; omega]
  exact if_pos hi

theorem placeAt_rbuf {c : Config} {i : Nat} (hc : c.rcap ≤ 65536) (hi : i < c.rcap) :
    placeAt c (0x20000 + i) = .byte .rbuf i := by
  rw [placeAt, if_neg (by unfold windowSize; omega), windowAt,
    show (0x20000 + i) / windowSize = 2 by unfold windowSize; omega,
    show (0x20000 + i) % windowSize = i by unfold windowSize; omega]
  exact if_pos hi

theorem placeAt_xbuf {c : Config} {i : Nat} (hc : c.xcap ≤ 65536) (hi : i < c.xcap) :
    placeAt c (0x30000 + i) = .byte .xbuf i := by
  rw [placeAt, if_neg (by unfold windowSize; omega), windowAt,
    show (0x30000 + i) / windowSize = 3 by unfold windowSize; omega,
    show (0x30000 + i) % windowSize = i by unfold windowSize; omega]
  exact if_pos hi

/-- Where a place stands, for each kind of place (R21, R62, R75). -/
theorem placeAt_cases {c : Config} (hl : c.Legal) (o : Nat) :
    (∃ r, placeAt c o = .reg r ∧ Reg.ofOffset o = some r ∧ o % 4 = 0 ∧ (o < 0x040 ∨ (0x080 ≤ o ∧ o < 0x0A0))) ∨
    (placeAt c o = .byte .wbuf (o - 0x10000) ∧ 0x10000 ≤ o ∧ o < 0x10000 + c.wcap) ∨
    (placeAt c o = .byte .rbuf (o - 0x20000) ∧ 0x20000 ≤ o ∧ o < 0x20000 + c.rcap) ∨
    (placeAt c o = .byte .xbuf (o - 0x30000) ∧ 0x30000 ≤ o ∧ o < 0x30000 + c.xcap) ∨
    ((placeAt c o = .misaligned ∨ placeAt c o = .nothing) ∧
      ¬ (o % 4 = 0 ∧ (o < 0x040 ∨ (0x080 ≤ o ∧ o < 0x0A0))) ∧ ¬ (0x10000 ≤ o ∧ o < 0x10000 + c.wcap) ∧
      ¬ (0x20000 ≤ o ∧ o < 0x20000 + c.rcap) ∧ ¬ (0x30000 ≤ o ∧ o < 0x30000 + c.xcap)) := by
  obtain ⟨⟨-, h1⟩, ⟨-, h2⟩, ⟨-, h3⟩⟩ := hl
  by_cases a1 : 0x10000 ≤ o ∧ o < 0x10000 + c.wcap
  · have := placeAt_wbuf (c := c) (i := o - 0x10000) h1 (by omega)
    rw [show 0x10000 + (o - 0x10000) = o by omega] at this
    exact .inr (.inl ⟨this, a1⟩)
  by_cases a2 : 0x20000 ≤ o ∧ o < 0x20000 + c.rcap
  · have := placeAt_rbuf (c := c) (i := o - 0x20000) h2 (by omega)
    rw [show 0x20000 + (o - 0x20000) = o by omega] at this
    exact .inr (.inr (.inl ⟨this, a2⟩))
  by_cases a3 : 0x30000 ≤ o ∧ o < 0x30000 + c.xcap
  · have := placeAt_xbuf (c := c) (i := o - 0x30000) h3 (by omega)
    rw [show 0x30000 + (o - 0x30000) = o by omega] at this
    exact .inr (.inr (.inr (.inl ⟨this, a3⟩)))
  by_cases ho : o < windowSize
  · rw [placeAt, if_pos ho]
    by_cases h4 : o % 4 = 0
    · rw [if_neg (by omega)]
      have hs := Reg.ofOffset_isSome h4
      cases hr : Reg.ofOffset o with
      | some r =>
        rw [hr] at hs
        exact .inl ⟨r, rfl, rfl, h4, hs.1 rfl⟩
      | none =>
        rw [hr] at hs
        have : ¬ (o < 0x040 ∨ (0x080 ≤ o ∧ o < 0x0A0)) := fun h => by simpa using hs.2 h
        exact .inr (.inr (.inr (.inr ⟨.inr rfl, fun h => this h.2, a1, a2, a3⟩)))
    · rw [if_pos h4]
      exact .inr (.inr (.inr (.inr ⟨.inl rfl, fun h => h4 h.1, a1, a2, a3⟩)))
  · refine .inr (.inr (.inr (.inr ⟨.inr ?_, by unfold windowSize at ho; omega, a1, a2, a3⟩)))
    rw [placeAt, if_neg ho, windowAt]
    unfold windowSize at *
    split
    · rw [if_neg (by omega)]
    · rw [if_neg (by omega)]
    · rw [if_neg (by omega)]
    · rfl

/-! Steps. -/

variable {s : State} {q : List HostAccess}

theorem step_idle (h : s.hostQueue = []) : step s = .next s := by
  rw [step, serveNext, h]

theorem step_cons {a : HostAccess} (h : s.hostQueue = a :: q) : step s = serveAccess a (s.setHostQueue q) := by
  rw [step, serveNext, h]

/-- A step that serves a 32-bit write to CMD runs a command cycle (R120). -/
theorem step_cmd {c : Word} (h : s.hostQueue = .write 32 s.cfg.base c :: q) :
    step s = commandCycle c (s.setHostQueue q) := by
  rw [step_cons h, serveAccess, portAccess, portWrite, State.setHostQueue_cfg, hostOffset_zero]
  rfl

/-- A step that serves a read at the offset `o`. -/
theorem step_read {bits : Nat} {addr : Word} (h : s.hostQueue = .read bits addr :: q) :
    step s =
      match placeAt s.cfg (hostOffset s.cfg addr) with
      | .reg r =>
        if bits = 32 then .next { s with hostQueue := q, hostReads := s.hostReads ++ [readReg r s] }
        else .fault .busWidth
      | .byte b i =>
        if bits = 8 then .next { s with hostQueue := q, hostReads := s.hostReads ++ [(windowByte b i s).setWidth 32] }
        else .fault .busWidth
      | .misaligned => .fault .busMisaligned
      | .nothing => .fault .busUnmapped := by
  rw [step_cons h, serveAccess, portAccess, portRead, State.setHostQueue_cfg]
  cases placeAt s.cfg (hostOffset s.cfg addr) with
  | reg r =>
    by_cases hb : bits = 32
    · subst hb; cases r <;> rfl
    · simp only [if_neg hb]
  | byte b i =>
    by_cases hb : bits = 8
    · subst hb; cases b <;> rfl
    · simp only [if_neg hb]
  | misaligned => rfl
  | nothing => rfl

/-- A step that serves a write to a register other than CMD. -/
theorem step_write_reg {o : Nat} {r : Reg} {v : Word} (hr : placeAt s.cfg o = .reg r) (hc : r ≠ .cmd) (ho : o < 2 ^ 32)
    (h : s.hostQueue = .write 32 (s.cfg.base + BitVec.ofNat 32 o) v :: q) :
    step s = .next (writeReg r v (s.setHostQueue q)) := by
  rw [step_cons h, serveAccess, portAccess, portWrite, State.setHostQueue_cfg, hostOffset_base _ ho, hr]
  cases r <;> first | exact absurd rfl hc | rfl

end Sys2Proof.Machine
end

