-- ==== Sys2Proof/Laws/Reader.lean ====
section
/-! SUPPORT. What the reader's micro-operations do, said once: take removes the first unread bits, ralign and takeraw
move to a byte boundary, and each keeps the reader's invariant. -/

namespace Sys2Proof.Machine

section pull
variable {rd : Nat → Byte} {r : Reader}

/-- One pull moves a byte of RBUF into RACC: the unread bit sequence stays. -/
theorem Reader.pullByte_spec (hc : r.len.toNat ≤ 65536) (ha : r.acc.toNat < 2 ^ r.cnt.toNat) (hn : r.cnt.toNat + 8 ≤ 64)
    (hl : r.cur.toNat < r.len.toNat) :
    (r.pullByte rd).cur.toNat = r.cur.toNat + 1 ∧ (r.pullByte rd).cnt.toNat = r.cnt.toNat + 8 ∧
    (r.pullByte rd).acc.toNat < 2 ^ (r.cnt.toNat + 8) ∧ (∀ k, (r.pullByte rd).bit rd k = r.bit rd k) := by
  have h1 : (r.pullByte rd).cur.toNat = r.cur.toNat + 1 := by
    simp only [Reader.pullByte, BitVec.toNat_add]
    change (r.cur.toNat + 1) % 2 ^ 32 = _
    omega
  have h2 : (r.pullByte rd).cnt.toNat = r.cnt.toNat + 8 := by
    simp only [Reader.pullByte, BitVec.toNat_add]
    change (r.cnt.toNat + 8) % 2 ^ 32 = _
    omega
  have h3 : ∀ k, (r.pullByte rd).acc.getLsbD k = (r.acc.getLsbD k ||
      (decide (r.cnt.toNat ≤ k) && (rd r.cur.toNat).getLsbD (k - r.cnt.toNat))) := by
    intro k
    simp only [Reader.pullByte, BitVec.getLsbD_or, BitVec.getLsbD_shiftLeft, BitVec.getLsbD_setWidth]
    by_cases hk : r.cnt.toNat ≤ k
    · by_cases h64 : k < 64
      · simp [show ¬ k < r.cnt.toNat by omega, h64, show k - r.cnt.toNat < 64 by omega, hk]
      · have : (rd r.cur.toNat).getLsbD (k - r.cnt.toNat) = false := BitVec.getLsbD_of_ge _ _ (by omega)
        simp [this]
    · simp [show k < r.cnt.toNat by omega, hk]
  refine ⟨h1, h2, ?_, ?_⟩
  · refine toNat_lt_of_getLsbD fun k hk => ?_
    rw [h3, getLsbD_of_toNat_lt ha (by omega), BitVec.getLsbD_of_ge (rd r.cur.toNat) _ (by omega)]
    simp
  · intro k
    unfold Reader.bit
    rw [h1, h2, h3]
    by_cases hk : k < r.cnt.toNat
    · simp [hk, show k < r.cnt.toNat + 8 by omega, show ¬ r.cnt.toNat ≤ k by omega]
    · by_cases hk8 : k < r.cnt.toNat + 8
      · rw [if_pos hk8, if_neg hk, getLsbD_of_toNat_lt ha (by omega), show (k - r.cnt.toNat) / 8 = 0 by omega,
          show (k - r.cnt.toNat) % 8 = k - r.cnt.toNat by omega]
        simp [show r.cnt.toNat ≤ k by omega]
      · rw [if_neg hk8, if_neg hk]
        rw [show r.cur.toNat + 1 + (k - (r.cnt.toNat + 8)) / 8 = r.cur.toNat + (k - r.cnt.toNat) / 8 by omega,
          show (k - (r.cnt.toNat + 8)) % 8 = (k - r.cnt.toNat) % 8 by omega]

/-- What the pull loop does. -/
theorem Reader.pull_spec (hc : r.len.toNat ≤ 65536) (j : Nat) (ha : r.acc.toNat < 2 ^ r.cnt.toNat)
    (hn : r.cnt.toNat + 8 * j ≤ 64) (hl : r.cur.toNat + j ≤ r.len.toNat) :
    (Reader.pull rd j r).cur.toNat = r.cur.toNat + j ∧ (Reader.pull rd j r).cnt.toNat = r.cnt.toNat + 8 * j ∧
    (Reader.pull rd j r).acc.toNat < 2 ^ (r.cnt.toNat + 8 * j) ∧ (Reader.pull rd j r).len = r.len ∧
    (Reader.pull rd j r).total = r.total ∧ (∀ k, (Reader.pull rd j r).bit rd k = r.bit rd k) := by
  induction j generalizing r with
  | zero => exact ⟨rfl, rfl, ha, rfl, rfl, fun _ => rfl⟩
  | succ j ih =>
    obtain ⟨p1, p2, p3, p4⟩ := Reader.pullByte_spec (rd := rd) hc ha (by omega) (by omega)
    have hlen : (r.pullByte rd).len = r.len := rfl
    obtain ⟨i1, i2, i3, i4, i5, i6⟩ := ih (r := r.pullByte rd) hc (by rw [p2]; exact p3) (by omega) (by rw [hlen]; omega)
    refine ⟨?_, ?_, ?_, i4, i5, fun k => by rw [← p4 k]; exact i6 k⟩
    · simp only [Reader.pull]; omega
    · simp only [Reader.pull]; omega
    · simp only [Reader.pull]
      rw [p2] at i3
      rwa [show r.cnt.toNat + 8 * (j + 1) = r.cnt.toNat + 8 + 8 * j by omega]

end pull

theorem Reader.avail_eq (r : Reader) : r.avail = 8 * (r.len.toNat - r.cur.toNat) + r.cnt.toNat := rfl

/-- take(n) when `n` bits remain (R162): the value is those bits, and they are gone from the unread sequence. -/
theorem Reader.take_ok {rd : Nat → Byte} {cap n : Nat} {r : Reader} (hc : cap ≤ 65536) (h : r.Inv cap) (hn : n ≤ 32)
    (hav : n ≤ r.avail) :
    ∃ v r', r.take rd n = .ok (v, r') ∧ r'.Inv cap ∧ r.Consumes rd r' n ∧
      (∀ j, v.getLsbD j = (decide (j < n) && r.bit rd j)) ∧ r'.total = r.total + BitVec.ofNat 32 n ∧
      r'.cur.toNat = r.cur.toNat + (n - r.cnt.toNat + 7) / 8 := by
  have hcl := h.clean
  have hcur := h.cursor
  have hlen := h.length
  have hcnt := h.partialByte
  rw [Reader.avail_eq] at hav
  have hk : ceil8 (n - r.cnt.toNat) = (n - r.cnt.toNat + 7) / 8 := rfl
  obtain ⟨p1, p2, p3, p4, p5, p6⟩ := Reader.pull_spec (rd := rd) (r := r) (by omega) (ceil8 (n - r.cnt.toNat)) hcl
    (by omega) (by omega)
  generalize hu : Reader.pull rd (ceil8 (n - r.cnt.toNat)) r = u at p1 p2 p3 p4 p5 p6
  rw [hk] at p1 p2 p3
  have hun : (u.drop n).cnt.toNat = u.cnt.toNat - n := by
    simp only [Reader.drop]
    have : (BitVec.ofNat 32 n).toNat = n := by rw [BitVec.toNat_ofNat]; omega
    rw [BitVec.toNat_sub_of_le (by rw [BitVec.le_def, this]; omega), this]
  have hbit : ∀ k, (u.drop n).bit rd k = r.bit rd (n + k) := by
    intro k
    rw [← p6]
    unfold Reader.bit
    rw [hun]
    change (if _ then (u.acc >>> n).getLsbD k else (rd (u.cur.toNat + _)).getLsbD _) = _
    by_cases h1 : k < u.cnt.toNat - n
    · rw [if_pos h1, if_pos (by omega), BitVec.getLsbD_ushiftRight]
    · rw [if_neg h1, if_neg (by omega), show n + k - u.cnt.toNat = k - (u.cnt.toNat - n) by omega]
  refine ⟨(lowBits u.acc n).setWidth 32, u.drop n, ?_, ⟨?_, ?_, ?_, ?_, ?_⟩, ⟨p4, ?_, fun k _ => hbit k⟩, ?_, ?_, p1⟩
  · rw [Reader.take, if_neg (by rw [Reader.avail_eq]; omega), hu]
  · change u.cur.toNat ≤ u.len.toNat
    rw [p1, p4]; omega
  · change u.len.toNat ≤ cap
    rw [p4]; exact hlen
  · rw [hun, p2]; omega
  · rw [hun]
    refine toNat_lt_of_getLsbD fun k hk' => ?_
    change (u.acc >>> n).getLsbD k = false
    rw [BitVec.getLsbD_ushiftRight]
    exact getLsbD_of_toNat_lt p3 (by omega)
  · intro h0
    change 1 ≤ u.cur.toNat
    rw [hun, p2] at h0
    have := h.pulled
    omega
  · rw [Reader.avail_eq, Reader.avail_eq, hun]
    change 8 * (u.len.toNat - u.cur.toNat) + _ + n = _
    rw [p1, p4, p2]; omega
  · intro j
    rw [BitVec.getLsbD_setWidth, lowBits_getLsbD]
    by_cases h1 : j < n
    · have : u.acc.getLsbD j = r.bit rd j := by
        rw [← p6]; unfold Reader.bit; rw [if_pos (by omega)]
      simp only [h1, this, show j < 32 by omega, show j < 64 by omega, decide_true, Bool.true_and]
    · simp [h1]
  · change u.total + _ = _
    rw [p5]

/-- take(n) when fewer than `n` bits remain (R162): UNDERRUN. -/
theorem Reader.take_short {rd : Nat → Byte} {n : Nat} {r : Reader} (h : r.avail < n) :
    r.take rd n = .error .underrun := by
  rw [Reader.take, if_pos h]

/-- Taking no more than is left leaves what follows in place. -/
theorem Reader.Consumes.trans {rd : Nat → Byte} {r r1 r2 : Reader} {n m : Nat} (h1 : r.Consumes rd r1 n)
    (h2 : r1.Consumes rd r2 m) : r.Consumes rd r2 (n + m) where
  length := by rw [h2.length, h1.length]
  count := by have := h1.count; have := h2.count; omega
  rest k hk := by
    have := h2.count
    rw [h2.rest k hk, h1.rest (m + k) (by omega), Nat.add_assoc]

/-- ralign() (R167) keeps the invariant and the cursor. -/
theorem Reader.align_inv {cap : Nat} {r : Reader} (h : r.Inv cap) : r.align.Inv cap :=
  ⟨h.cursor, h.length, by change (0 : Word).toNat ≤ 7; decide, by change (0 : Acc).toNat < 2 ^ (0 : Word).toNat; decide,
    fun h0 => absurd h0 (by change ¬ 0 < (0 : Word).toNat; decide)⟩

/-- Passing `k` bytes that are there keeps the invariant of an aligned reader. -/
theorem Reader.skip_inv {cap k n : Nat} {r : Reader} (hc : cap ≤ 65536) (h : r.Inv cap) (hk : k ≤ r.left)
    (h0 : r.cnt.toNat = 0) : (r.skip k n).Inv cap ∧ (r.skip k n).cur.toNat = r.cur.toNat + k := by
  have := h.cursor
  have := h.length
  unfold Reader.left at hk
  have hcur : (r.skip k n).cur.toNat = r.cur.toNat + k := by
    simp only [Reader.skip, BitVec.toNat_add, BitVec.toNat_ofNat]; omega
  refine ⟨⟨by rw [hcur]; change _ ≤ r.len.toNat; omega, h.length, h.partialByte, h.clean, fun h1 => ?_⟩, hcur⟩
  change 0 < r.cnt.toNat at h1
  omega

/-- takeraw(a, n) when the bytes are there (R169). -/
theorem Reader.takeRaw_ok {rd : Nat → Byte} {a n : Nat} {r : Reader} (xb : Memory) (h : n ≤ r.left) :
    r.takeRaw rd a n xb = .ok (r.align.skip n n, storeBytes xb a (bytesFrom rd r.cur.toNat n)) := by
  exact if_neg (Nat.not_lt.2 h)

/-- takeraw(a, n) when they are not (R169): TRUNC. -/
theorem Reader.takeRaw_short {rd : Nat → Byte} {a n : Nat} {r : Reader} (xb : Memory) (h : r.left < n) :
    r.takeRaw rd a n xb = .error .trunc := by
  exact if_pos h

end Sys2Proof.Machine
end

