-- ==== Sys2Proof/Laws/Varint.lean ====
section
/-! SUPPORT. What the varint codings do, said once: the bytes of varint_enc, and what varint_dec reads from the stream
source and from the region source. -/

namespace Sys2Proof.Machine

/-- A varint byte's contribution to the value, bit by bit: its low seven bits at bit 7i. -/
theorem groupBit (b : Byte) (i j : Nat) (hj : j < 32) :
    ((b &&& 0x7F).setWidth 32 <<< (7 * i)).getLsbD j = (decide (j / 7 = i) && b.getLsbD (j % 7)) := by
  have h7 : ∀ m, (0x7F : Byte).getLsbD m = decide (m < 7) := by
    intro m
    by_cases h : m < 8
    · interval_cases m <;> decide
    · rw [BitVec.getLsbD_of_ge _ _ (by omega)]; simp; omega
  simp only [BitVec.getLsbD_shiftLeft, BitVec.getLsbD_setWidth, BitVec.getLsbD_and, h7, hj, decide_true,
    Bool.true_and]
  by_cases h : j / 7 = i
  · rw [show j - 7 * i = j % 7 by omega]
    simp [h, show ¬ j < 7 * i by omega, show j % 7 < 32 by omega, show j % 7 < 7 by omega]
  · by_cases h1 : j < 7 * i
    · simp [h, h1]
    · simp [h, show ¬ j - 7 * i < 7 by omega]

/-! The stream source. -/

theorem streamNext_ok {rd : Nat → Byte} {cap : Nat} {r : Reader} (hc : cap ≤ 65536) (h : r.Inv cap) (h8 : 8 ≤ r.avail) :
    ∃ b r', streamNext rd r = some (b, r') ∧ r'.Inv cap ∧ r.Consumes rd r' 8 ∧
      (∀ j, j < 8 → b.getLsbD j = r.bit rd j) ∧ r'.total = r.total + 8 ∧ r'.cur.toNat = r.cur.toNat + 1 ∧
      r'.cnt.toNat = r.cnt.toNat := by
  obtain ⟨v, r', t1, t2, t3, t4, t5, t6⟩ := Reader.take_ok (rd := rd) (n := 8) hc h (by omega) h8
  refine ⟨v.setWidth 8, r', ?_, t2, t3, ?_, t5, ?_, ?_⟩
  · rw [streamNext, if_neg (Nat.not_lt.2 h8), t1]
  · intro j hj
    rw [BitVec.getLsbD_setWidth, t4]
    simp [hj]
  · have := h.partialByte; omega
  · have e := t3.count
    have := h.partialByte
    have := t2.partialByte
    rw [Reader.avail_eq, Reader.avail_eq, t3.length] at e
    rw [Reader.avail_eq] at h8
    omega

theorem streamNext_short {rd : Nat → Byte} {r : Reader} (h : r.avail < 8) : streamNext rd r = none := by
  rw [streamNext, if_pos h]

section loop
variable {rd : Nat → Byte} {cap : Nat}

theorem varintDecLoop_ok (hc : cap ≤ 65536) (f i n : Nat) (acc : Word) {r : Reader} (h : r.Inv cap) (hn : 1 ≤ n ∧ n ≤ f)
    (hp : 8 * n ≤ r.avail) (hm : ∀ k, k + 1 < n → r.bit rd (8 * k + 7) = true)
    (hl : r.bit rd (8 * (n - 1) + 7) = false) :
    ∃ x r', varintDecLoop (streamNext rd) f acc i r = .ok (x, i + n, r') ∧ r'.Inv cap ∧ r.Consumes rd r' (8 * n) ∧
      r'.total = r.total + BitVec.ofNat 32 (8 * n) ∧ r'.cur.toNat = r.cur.toNat + n ∧ r'.cnt.toNat = r.cnt.toNat ∧
      ∀ j, j < 32 → x.getLsbD j =
        (acc.getLsbD j || (decide (i ≤ j / 7 ∧ j / 7 < i + n) && r.bit rd (8 * (j / 7 - i) + j % 7))) := by
  induction f generalizing i n acc r with
  | zero => omega
  | succ f ih =>
    obtain ⟨b, r1, s1, s2, s3, s4, s5, s6, s7⟩ := streamNext_ok (rd := rd) hc h (by omega)
    simp only [varintDecLoop, s1]
    have hb7 := s4 7 (by omega)
    by_cases h1 : n = 1
    · subst h1
      rw [hb7, if_neg (by rw [hl]; decide)]
      refine ⟨_, r1, rfl, s2, s3, s5, s6, s7, ?_⟩
      intro j hj
      rw [BitVec.getLsbD_or, groupBit b i j hj, s4 _ (by omega)]
      by_cases hij : j / 7 = i
      · simp [hij]
      · rw [decide_eq_false hij, decide_eq_false (show ¬ (i ≤ j / 7 ∧ j / 7 < i + 1) by omega), Bool.false_and,
          Bool.false_and]
    · rw [hb7, if_pos (hm 0 (by omega))]
      have ec := s3.count
      have hrest : ∀ k, k + 8 < 8 * n → r1.bit rd k = r.bit rd (8 + k) := fun k hk => s3.rest k (by omega)
      obtain ⟨x, r', g1, g2, g3, g4, g5, g6, g7⟩ := ih (i + 1) (n - 1)
        (acc ||| ((b &&& 0x7F).setWidth 32 <<< (7 * i))) s2 (by omega) (by omega)
        (fun k hk => by
          rw [hrest _ (by omega), ← hm (k + 1) (by omega)]
          congr 1; omega)
        (by
          rw [hrest _ (by omega), ← hl]
          congr 1; omega)
      refine ⟨x, r', ?_, g2, ?_, ?_, by omega, by omega, ?_⟩
      · rw [g1, show i + 1 + (n - 1) = i + n by omega]
      · rw [show 8 * n = 8 + 8 * (n - 1) by omega]
        exact s3.trans g3
      · rw [g4, s5, BitVec.add_assoc]
        congr 1
        change BitVec.ofNat 32 8 + _ = _
        rw [BitVec.ofNat_add_ofNat]
        congr 1; omega
      · intro j hj
        rw [g7 j hj, BitVec.getLsbD_or, groupBit b i j hj, s4 _ (by omega)]
        by_cases hij : j / 7 = i
        · simp [hij, show 0 < n by omega]
        · by_cases h2 : i + 1 ≤ j / 7 ∧ j / 7 < i + 1 + (n - 1)
          · rw [hrest _ (by omega), show 8 + (8 * (j / 7 - (i + 1)) + j % 7) = 8 * (j / 7 - i) + j % 7 by omega]
            simp [h2, hij, show i ≤ j / 7 ∧ j / 7 < i + n by omega]
          · rw [decide_eq_false hij, decide_eq_false h2, decide_eq_false (show ¬ (i ≤ j / 7 ∧ j / 7 < i + n) by omega),
              Bool.false_and, Bool.false_and, Bool.false_and, Bool.or_false]

theorem varintDecLoop_cut (hc : cap ≤ 65536) (f i : Nat) (acc : Word) {r : Reader} (h : r.Inv cap)
    (hf : r.avail / 8 < f) (hm : ∀ k, k < r.avail / 8 → r.bit rd (8 * k + 7) = true) :
    varintDecLoop (streamNext rd) f acc i r = .error .vtrunc := by
  induction f generalizing i acc r with
  | zero => omega
  | succ f ih =>
    by_cases h8 : r.avail < 8
    · simp only [varintDecLoop, streamNext_short h8]
    · obtain ⟨b, r1, s1, s2, s3, s4, -⟩ := streamNext_ok (rd := rd) hc h (by omega)
      have ec := s3.count
      simp only [varintDecLoop, s1]
      rw [s4 7 (by omega), if_pos (hm 0 (by omega))]
      refine ih _ _ s2 (by omega) fun k hk => ?_
      rw [s3.rest _ (by omega), ← hm (k + 1) (by omega)]
      congr 1; omega

theorem varintDecLoop_long (hc : cap ≤ 65536) (f i : Nat) (acc : Word) {r : Reader} (h : r.Inv cap)
    (hp : 8 * f ≤ r.avail) (hm : ∀ k, k < f → r.bit rd (8 * k + 7) = true) :
    varintDecLoop (streamNext rd) f acc i r = .error .voverlong := by
  induction f generalizing i acc r with
  | zero => rfl
  | succ f ih =>
    obtain ⟨b, r1, s1, s2, s3, s4, -⟩ := streamNext_ok (rd := rd) hc h (by omega)
    have ec := s3.count
    simp only [varintDecLoop, s1]
    rw [s4 7 (by omega), if_pos (hm 0 (by omega))]
    refine ih _ _ s2 (by omega) fun k hk => ?_
    rw [s3.rest _ (by omega), ← hm (k + 1) (by omega)]
    congr 1; omega

end loop

/-- varint_dec from the stream, when a varint is there (R182): its value, its length, and the reader after it. -/
theorem varintDec_stream_ok {rd : Nat → Byte} {cap n : Nat} {v : Word} {r : Reader} (hc : cap ≤ 65536) (h : r.Inv cap)
    (hv : VarintAt r.avail (r.bit rd) n v) :
    ∃ r', varintDec (streamNext rd) r = .ok (v, n, r') ∧ r'.Inv cap ∧ r.Consumes rd r' (8 * n) ∧
      r'.total = r.total + BitVec.ofNat 32 (8 * n) ∧ r'.cur.toNat = r.cur.toNat + n ∧ r'.cnt.toNat = r.cnt.toNat := by
  obtain ⟨x, r', g1, g2, g3, g4, g5, g6, g7⟩ := varintDecLoop_ok hc 5 0 n 0 h hv.bytes hv.present hv.more hv.last
  refine ⟨r', ?_, g2, g3, g4, g5, g6⟩
  have hx : x = v := by
    apply BitVec.eq_of_getLsbD_eq
    intro j hj
    rw [g7 j hj, hv.value j hj]
    simp
  rw [varintDec, g1, hx, Nat.zero_add]

/-- varint_dec from a stream that ends inside the varint (R182). -/
theorem varintDec_stream_cut {rd : Nat → Byte} {cap : Nat} {r : Reader} (hc : cap ≤ 65536) (h : r.Inv cap)
    (hv : VarintCut r.avail (r.bit rd)) : varintDec (streamNext rd) r = .error .vtrunc :=
  varintDecLoop_cut hc 5 0 0 h hv.1 hv.2

/-- varint_dec from a stream with five continuation flags in a row (R182). -/
theorem varintDec_stream_long {rd : Nat → Byte} {cap : Nat} {r : Reader} (hc : cap ≤ 65536) (h : r.Inv cap)
    (hv : VarintLong r.avail (r.bit rd)) : varintDec (streamNext rd) r = .error .voverlong :=
  varintDecLoop_long hc 5 0 0 h hv.1 hv.2

/-! The encoder. -/

/-- varint_enc's loop with enough fuel: the shortest form, low group first (R181). -/
theorem varintEncLoop_spec (f : Nat) (v : Word) (hv : v.toNat < 2 ^ (7 * (f + 1))) :
    1 ≤ (varintEncLoop (f + 1) v).length ∧ (varintEncLoop (f + 1) v).length ≤ f + 1 ∧
    v.toNat < 2 ^ (7 * (varintEncLoop (f + 1) v).length) ∧
    ((varintEncLoop (f + 1) v).length = 1 ∨ 2 ^ (7 * ((varintEncLoop (f + 1) v).length - 1)) ≤ v.toNat) ∧
    ∀ i, i < (varintEncLoop (f + 1) v).length →
      ((varintEncLoop (f + 1) v).getD i 0).getLsbD 7 = decide (i + 1 < (varintEncLoop (f + 1) v).length) ∧
      ∀ j, j < 7 → ((varintEncLoop (f + 1) v).getD i 0).getLsbD j = v.getLsbD (7 * i + j) := by
  have h80 : ∀ j, j < 7 → (0x80 : Byte).getLsbD j = false := by intro j hj; interval_cases j <;> decide
  have hsh : (v >>> 7).toNat = v.toNat / 2 ^ 7 := by rw [BitVec.toNat_ushiftRight, Nat.shiftRight_eq_div_pow]
  induction f generalizing v with
  | zero =>
    have : v >>> 7 = 0 := BitVec.eq_of_toNat_eq (by rw [hsh]; simp; omega)
    simp only [varintEncLoop, this, ne_eq, not_true_eq_false, if_false, List.length_singleton]
    refine ⟨by omega, by omega, hv, .inl trivial, ?_⟩
    intro i hi
    have hi0 : i = 0 := by omega
    subst hi0
    refine ⟨?_, ?_⟩
    · simp only [List.getD_cons_zero, BitVec.getLsbD_setWidth]
      rw [getLsbD_of_toNat_lt (c := 7) (by omega) (by omega)]; rfl
    · intro j hj
      simp only [List.getD_cons_zero, BitVec.getLsbD_setWidth, Nat.mul_zero, Nat.zero_add]
      simp [show j < 8 by omega]
  | succ f ih =>
    rw [varintEncLoop]
    by_cases h0 : v >>> 7 = 0
    · have hlt : v.toNat < 2 ^ 7 := by
        have : v.toNat / 2 ^ 7 = 0 := by rw [← hsh, h0]; rfl
        omega
      simp only [h0, ne_eq, not_true_eq_false, if_false, List.length_singleton]
      refine ⟨by omega, by omega, hlt, .inl trivial, ?_⟩
      intro i hi
      have hi0 : i = 0 := by omega
      subst hi0
      refine ⟨?_, ?_⟩
      · simp only [List.getD_cons_zero, BitVec.getLsbD_setWidth]
        rw [getLsbD_of_toNat_lt (c := 7) hlt (by omega)]; rfl
      · intro j hj
        simp only [List.getD_cons_zero, BitVec.getLsbD_setWidth, Nat.mul_zero, Nat.zero_add]
        simp [show j < 8 by omega]
    · have hge : 2 ^ 7 ≤ v.toNat := by
        by_contra hlt
        exact h0 (BitVec.eq_of_toNat_eq (by rw [hsh]; simp; omega))
      have hp : (2 : Nat) ^ (7 * (f + 1 + 1)) = 2 ^ (7 * (f + 1)) * 2 ^ 7 := by
        rw [← Nat.pow_add]; congr 1
      obtain ⟨i1, i2, i3, i4, i5⟩ := ih (v >>> 7)
        (by rw [hsh]; exact Nat.div_lt_of_lt_mul (by rw [Nat.mul_comm, ← hp]; exact hv))
        (by rw [BitVec.toNat_ushiftRight, Nat.shiftRight_eq_div_pow])
      generalize hL : varintEncLoop (f + 1) (v >>> 7) = L at i1 i2 i3 i4 i5
      simp only [ne_eq, h0, not_false_eq_true, if_true, List.length_cons]
      rw [hsh] at i3 i4
      refine ⟨by omega, by omega, ?_, .inr ?_, ?_⟩
      · rw [show 7 * (L.length + 1) = 7 * L.length + 7 by omega, Nat.pow_add]
        omega
      · rw [Nat.add_sub_cancel]
        rcases i4 with i4 | i4
        · rw [i4]; exact hge
        · rw [show 7 * L.length = 7 * (L.length - 1) + 7 by omega, Nat.pow_add]
          omega
      · intro i hi
        cases i with
        | zero =>
          refine ⟨?_, ?_⟩
          · have : (0x80 : Byte).getLsbD 7 = true := by decide
            simp only [List.getD_cons_zero, BitVec.getLsbD_or, this, Bool.true_or]
            simp; omega
          · intro j hj
            simp only [List.getD_cons_zero, BitVec.getLsbD_or, h80 j hj, BitVec.getLsbD_setWidth, Nat.mul_zero,
              Nat.zero_add]
            simp [show j < 8 by omega]
        | succ i =>
          obtain ⟨j1, j2⟩ := i5 i (by omega)
          simp only [List.getD_cons_succ]
          refine ⟨by rw [j1]; simp, fun j hj => ?_⟩
          rw [j2 j hj, BitVec.getLsbD_ushiftRight]
          congr 1; omega

/-- varint_enc (R181): one to five bytes, as few as hold the value, continuation flags on all but the last, and seven
bits of the value in each, low group first. -/
theorem varintEnc_spec (v : Word) :
    1 ≤ (varintEnc v).length ∧ (varintEnc v).length ≤ 5 ∧ v.toNat < 2 ^ (7 * (varintEnc v).length) ∧
    ((varintEnc v).length = 1 ∨ 2 ^ (7 * ((varintEnc v).length - 1)) ≤ v.toNat) ∧
    ∀ i, i < (varintEnc v).length →
      ((varintEnc v).getD i 0).getLsbD 7 = decide (i + 1 < (varintEnc v).length) ∧
      ∀ j, j < 7 → ((varintEnc v).getD i 0).getLsbD j = v.getLsbD (7 * i + j) :=
  varintEncLoop_spec 4 v (by have := v.isLt; omega)

end Sys2Proof.Machine
end

