-- ==== Sys2Proof/Laws/Writer.lean ====
section
/-! SUPPORT. What the writer's micro-operations do, said once: put, wflush and putraw each append to the writer's bit
sequence and keep its invariant. -/

namespace Sys2Proof.Machine

/-- The writer invariant with up to `lim` pending bits, as it holds inside a put. -/
structure Writer.Loose (cap lim : Nat) (w : Writer) : Prop where
  clean : w.acc.toNat < 2 ^ w.cnt.toNat
  pending : w.cnt.toNat ≤ lim
  fits : w.bitCount ≤ 8 * cap
  canonical : Memory.wf w.buf = true
  inside : Memory.below cap w.buf = true
  known : ∀ i, i < w.bytes.toNat → (Memory.read w.buf i).isSome = true

theorem Writer.inv_iff_loose (cap : Nat) (w : Writer) : w.Inv cap ↔ w.Loose cap 7 := by
  constructor
  · rintro ⟨h1, h2, h3, h4, h5, h6⟩
    exact ⟨h1, h2, (ceil8_le_iff _ _).1 h3, h4, h5, h6⟩
  · rintro ⟨h1, h2, h3, h4, h5, h6⟩
    exact ⟨h1, h2, (ceil8_le_iff _ _).2 h3, h4, h5, h6⟩

/-- Appending nothing. -/
theorem Writer.Appends.refl (w : Writer) (new : Nat → Bool) : w.Appends w 0 new :=
  ⟨rfl, fun _ _ => rfl, fun _ h => absurd h (Nat.not_lt_zero _), fun _ _ => rfl⟩

/-- Appending twice; `h` says where the second part's bits stand. -/
theorem Writer.Appends.trans {w w1 w2 : Writer} {n m : Nat} {f g new : Nat → Bool} (h1 : w.Appends w1 n f)
    (h2 : w1.Appends w2 m g) (hb : w.bytes.toNat ≤ w1.bytes.toNat ∧ w1.bytes.toNat ≤ w2.bytes.toNat)
    (hf : ∀ k, k < n → new k = f k) (hg : ∀ k, k < m → new (n + k) = g k) : w.Appends w2 (n + m) new where
  count := by rw [h2.count, h1.count]; omega
  kept k hk := by rw [h2.kept k (by rw [h1.count]; omega), h1.kept k hk]
  added k hk := by
    by_cases h : k < n
    · rw [h2.kept _ (by rw [h1.count]; omega), h1.added k h, hf k h]
    · obtain ⟨j, rfl⟩ := Nat.exists_eq_add_of_le (Nat.not_lt.1 h)
      rw [hg j (by omega), ← h2.added j (by omega), h1.count, Nat.add_assoc]
  frame i hi := by
    rw [h2.frame i (by omega), h1.frame i (by omega)]

/-- Appending depends only on the bits named. -/
theorem Writer.Appends.congr {w w' : Writer} {n : Nat} {f g : Nat → Bool} (h : w.Appends w' n f)
    (hfg : ∀ k, k < n → g k = f k) : w.Appends w' n g :=
  ⟨h.count, h.kept, fun k hk => by rw [h.added k hk, hfg k hk], h.frame⟩

section drain
variable {cap lim : Nat} {w : Writer}

theorem Writer.drainByte_counts (hc : cap ≤ 65536) (h : w.Loose cap lim) (h8 : 8 ≤ w.cnt.toNat) :
    w.drainByte.bytes.toNat = w.bytes.toNat + 1 ∧ w.drainByte.cnt.toNat = w.cnt.toNat - 8 := by
  have := h.fits
  unfold Writer.bitCount at this
  constructor
  · simp only [Writer.drainByte, BitVec.toNat_add]
    change (w.bytes.toNat + 1) % 2 ^ 32 = _
    omega
  · have : (8 : Word).toNat = 8 := rfl
    simp only [Writer.drainByte]
    rw [BitVec.toNat_sub_of_le (by rw [BitVec.le_def, this]; exact h8), this]

/-- A drain round moves eight bits from WACC to WBUF: the bit sequence stays. -/
theorem Writer.drainByte_bit (hc : cap ≤ 65536) (h : w.Loose cap lim) (h8 : 8 ≤ w.cnt.toNat) (k : Nat) :
    w.drainByte.bit k = w.bit k := by
  obtain ⟨hb, -⟩ := Writer.drainByte_counts hc h h8
  unfold Writer.bit
  rw [hb]
  simp only [Writer.drainByte, Memory.read_write]
  by_cases h1 : k < 8 * w.bytes.toNat
  · rw [if_pos (by omega), if_neg (by omega), if_pos h1]
  · by_cases h2 : k < 8 * (w.bytes.toNat + 1)
    · rw [if_pos h2, if_pos (by omega), if_neg h1]
      simp only [Option.getD_some, BitVec.getLsbD_extractLsb', Nat.zero_add]
      rw [show k - 8 * w.bytes.toNat = k % 8 by omega]
      simp [show k % 8 < 8 by omega]
    · rw [if_neg h2, if_neg h1]
      simp only [BitVec.getLsbD_ushiftRight]
      congr 1
      omega

theorem Writer.drainByte_loose (hc : cap ≤ 65536) (h : w.Loose cap lim) (h8 : 8 ≤ w.cnt.toNat) :
    w.drainByte.Loose cap (lim - 8) := by
  obtain ⟨hb, hn⟩ := Writer.drainByte_counts hc h h8
  have hf := h.fits
  unfold Writer.bitCount at hf
  refine ⟨?_, ?_, ?_, ?_, ?_, ?_⟩
  · rw [hn]
    refine toNat_lt_of_getLsbD fun k hk => ?_
    simp only [Writer.drainByte, BitVec.getLsbD_ushiftRight]
    exact getLsbD_of_toNat_lt h.clean (by omega)
  · rw [hn]; have := h.pending; omega
  · unfold Writer.bitCount; rw [hb, hn]; omega
  · exact Memory.wf_write _ _ h.canonical
  · exact Memory.below_write _ h.inside (by omega)
  · intro i hi
    rw [hb] at hi
    simp only [Writer.drainByte, Memory.read_write]
    split
    · rfl
    · exact h.known i (by omega)

/-- What the drain loop does: all of its rounds' bits become committed bytes, the bit sequence stays, and only the
bytes it commits are written. -/
theorem Writer.drain_spec (hc : cap ≤ 65536) (j : Nat) (h : w.Loose cap lim) (hj : 8 * j ≤ w.cnt.toNat) :
    (Writer.drain j w).Loose cap (lim - 8 * j) ∧ (Writer.drain j w).bytes.toNat = w.bytes.toNat + j ∧
    (Writer.drain j w).cnt.toNat = w.cnt.toNat - 8 * j ∧ (Writer.drain j w).total = w.total ∧
    (∀ k, (Writer.drain j w).bit k = w.bit k) ∧
    (∀ i, i < w.bytes.toNat ∨ w.bytes.toNat + j ≤ i → Memory.read (Writer.drain j w).buf i = Memory.read w.buf i) := by
  induction j generalizing w lim with
  | zero => exact ⟨h, rfl, rfl, rfl, fun _ => rfl, fun _ _ => rfl⟩
  | succ j ih =>
    have h8 : 8 ≤ w.cnt.toNat := by omega
    obtain ⟨hb, hn⟩ := Writer.drainByte_counts hc h h8
    obtain ⟨i1, i2, i3, i4, i5, i6⟩ := ih (Writer.drainByte_loose hc h h8) (by omega)
    refine ⟨?_, ?_, ?_, i4, ?_, ?_⟩
    · rw [show lim - 8 * (j + 1) = lim - 8 - 8 * j by omega]; exact i1
    · simp only [Writer.drain]; omega
    · simp only [Writer.drain]; omega
    · intro k; rw [← Writer.drainByte_bit hc h h8 k]; exact i5 k
    · intro i hi
      simp only [Writer.drain]
      rw [i6 i (by omega)]
      exact Memory.read_write_other _ _ (by omega)

end drain

/-- put(v, n) when the bits fit (R142): it appends the low `n` bits of `v` and counts them. -/
theorem Writer.put_ok {cap n : Nat} {w : Writer} (v : Word) (hc : cap ≤ 65536) (h : w.Inv cap) (hn : n ≤ 32)
    (hfit : ceil8 (w.bitCount + n) ≤ cap) :
    ∃ w', w.put cap v n = .ok w' ∧ w'.Inv cap ∧ w.Appends w' n v.getLsbD ∧
      w'.total = w.total + BitVec.ofNat 32 n ∧ w.bytes.toNat ≤ w'.bytes.toNat := by
  have hl := (Writer.inv_iff_loose cap w).1 h
  have hp := hl.pending
  rw [ceil8_le_iff] at hfit
  unfold Writer.bitCount at hfit
  have hcond : ¬ cap < ceil8 (8 * (w.bytes.toNat + (w.cnt.toNat + n) / 8) + (w.cnt.toNat + n) % 8) := by
    rw [Nat.not_lt, ceil8_le_iff]; omega
  -- the writer with the new bits ORed in
  let u : Writer := { w with
    acc := w.acc ||| (lowBits v n <<< w.cnt.toNat)
    cnt := w.cnt + BitVec.ofNat 32 n
    total := w.total + BitVec.ofNat 32 n }
  have hcnt : u.cnt.toNat = w.cnt.toNat + n := by
    simp only [u, BitVec.toNat_add, BitVec.toNat_ofNat]; omega
  have hacc : ∀ k, u.acc.getLsbD k =
      (w.acc.getLsbD k || (decide (w.cnt.toNat ≤ k ∧ k < w.cnt.toNat + n) && v.getLsbD (k - w.cnt.toNat))) := by
    intro k
    simp only [u, BitVec.getLsbD_or, BitVec.getLsbD_shiftLeft, lowBits_getLsbD]
    by_cases h1 : k < w.cnt.toNat
    · simp [h1, show ¬ w.cnt.toNat ≤ k by omega]
    · by_cases h2 : k < w.cnt.toNat + n
      · simp [h1, h2, show k < 64 by omega, show k - w.cnt.toNat < 64 by omega, show k - w.cnt.toNat < n by omega,
          show w.cnt.toNat ≤ k by omega]
      · simp [h2, show ¬ (k - w.cnt.toNat < n) by omega]
  have hu : u.Loose cap 39 := by
    refine ⟨?_, by omega, ?_, h.canonical, h.inside, h.known⟩
    · refine toNat_lt_of_getLsbD fun k hk => ?_
      rw [hcnt] at hk
      rw [hacc, getLsbD_of_toNat_lt hl.clean (by omega)]
      simp [show ¬ k < w.cnt.toNat + n by omega]
    · unfold Writer.bitCount; rw [hcnt]
      change 8 * w.bytes.toNat + _ ≤ _
      omega
  obtain ⟨d1, d2, d3, d4, d5, d6⟩ := Writer.drain_spec hc ((w.cnt.toNat + n) / 8) hu (by omega)
  have hub : u.bytes.toNat = w.bytes.toNat := rfl
  refine ⟨_, by rw [Writer.put, if_neg hcond], ?_, ?_, d4, by omega⟩
  · rw [Writer.inv_iff_loose]
    exact ⟨d1.clean, by omega, d1.fits, d1.canonical, d1.inside, d1.known⟩
  · refine ⟨?_, ?_, ?_, ?_⟩
    · unfold Writer.bitCount; rw [d2, d3]; omega
    · intro k hk
      rw [d5 k]
      unfold Writer.bit
      rw [hub]
      split
      · rfl
      · unfold Writer.bitCount at hk
        rw [hacc]
        simp [show ¬ w.cnt.toNat ≤ k - 8 * w.bytes.toNat by omega]
    · intro k hk
      rw [d5]
      unfold Writer.bit Writer.bitCount
      rw [hub, if_neg (by omega), hacc, getLsbD_of_toNat_lt hl.clean (by omega)]
      rw [show 8 * w.bytes.toNat + w.cnt.toNat + k - 8 * w.bytes.toNat = w.cnt.toNat + k by omega]
      simp [hk]
    · intro i hi
      rw [d6 i (by omega)]

/-- put(v, n) when the bits do not fit (R142). -/
theorem Writer.put_full {cap n : Nat} {w : Writer} (v : Word) (hfull : cap < ceil8 (w.bitCount + n)) :
    w.put cap v n = .error .wovf := by
  have : w.bitCount + n = 8 * (w.bytes.toNat + (w.cnt.toNat + n) / 8) + (w.cnt.toNat + n) % 8 := by
    unfold Writer.bitCount; omega
  rw [Writer.put, if_pos (by rw [← this]; exact hfull)]

theorem bytesBit_cons_lt (b : Byte) (bs : List Byte) {k : Nat} (h : k < 8) : bytesBit (b :: bs) k = b.getLsbD k := by
  simp [bytesBit, show k / 8 = 0 by omega, show k % 8 = k by omega]

theorem bytesBit_cons_ge (b : Byte) (bs : List Byte) (k : Nat) : bytesBit (b :: bs) (8 + k) = bytesBit bs k := by
  simp [bytesBit, show (8 + k) / 8 = k / 8 + 1 by omega, show (8 + k) % 8 = k % 8 by omega]

/-- put(b, 8) for each byte of a sequence, when they fit (R185, R212): the bytes' bits at the current bit offset. -/
theorem Writer.putBytes_ok {cap : Nat} {w : Writer} (bs : List Byte) (hc : cap ≤ 65536) (h : w.Inv cap)
    (hfit : ceil8 (w.bitCount + 8 * bs.length) ≤ cap) :
    ∃ w', w.putBytes cap bs = .ok w' ∧ w'.Inv cap ∧ w.Appends w' (8 * bs.length) (bytesBit bs) ∧
      w'.total = w.total + BitVec.ofNat 32 (8 * bs.length) ∧ w.bytes.toNat ≤ w'.bytes.toNat := by
  induction bs generalizing w with
  | nil => exact ⟨w, rfl, h, Writer.Appends.refl _ _, by simp, Nat.le_refl _⟩
  | cons b bs ih =>
    rw [ceil8_le_iff, List.length_cons] at hfit
    obtain ⟨w1, a1, a2, a3, a4, a5⟩ := Writer.put_ok (n := 8) (b.setWidth 32) hc h (by omega)
      ((ceil8_le_iff _ _).2 (by omega))
    obtain ⟨w2, b1, b2, b3, b4, b5⟩ := ih a2 ((ceil8_le_iff _ _).2 (by rw [a3.count]; omega))
    refine ⟨w2, ?_, b2, ?_, ?_, by omega⟩
    · change (w.put cap (b.setWidth 32) 8 >>= fun w1 => w1.putBytes cap bs) = _
      rw [a1]; exact b1
    · rw [List.length_cons, show 8 * (bs.length + 1) = 8 + 8 * bs.length by omega]
      refine a3.trans b3 ⟨a5, b5⟩ (fun k hk => ?_) (fun k _ => bytesBit_cons_ge b bs k)
      rw [bytesBit_cons_lt b bs hk]
      simp [show k < 32 by omega]
    · rw [b4, a4, BitVec.add_assoc, BitVec.ofNat_add_ofNat, List.length_cons]
      congr 2; omega

/-- put(b, 8) for each byte of a sequence, when they do not fit: one of the puts raises (R185, R212). -/
theorem Writer.putBytes_full {cap : Nat} {w : Writer} (bs : List Byte) (hc : cap ≤ 65536) (h : w.Inv cap)
    (hfull : cap < ceil8 (w.bitCount + 8 * bs.length)) : w.putBytes cap bs = .error .wovf := by
  induction bs generalizing w with
  | nil =>
    have := h.fits
    simp only [List.length_nil, Nat.mul_zero, Nat.add_zero, Writer.bitCount] at hfull
    omega
  | cons b bs ih =>
    change (w.put cap (b.setWidth 32) 8 >>= fun w1 => w1.putBytes cap bs) = _
    by_cases h8 : cap < ceil8 (w.bitCount + 8)
    · rw [Writer.put_full _ h8]; rfl
    · obtain ⟨w1, a1, a2, a3, -⟩ := Writer.put_ok (n := 8) (b.setWidth 32) hc h (by omega) (by omega)
      rw [a1]
      refine ih a2 ?_
      rw [a3.count, Nat.add_assoc, Nat.add_comm 8, ← Nat.mul_succ]
      exact hfull

/-- wflush() (R147): it appends zeros up to the next byte boundary, counts nothing, and leaves the writer aligned. -/
theorem Writer.flush_spec {cap : Nat} {w : Writer} (hc : cap ≤ 65536) (h : w.Inv cap) :
    w.flush.Inv cap ∧ w.Appends w.flush w.padding (fun _ => false) ∧ w.flush.cnt = 0 ∧ w.flush.acc = 0 ∧
      w.flush.total = w.total ∧ w.flush.bytes.toNat = w.bytes.toNat + (w.cnt.toNat + 7) / 8 := by
  have hl := (Writer.inv_iff_loose cap w).1 h
  have hp := hl.pending
  have hf := hl.fits
  unfold Writer.bitCount at hf
  by_cases h0 : w.cnt = 0
  · have hz : w.cnt.toNat = 0 := by rw [h0]; rfl
    have hacc : w.acc = 0 := by
      apply BitVec.eq_of_toNat_eq
      have := hl.clean
      rw [hz] at this
      simp at this
      simp [this]
    have hpad : w.padding = 0 := by unfold Writer.padding padBits Writer.bitCount; omega
    rw [Writer.flush, if_pos h0, hpad]
    exact ⟨h, Writer.Appends.refl _ _, h0, hacc, rfl, by omega⟩
  · have hne : w.cnt.toNat ≠ 0 := fun hz => h0 (BitVec.eq_of_toNat_eq hz)
    have hpad : w.padding = 8 - w.cnt.toNat := by unfold Writer.padding padBits Writer.bitCount; omega
    have hb : w.flush.bytes.toNat = w.bytes.toNat + 1 := by
      simp only [Writer.flush, if_neg h0, BitVec.toNat_add]
      change (w.bytes.toNat + 1) % 2 ^ 32 = _
      omega
    have hcnt : w.flush.cnt = 0 := by simp only [Writer.flush, if_neg h0]
    have hac : w.flush.acc = 0 := by simp only [Writer.flush, if_neg h0]
    have hread : ∀ i, Memory.read w.flush.buf i =
        if i = w.bytes.toNat then some (w.acc.extractLsb' 0 8) else Memory.read w.buf i := by
      intro i; simp only [Writer.flush, if_neg h0, Memory.read_write]
    refine ⟨⟨?_, ?_, ?_, ?_, ?_, ?_⟩, ⟨?_, ?_, ?_, ?_⟩, hcnt, hac, ?_, by omega⟩
    · rw [hcnt, hac]; decide
    · rw [hcnt]; decide
    · rw [ceil8_le_iff, hb, hcnt]
      change _ + 0 ≤ _
      omega
    · simp only [Writer.flush, if_neg h0]; exact Memory.wf_write _ _ h.canonical
    · simp only [Writer.flush, if_neg h0]; exact Memory.below_write _ h.inside (by omega)
    · intro i hi
      rw [hread]
      split
      · rfl
      · exact h.known i (by omega)
    · unfold Writer.bitCount
      rw [hb, hcnt, hpad]
      change _ + 0 = _
      omega
    · intro k hk
      unfold Writer.bitCount at hk
      unfold Writer.bit
      rw [hb, if_pos (by omega), hread]
      by_cases h1 : k < 8 * w.bytes.toNat
      · rw [if_neg (by omega), if_pos h1]
      · rw [if_pos (by omega), if_neg h1]
        simp only [Option.getD_some, BitVec.getLsbD_extractLsb', Nat.zero_add]
        rw [show k - 8 * w.bytes.toNat = k % 8 by omega]
        simp [show k % 8 < 8 by omega]
    · intro k hk
      rw [hpad] at hk
      unfold Writer.bitCount Writer.bit
      rw [hb, if_pos (by omega), hread, if_pos (by omega)]
      simp only [Option.getD_some, BitVec.getLsbD_extractLsb', Nat.zero_add]
      rw [getLsbD_of_toNat_lt hl.clean (by omega)]
      simp
    · intro i hi
      rw [hread, if_neg (by omega)]
    · simp only [Writer.flush, if_neg h0]

/-- putraw(s) when the bytes fit (R148). -/
theorem Writer.putRaw_ok {cap : Nat} {w : Writer} (bs : List Byte) (hc : cap ≤ 65536) (h : w.Inv cap)
    (hfit : w.bytes.toNat + (w.cnt.toNat + 7) / 8 + bs.length ≤ cap) :
    ∃ w', w.putRaw cap bs = .ok w' ∧ w'.Inv cap ∧
      w.Appends w' (w.padding + 8 * bs.length) (rawBits w.padding bs) ∧ w'.cnt = 0 ∧ w'.acc = 0 ∧
      w'.total = w.total + BitVec.ofNat 32 (8 * bs.length) ∧
      w'.bytes.toNat = w.bytes.toNat + (w.cnt.toNat + 7) / 8 + bs.length := by
  obtain ⟨f1, f2, f3, f4, f5, f6⟩ := Writer.flush_spec hc h
  have hcond : ¬ cap < w.flush.bytes.toNat + bs.length := by omega
  refine ⟨_, by rw [Writer.putRaw, if_neg hcond], ?_⟩
  have hb : (w.flush.bytes + BitVec.ofNat 32 bs.length).toNat = w.flush.bytes.toNat + bs.length := by
    rw [BitVec.toNat_add, BitVec.toNat_ofNat]; omega
  have hz : w.flush.cnt.toNat = 0 := by rw [f3]; rfl
  refine ⟨⟨f1.clean, f1.pending, ?_, wf_storeBytes _ _ f1.canonical, below_storeBytes _ f1.inside (by omega), ?_⟩,
    ?_, f3, f4, ?_, ?_⟩
  · rw [ceil8_le_iff]
    change 8 * (w.flush.bytes + BitVec.ofNat 32 bs.length).toNat + w.flush.cnt.toNat ≤ _
    omega
  · intro i hi
    change i < (w.flush.bytes + BitVec.ofNat 32 bs.length).toNat at hi
    rw [read_storeBytes]
    by_cases h1 : w.flush.bytes.toNat ≤ i
    · rw [if_pos (by omega), List.getElem?_eq_getElem (by omega)]; rfl
    · rw [if_neg (by omega)]; exact f1.known i (by omega)
  · refine Writer.Appends.trans (n := w.padding) (m := 8 * bs.length) (g := bytesBit bs) f2 ⟨?_, ?_, ?_, ?_⟩ ?_ ?_ ?_
    · unfold Writer.bitCount
      change 8 * (w.flush.bytes + BitVec.ofNat 32 bs.length).toNat + w.flush.cnt.toNat = _
      omega
    · intro k hk
      unfold Writer.bitCount at hk
      unfold Writer.bit
      change (if k < 8 * (w.flush.bytes + BitVec.ofNat 32 bs.length).toNat then _ else _) = _
      rw [if_pos (by omega), if_pos (by omega), read_storeBytes, if_neg (by omega)]
    · intro k hk
      unfold Writer.bitCount Writer.bit
      change (if _ < 8 * (w.flush.bytes + BitVec.ofNat 32 bs.length).toNat then _ else _) = _
      rw [if_pos (by omega), read_storeBytes, if_pos (by omega), hz]
      unfold bytesBit
      rw [List.getD_eq_getElem?_getD, show (8 * w.flush.bytes.toNat + 0 + k) / 8 - w.flush.bytes.toNat = k / 8 by omega,
        show (8 * w.flush.bytes.toNat + 0 + k) % 8 = k % 8 by omega]
    · intro i hi
      change i < _ ∨ (w.flush.bytes + BitVec.ofNat 32 bs.length).toNat ≤ i at hi
      rw [read_storeBytes, if_neg (by omega)]
    · change _ ∧ _ ≤ (w.flush.bytes + BitVec.ofNat 32 bs.length).toNat
      omega
    · intro k hk; simp [rawBits, hk]
    · intro k hk; simp [rawBits]
  · rw [f5]
  · change (w.flush.bytes + BitVec.ofNat 32 bs.length).toNat = _
    omega

/-- putraw(s) when the bytes do not fit (R148). -/
theorem Writer.putRaw_full {cap : Nat} {w : Writer} (bs : List Byte) (hc : cap ≤ 65536) (h : w.Inv cap)
    (hfull : cap < w.bytes.toNat + (w.cnt.toNat + 7) / 8 + bs.length) : w.putRaw cap bs = .error .wovf := by
  obtain ⟨-, -, -, -, -, f6⟩ := Writer.flush_spec hc h
  rw [Writer.putRaw, if_pos (by omega)]

end Sys2Proof.Machine
end

