-- ==== Sys2Proof/Laws/Record.lean ====
section
/-! SUPPORT. What the record family's shared operations do, said once: a run of bit fields put or taken, the string
sub-procedure in both directions, and a PlayerState record written and read. -/

namespace Sys2Proof.Machine

theorem Except.bind_ok {ε α : Type} (x : Except ε α) : (x >>= fun a => Except.ok a) = x := by cases x <;> rfl

/-! A run of bit fields. -/

/-- put of each (value, width) pair, in order. -/
def putAll (cap : Nat) : List (Word × Nat) → Writer → Except ErrorCode Writer
  | [], w => .ok w
  | x :: xs, w => do
    let w1 ← w.put cap x.1 x.2
    putAll cap xs w1

/-- The bits of a run of (value, width) pairs. -/
def pairBits : List (Word × Nat) → Nat → Bool
  | [], _ => false
  | x :: xs, k => if k < x.2 then x.1.getLsbD k else pairBits xs (k - x.2)

/-- The length in bits of a run of fields. -/
def pairLength (xs : List (Word × Nat)) : Nat := (xs.map Prod.snd).sum

theorem pairLength_cons (x : Word × Nat) (xs : List (Word × Nat)) : pairLength (x :: xs) = x.2 + pairLength xs := by
  simp [pairLength]

theorem putAll_ok {cap : Nat} (hc : cap ≤ 65536) (xs : List (Word × Nat)) (hx : ∀ x ∈ xs, x.2 ≤ 32) {w : Writer}
    (h : w.Inv cap) (hfit : w.bitCount + pairLength xs ≤ 8 * cap) :
    ∃ w', putAll cap xs w = .ok w' ∧ w'.Inv cap ∧ w.Appends w' (pairLength xs) (pairBits xs) ∧
      w'.total = w.total + BitVec.ofNat 32 (pairLength xs) ∧ w.bytes.toNat ≤ w'.bytes.toNat := by
  induction xs generalizing w with
  | nil => exact ⟨w, rfl, h, Writer.Appends.refl _ _, by simp [pairLength], Nat.le_refl _⟩
  | cons x xs ih =>
    rw [pairLength_cons] at hfit ⊢
    obtain ⟨w1, a1, a2, a3, a4, a5⟩ := Writer.put_ok (n := x.2) x.1 hc h (hx x (by simp))
      ((ceil8_le_iff _ _).2 (by omega))
    obtain ⟨w2, b1, b2, b3, b4, b5⟩ := ih (fun y hy => hx y (by simp [hy])) a2 (by rw [a3.count]; omega)
    refine ⟨w2, ?_, b2, a3.trans b3 ⟨a5, b5⟩ (fun k hk => by simp [pairBits, hk]) (fun k _ => ?_), ?_, by omega⟩
    · rw [putAll, a1]; exact b1
    · simp [pairBits]
    · rw [b4, a4, BitVec.ofNat_add, BitVec.add_assoc]

theorem putAll_full {cap : Nat} (hc : cap ≤ 65536) (xs : List (Word × Nat)) (hx : ∀ x ∈ xs, x.2 ≤ 32) {w : Writer}
    (h : w.Inv cap) (hfull : 8 * cap < w.bitCount + pairLength xs) : putAll cap xs w = .error .wovf := by
  induction xs generalizing w with
  | nil =>
    have := (ceil8_le_iff _ _).1 h.fits
    simp only [pairLength, List.map_nil, List.sum_nil, Writer.bitCount] at hfull
    omega
  | cons x xs ih =>
    rw [pairLength_cons] at hfull
    by_cases hp : ceil8 (w.bitCount + x.2) ≤ cap
    · obtain ⟨w1, a1, a2, a3, -⟩ := Writer.put_ok (n := x.2) x.1 hc h (hx x (by simp)) hp
      rw [putAll, a1]
      exact ih (fun y hy => hx y (by simp [hy])) a2 (by rw [a3.count]; omega)
    · rw [putAll, Writer.put_full x.1 (by omega)]
      rfl

/-- take of each width, in order. -/
def takeAll (rd : Nat → Byte) : List Nat → Reader → Except ErrorCode (List Word × Reader)
  | [], r => .ok ([], r)
  | n :: ns, r => do
    let v ← r.take rd n
    let vs ← takeAll rd ns v.2
    .ok (v.1 :: vs.1, vs.2)

/-- How many bytes a taken run of `n` bits pulls (R162). -/
theorem Reader.consumes_cur {rd : Nat → Byte} {cap n m : Nat} {r r1 : Reader} (h : r.Inv cap) (h1 : r1.Inv cap)
    (hk : r.Consumes rd r1 n) (hc : r1.cur.toNat = r.cur.toNat + ceil8 (n - r.cnt.toNat)) :
    r1.cur.toNat + ceil8 (m - r1.cnt.toNat) = r.cur.toNat + ceil8 (n + m - r.cnt.toNat) := by
  have a := hk.count
  have := h.cursor
  have := h1.cursor
  have := h.partialByte
  have := h1.partialByte
  simp only [Reader.avail_eq, hk.length] at a
  rw [hk.length] at *
  unfold ceil8 at *
  omega

theorem takeAll_ok {cap : Nat} {rd : Nat → Byte} (hc : cap ≤ 65536) (ns : List Nat) (hn : ∀ n ∈ ns, n ≤ 32)
    {r : Reader} (h : r.Inv cap) (hav : ns.sum ≤ r.avail) :
    ∃ vs r', takeAll rd ns r = .ok (vs, r') ∧ r'.Inv cap ∧ r.Consumes rd r' ns.sum ∧
      r'.total = r.total + BitVec.ofNat 32 ns.sum ∧ r'.cur.toNat = r.cur.toNat + ceil8 (ns.sum - r.cnt.toNat) ∧
      vs.length = ns.length ∧ (∀ k, k < ns.sum → pairBits (vs.zip ns) k = r.bit rd k) ∧
      ∀ x ∈ vs.zip ns, ∀ j, x.2 ≤ j → x.1.getLsbD j = false := by
  induction ns generalizing r with
  | nil =>
    refine ⟨[], r, rfl, h, ⟨rfl, rfl, fun k _ => by simp⟩, by simp, by simp [ceil8], rfl, fun k hk => ?_, by simp⟩
    exact absurd hk (by simp)
  | cons n ns ih =>
    rw [List.sum_cons] at *
    obtain ⟨v, r1, a1, a2, a3, a4, a5, a6⟩ := Reader.take_ok (rd := rd) (n := n) hc h (hn n (by simp)) (by omega)
    have a7 := a3.count
    obtain ⟨vs, r2, b1, b2, b3, b4, b5, b6, b7, b8⟩ := ih (fun m hm => hn m (by simp [hm])) a2 (by omega)
    refine ⟨v :: vs, r2, ?_, b2, a3.trans b3, ?_, ?_, by simp [b6], fun k hk => ?_, ?_⟩
    · rw [takeAll, a1]
      change (takeAll rd ns r1 >>= fun vs => Except.ok (v :: vs.1, vs.2)) = _
      rw [b1]; rfl
    · rw [b4, a5, BitVec.ofNat_add, BitVec.add_assoc]
    · rw [b5]; exact Reader.consumes_cur h a2 a3 a6
    · simp only [List.zip_cons_cons, pairBits]
      by_cases hk' : k < n
      · rw [if_pos hk', a4 k]; simp [hk']
      · rw [if_neg hk', b7 _ (by omega), a3.rest _ (by omega)]
        congr 1; omega
    · intro x hx j hj
      rw [List.zip_cons_cons, List.mem_cons] at hx
      rcases hx with rfl | hx
      · rw [a4 j]; simp; omega
      · exact b8 x hx j hj

theorem takeAll_short {cap : Nat} {rd : Nat → Byte} (hc : cap ≤ 65536) (ns : List Nat) (hn : ∀ n ∈ ns, n ≤ 32)
    {r : Reader} (h : r.Inv cap) (hav : r.avail < ns.sum) : takeAll rd ns r = .error .underrun := by
  induction ns generalizing r with
  | nil => exact absurd hav (by simp)
  | cons n ns ih =>
    rw [List.sum_cons] at hav
    by_cases h1 : n ≤ r.avail
    · obtain ⟨v, r1, a1, a2, a3, -⟩ := Reader.take_ok (rd := rd) (n := n) hc h (hn n (by simp)) h1
      have := a3.count
      rw [takeAll, a1]
      change (takeAll rd ns r1 >>= fun vs => Except.ok (v :: vs.1, vs.2)) = _
      rw [ih (fun m hm => hn m (by simp [hm])) a2 (by omega)]
      rfl
    · rw [takeAll, Reader.take_short (by omega)]
      rfl

/-! The string sub-procedure. -/

/-- str_write (R212) when the whole fits: the length at the current bit offset, zeros to the byte boundary, the text. -/
theorem State.strWrite_ok {s : State} {a n : Nat} {w : Writer} (hc : s.cfg.wcap ≤ 65536) (h : w.Inv s.cfg.wcap)
    (hn : n ≤ 255) (hx : a + n ≤ s.cfg.xcap) {len : List Byte} (hl : len = varintEnc (BitVec.ofNat 32 n)) {pad : Nat}
    (hp : pad = padBits (w.bitCount + 8 * len.length))
    (hfit : w.bitCount + (8 * len.length + pad + 8 * n) ≤ 8 * s.cfg.wcap) :
    ∃ w', s.strWrite a n w = .ok w' ∧ w'.Inv s.cfg.wcap ∧
      w.Appends w' (8 * len.length + pad + 8 * n) (textBits len pad (bytesFrom s.xbufByte a n)) ∧ w'.cnt = 0 ∧
      w'.acc = 0 ∧ w'.total = w.total + BitVec.ofNat 32 (8 * len.length + 8 * n) ∧ w.bytes.toNat ≤ w'.bytes.toNat := by
  subst hl
  obtain ⟨w1, a1, a2, a3, a4, a5⟩ := Writer.putBytes_ok (varintEnc (BitVec.ofNat 32 n)) hc h
    ((ceil8_le_iff _ _).2 (by omega))
  have hpad : w1.padding = pad := by rw [hp, Writer.padding, a3.count]
  have hcnt := a2.pending
  have hb : w1.bytes.toNat + (w1.cnt.toNat + 7) / 8 + (bytesFrom s.xbufByte a n).length ≤ s.cfg.wcap := by
    have := a3.count
    rw [bytesFrom_length]
    unfold Writer.bitCount padBits at *
    omega
  obtain ⟨w2, b1, b2, b3, b4, b5, b6, b7⟩ := Writer.putRaw_ok (bytesFrom s.xbufByte a n) hc a2 hb
  rw [hpad, bytesFrom_length] at b3
  refine ⟨w2, ?_, b2, ?_, b4, b5, ?_, by omega⟩
  · rw [State.strWrite, if_neg (by unfold maxText; omega), if_neg (by omega), a1]; exact b1
  · rw [show 8 * (varintEnc (BitVec.ofNat 32 n)).length + pad + 8 * n
      = 8 * (varintEnc (BitVec.ofNat 32 n)).length + (pad + 8 * n) by omega]
    exact a3.trans b3 ⟨a5, by omega⟩ (fun k hk => by rw [textBits, if_pos hk])
      (fun k _ => by rw [textBits, if_neg (by omega)]; congr 1; omega)
  · rw [b6, a4, bytesFrom_length, BitVec.ofNat_add, BitVec.add_assoc]

/-- str_write (R212) when the whole does not fit: WOVF. -/
theorem State.strWrite_full {s : State} {a n : Nat} {w : Writer} (hc : s.cfg.wcap ≤ 65536) (h : w.Inv s.cfg.wcap)
    (hn : n ≤ 255) (hx : a + n ≤ s.cfg.xcap) {len : List Byte} (hl : len = varintEnc (BitVec.ofNat 32 n)) {pad : Nat}
    (hp : pad = padBits (w.bitCount + 8 * len.length))
    (hfull : 8 * s.cfg.wcap < w.bitCount + (8 * len.length + pad + 8 * n)) : s.strWrite a n w = .error .wovf := by
  subst hl
  rw [State.strWrite, if_neg (by unfold maxText; omega), if_neg (by omega)]
  by_cases hfit : ceil8 (w.bitCount + 8 * (varintEnc (BitVec.ofNat 32 n)).length) ≤ s.cfg.wcap
  · obtain ⟨w1, a1, a2, a3, -⟩ := Writer.putBytes_ok (varintEnc (BitVec.ofNat 32 n)) hc h hfit
    rw [a1]
    refine Writer.putRaw_full _ hc a2 ?_
    have := a3.count
    have := a2.pending
    rw [bytesFrom_length]
    unfold Writer.bitCount padBits at *
    omega
  · rw [Writer.putBytes_full _ hc h (by omega)]
    rfl

/-- str_read (R213) after its length varint: the three checks of the text, then the text. -/
theorem State.strRead_spec {s : State} {a n : Nat} {v : Word} {r : Reader} (hc : s.cfg.rcap ≤ 65536)
    (h : r.Inv s.cfg.rcap) (hv : VarintAt r.avail (r.bit s.rbufByte) n v) :
    (255 < v.toNat → s.strRead a r = .error .strlen) ∧
    (v.toNat ≤ 255 → s.cfg.xcap < a + v.toNat → s.strRead a r = .error .xrange) ∧
    (v.toNat ≤ 255 → a + v.toNat ≤ s.cfg.xcap → r.len.toNat < r.cur.toNat + n + v.toNat →
      s.strRead a r = .error .trunc) ∧
    (v.toNat ≤ 255 → a + v.toNat ≤ s.cfg.xcap → r.cur.toNat + n + v.toNat ≤ r.len.toNat →
      ∃ r', s.strRead a r = .ok (v, r', storeBytes s.xbuf a (bytesFrom s.rbufByte (r.cur.toNat + n) v.toNat)) ∧
        r'.Inv s.cfg.rcap ∧ r'.len = r.len ∧ r'.cur.toNat = r.cur.toNat + n + v.toNat ∧ r'.cnt = 0 ∧ r'.acc = 0 ∧
        r'.total = r.total + BitVec.ofNat 32 (8 * n + 8 * v.toNat)) := by
  obtain ⟨r1, a1, a2, a3, a4, a5, a6⟩ := varintDec_stream_ok hc h hv
  have hs : s.strRead a r = if maxText < v.toNat then .error .strlen
      else if s.cfg.xcap < a + v.toNat then .error .xrange
      else (r1.takeRaw s.rbufByte a v.toNat s.xbuf >>= fun t => .ok (v, t.1, t.2)) := by
    rw [State.strRead, a1]; rfl
  have hlen := a3.length
  have hcur := a2.cursor
  rw [hs]
  unfold maxText
  refine ⟨fun h1 => if_pos h1, fun h1 h2 => ?_, fun h1 h2 h3 => ?_, fun h1 h2 h3 => ?_⟩
  · rw [if_neg (by omega), if_pos h2]
  · rw [if_neg (by omega), if_neg (by omega), Reader.takeRaw_short _ (by rw [hlen] at hcur; unfold Reader.left; rw [hlen]; omega)]
    rfl
  · have hl : v.toNat ≤ r1.left := by unfold Reader.left; rw [hlen]; omega
    rw [if_neg (by omega), if_neg (by omega), Reader.takeRaw_ok _ hl]
    obtain ⟨k1, k2⟩ := Reader.skip_inv (n := v.toNat) hc (Reader.align_inv a2) hl rfl
    refine ⟨r1.align.skip v.toNat v.toNat, by rw [a5]; rfl, k1, hlen, by rw [k2]; change r1.cur.toNat + _ = _; omega,
      rfl, rfl, ?_⟩
    change r1.total + _ = _
    rw [a4, BitVec.ofNat_add, BitVec.add_assoc]

/-- str_read (R213) without a length: VTRUNC or VOVERLONG (R182). -/
theorem State.strRead_cut {s : State} {a : Nat} {r : Reader} (hc : s.cfg.rcap ≤ 65536) (h : r.Inv s.cfg.rcap)
    (hv : VarintCut r.avail (r.bit s.rbufByte)) : s.strRead a r = .error .vtrunc := by
  rw [State.strRead, varintDec_stream_cut hc h hv]; rfl

theorem State.strRead_long {s : State} {a : Nat} {r : Reader} (hc : s.cfg.rcap ≤ 65536) (h : r.Inv s.cfg.rcap)
    (hv : VarintLong r.avail (r.bit s.rbufByte)) : s.strRead a r = .error .voverlong := by
  rw [State.strRead, varintDec_stream_long hc h hv]; rfl

/-! The fields of a PlayerState record. -/

/-- The widths of R215, and the boolean's. -/
def playerWidths : List Nat := [10, 10, 10, 7, 9, 2, 1]

/-- The fixed part of a record (R214, R215) as (value, width) pairs. -/
def playerPairs (f : FRegs) : List (Word × Nat) :=
  [(f.f0, 10), (f.f1, 10), (f.f2, 10), (f.f3, 7), (f.f4, 9), (f.f5, 2), (boolWord f.f6, 1)]

/-- The writer role's fixed part is those seven puts. -/
theorem putNumeric_player (cap : Nat) (f : FRegs) (w : Writer) :
    (putNumeric cap f playerNumeric w >>= fun w1 => w1.put cap (boolWord f.f6) 1) = putAll cap (playerPairs f) w := by
  change (w.put cap f.f0 10 >>= fun w => w.put cap f.f1 10 >>= fun w => w.put cap f.f2 10 >>= fun w =>
    w.put cap f.f3 7 >>= fun w => w.put cap f.f4 9 >>= fun w => w.put cap f.f5 2 >>= fun w => Except.ok w) >>= _ = _
  simp only [bind_assoc, playerPairs, putAll, Except.bind_ok]

/-- The 49 bits of R216. -/
theorem pairBits_player (f : FRegs) {k : Nat} (hk : k < 49) : pairBits (playerPairs f) k = playerBits f k := by
  have hb : (boolWord f.f6).getLsbD 0 = decide (f.f6 ≠ 0) := by
    unfold boolWord
    by_cases h : f.f6 = 0
    · rw [if_neg (by simp [h])]; simp [h]
    · rw [if_pos h]; simpa using h
  simp only [playerPairs, pairBits, playerBits]
  by_cases h0 : k < 10
  · rw [if_pos h0, if_pos h0]
  by_cases h1 : k < 20
  · rw [if_neg h0, if_pos (by omega), if_neg h0, if_pos h1]
  by_cases h2 : k < 30
  · rw [if_neg h0, if_neg (by omega), if_pos (by omega), if_neg h0, if_neg h1, if_pos h2]; congr 1
  by_cases h3 : k < 37
  · rw [if_neg h0, if_neg (by omega), if_neg (by omega), if_pos (by omega), if_neg h0, if_neg h1, if_neg h2,
      if_pos h3]; congr 1
  by_cases h4 : k < 46
  · rw [if_neg h0, if_neg (by omega), if_neg (by omega), if_neg (by omega), if_pos (by omega), if_neg h0, if_neg h1,
      if_neg h2, if_neg h3, if_pos h4]; congr 1
  by_cases h5 : k < 48
  · rw [if_neg h0, if_neg (by omega), if_neg (by omega), if_neg (by omega), if_neg (by omega), if_pos (by omega),
      if_neg h0, if_neg h1, if_neg h2, if_neg h3, if_neg h4, if_pos h5]; congr 1
  · obtain rfl : k = 48 := by omega
    simpa using hb

/-- RECENC's puts and string (R219), when they fit: a record as R216 lays it out. -/
theorem State.putPlayer_ok {s : State} (hc : s.cfg.wcap ≤ 65536) (h : s.writer.Inv s.cfg.wcap)
    (hn : s.f.f7.toNat ≤ 255) (hx : s.arg0.toNat + s.f.f7.toNat ≤ s.cfg.xcap) {len : List Byte}
    (hl : len = varintEnc s.f.f7) {pad : Nat} (hp : pad = padBits (s.writer.bitCount + 49 + 8 * len.length))
    (hfit : s.writer.bitCount + (49 + 8 * len.length + pad + 8 * s.f.f7.toNat) ≤ 8 * s.cfg.wcap) :
    ∃ w', s.putPlayer = .ok w' ∧ w'.Inv s.cfg.wcap ∧
      s.writer.Appends w' (49 + 8 * len.length + pad + 8 * s.f.f7.toNat)
        (recordBits s.f len pad (bytesFrom s.xbufByte s.arg0.toNat s.f.f7.toNat)) ∧ w'.cnt = 0 ∧ w'.acc = 0 ∧
      w'.total = s.writer.total + BitVec.ofNat 32 (49 + 8 * len.length + 8 * s.f.f7.toNat) ∧
      s.writer.bytes.toNat ≤ w'.bytes.toNat := by
  have hlen : pairLength (playerPairs s.f) = 49 := rfl
  obtain ⟨w1, a1, a2, a3, a4, a5⟩ := putAll_ok hc (playerPairs s.f) (by simp [playerPairs]) h (by omega)
  rw [hlen] at a3 a4
  obtain ⟨w2, b1, b2, b3, b4, b5, b6, b7⟩ := State.strWrite_ok (a := s.arg0.toNat) (pad := pad) (len := len) hc a2 hn hx
    (by rw [hl]; simp) (by rw [a3.count, hp]) (by rw [a3.count]; omega)
  have hflush : w2.flush = w2 := by rw [Writer.flush, if_pos b4]
  refine ⟨w2, ?_, b2, ?_, b4, b5, ?_, by omega⟩
  · have : s.putPlayer = (putNumeric s.cfg.wcap s.f playerNumeric s.writer >>= fun w1 =>
        w1.put s.cfg.wcap (boolWord s.f.f6) 1) >>= fun w2 =>
        s.strWrite s.arg0.toNat s.f.f7.toNat w2 >>= fun w3 => .ok w3.flush := by
      rw [bind_assoc]; rfl
    rw [this, putNumeric_player, a1]
    change (s.strWrite s.arg0.toNat s.f.f7.toNat w1 >>= fun w3 => Except.ok w3.flush) = _
    rw [b1]
    change Except.ok w2.flush = _
    rw [hflush]
  · rw [show 49 + 8 * len.length + pad + 8 * s.f.f7.toNat = 49 + (8 * len.length + pad + 8 * s.f.f7.toNat) by omega]
    exact a3.trans b3 ⟨a5, b7⟩ (fun k hk => by rw [recordBits, if_pos hk, pairBits_player _ hk])
      (fun k _ => by rw [recordBits, if_neg (by omega)]; congr 1; omega)
  · rw [b6, a4, BitVec.add_assoc, ← BitVec.ofNat_add, Nat.add_assoc]

/-- RECENC's puts and string (R219), when they do not fit: WOVF. -/
theorem State.putPlayer_full {s : State} (hc : s.cfg.wcap ≤ 65536) (h : s.writer.Inv s.cfg.wcap)
    (hn : s.f.f7.toNat ≤ 255) (hx : s.arg0.toNat + s.f.f7.toNat ≤ s.cfg.xcap) {len : List Byte}
    (hl : len = varintEnc s.f.f7) {pad : Nat} (hp : pad = padBits (s.writer.bitCount + 49 + 8 * len.length))
    (hfull : 8 * s.cfg.wcap < s.writer.bitCount + (49 + 8 * len.length + pad + 8 * s.f.f7.toNat)) :
    s.putPlayer = .error .wovf := by
  have hlen : pairLength (playerPairs s.f) = 49 := rfl
  have : s.putPlayer = (putNumeric s.cfg.wcap s.f playerNumeric s.writer >>= fun w1 =>
      w1.put s.cfg.wcap (boolWord s.f.f6) 1) >>= fun w2 =>
      s.strWrite s.arg0.toNat s.f.f7.toNat w2 >>= fun w3 => .ok w3.flush := by
    rw [bind_assoc]; rfl
  rw [this, putNumeric_player]
  by_cases hf : s.writer.bitCount + 49 ≤ 8 * s.cfg.wcap
  · obtain ⟨w1, a1, a2, a3, -⟩ := putAll_ok hc (playerPairs s.f) (by simp [playerPairs]) h (by omega)
    rw [hlen] at a3
    rw [a1]
    change (s.strWrite s.arg0.toNat s.f.f7.toNat w1 >>= fun w3 => Except.ok w3.flush) = _
    rw [State.strWrite_full (pad := pad) (len := len) hc a2 hn hx (by rw [hl]; simp) (by rw [a3.count, hp])
      (by rw [a3.count]; omega)]
    rfl
  · rw [putAll_full hc (playerPairs s.f) (by simp [playerPairs]) h (by omega)]
    rfl

/-- The reader role's fixed part (R220) is seven takes. -/
theorem takeNumeric_player {α : Type} (rd : Nat → Byte) (f : FRegs) (r : Reader)
    (k : FRegs → Word → Reader → Except ErrorCode α) :
    (takeNumeric rd playerNumeric f r >>= fun v => v.2.take rd 1 >>= fun b => k v.1 b.1 b.2) =
      (takeAll rd playerWidths r >>= fun v =>
        k { f0 := v.1.getD 0 0, f1 := v.1.getD 1 0, f2 := v.1.getD 2 0, f3 := v.1.getD 3 0, f4 := v.1.getD 4 0,
            f5 := v.1.getD 5 0, f6 := f.f6, f7 := f.f7 } (v.1.getD 6 0) v.2) := by
  change (r.take rd 10 >>= fun x0 => x0.2.take rd 10 >>= fun x1 => x1.2.take rd 10 >>= fun x2 => x2.2.take rd 7 >>=
    fun x3 => x3.2.take rd 9 >>= fun x4 => x4.2.take rd 2 >>= fun x5 =>
      Except.ok ((((((f.set .f0 x0.1).set .f1 x1.1).set .f2 x2.1).set .f3 x3.1).set .f4 x4.1).set .f5 x5.1, x5.2))
    >>= _ = _
  simp only [bind_assoc, playerWidths, takeAll]
  rfl

/-- The low `n` bits of a field's value, as RECDEC reads them. -/
def fieldBits (v : Word) (n : Nat) : Word := BitVec.ofNat 32 (v.toNat % 2 ^ n)

theorem fieldBits_getLsbD (v : Word) {n : Nat} (hn : n ≤ 32) (j : Nat) :
    (fieldBits v n).getLsbD j = (decide (j < n) && v.getLsbD j) := by
  rw [fieldBits, BitVec.getLsbD_ofNat, Nat.testBit_mod_two_pow, ← BitVec.testBit_toNat]
  by_cases h : j < n
  · simp [h, show j < 32 by omega]
  · simp [h]

theorem fieldBits_toNat (v : Word) {n : Nat} (hn : n ≤ 32) : (fieldBits v n).toNat = v.toNat % 2 ^ n := by
  rw [fieldBits, BitVec.toNat_ofNat]
  exact Nat.mod_eq_of_lt (Nat.lt_of_lt_of_le (Nat.mod_lt _ (Nat.two_pow_pos n)) (Nat.pow_le_pow_right (by decide) hn))

theorem fieldBits_of_lt {v : Word} {n : Nat} (hn : n ≤ 32) (h : v.toNat < 2 ^ n) : fieldBits v n = v := by
  apply BitVec.eq_of_toNat_eq
  rw [fieldBits_toNat v hn, Nat.mod_eq_of_lt h]

/-- A word whose bits below `n` are those of `g` and whose other bits are zero. -/
theorem eq_fieldBits {v g : Word} {n : Nat} (hn : n ≤ 32) (hlo : ∀ j, j < n → v.getLsbD j = g.getLsbD j)
    (hhi : ∀ j, n ≤ j → v.getLsbD j = false) : v = fieldBits g n := by
  apply BitVec.eq_of_getLsbD_eq
  intro j _
  rw [fieldBits_getLsbD g hn]
  by_cases h : j < n
  · simp [h, hlo j h]
  · simp [h, hhi j (by omega)]

/-- The seven words RECDEC takes from bits laid out as those of `g` (R216). -/
def playerWords (g : FRegs) : List Word :=
  [fieldBits g.f0 10, fieldBits g.f1 10, fieldBits g.f2 10, fieldBits g.f3 7, fieldBits g.f4 9, fieldBits g.f5 2,
    boolWord g.f6]

theorem takeAll_player {cap : Nat} {rd : Nat → Byte} {g : FRegs} (hc : cap ≤ 65536) {r : Reader} (h : r.Inv cap)
    (hav : 49 ≤ r.avail) (hg : ∀ k, k < 49 → r.bit rd k = playerBits g k) :
    ∃ r', takeAll rd playerWidths r = .ok (playerWords g, r') ∧ r'.Inv cap ∧ r.Consumes rd r' 49 ∧
      r'.total = r.total + BitVec.ofNat 32 49 ∧ r'.cur.toNat = r.cur.toNat + ceil8 (49 - r.cnt.toNat) := by
  have hsum : playerWidths.sum = 49 := rfl
  obtain ⟨vs, r', a1, a2, a3, a4, a5, a6, a7, a8⟩ := takeAll_ok (rd := rd) hc playerWidths (by decide) h (by omega)
  rw [hsum] at a3 a4 a5 a7
  refine ⟨r', ?_, a2, a3, a4, a5⟩
  rw [a1]
  obtain ⟨v0, v1, v2, v3, v4, v5, v6, rfl⟩ : ∃ v0 v1 v2 v3 v4 v5 v6, vs = [v0, v1, v2, v3, v4, v5, v6] := by
    match vs, a6 with
    | [v0, v1, v2, v3, v4, v5, v6], _ => exact ⟨v0, v1, v2, v3, v4, v5, v6, rfl⟩
  have hb : ∀ k, k < 49 → pairBits (List.zip [v0, v1, v2, v3, v4, v5, v6] playerWidths) k = playerBits g k :=
    fun k hk => (a7 k hk).trans (hg k hk)
  simp only [playerWidths, List.zip_cons_cons, List.zip_nil_right, List.mem_cons, List.not_mem_nil, or_false,
    forall_eq_or_imp, forall_eq] at hb a8
  obtain ⟨z0, z1, z2, z3, z4, z5, z6⟩ := a8
  have e0 : v0 = fieldBits g.f0 10 := eq_fieldBits (by omega) (fun j hj => by
    have := hb j (by omega)
    simpa [pairBits, playerBits, hj] using this) z0
  have e1 : v1 = fieldBits g.f1 10 := eq_fieldBits (by omega) (fun j hj => by
    have := hb (10 + j) (by omega)
    simpa [pairBits, playerBits, hj, show 10 + j < 20 by omega] using this) z1
  have e2 : v2 = fieldBits g.f2 10 := eq_fieldBits (by omega) (fun j hj => by
    have := hb (20 + j) (by omega)
    simpa [pairBits, playerBits, hj, show ¬ 20 + j < 10 by omega, show 20 + j - 10 - 10 = j by omega,
      show ¬ 20 + j - 10 < 10 by omega, show 20 + j < 30 by omega] using this) z2
  have e3 : v3 = fieldBits g.f3 7 := eq_fieldBits (by omega) (fun j hj => by
    have := hb (30 + j) (by omega)
    simpa [pairBits, playerBits, hj, show ¬ 30 + j < 10 by omega, show ¬ 30 + j - 10 < 10 by omega,
      show ¬ 30 + j - 10 - 10 < 10 by omega, show 30 + j - 10 - 10 - 10 = j by omega, show ¬ 30 + j < 20 by omega,
      show 30 + j < 37 by omega] using this) z3
  have e4 : v4 = fieldBits g.f4 9 := eq_fieldBits (by omega) (fun j hj => by
    have := hb (37 + j) (by omega)
    simpa [pairBits, playerBits, hj, show ¬ 37 + j < 10 by omega, show ¬ 37 + j - 10 < 10 by omega,
      show ¬ 37 + j - 10 - 10 < 10 by omega, show ¬ 37 + j - 10 - 10 - 10 < 7 by omega,
      show 37 + j - 10 - 10 - 10 - 7 = j by omega, show ¬ 37 + j < 20 by omega, show ¬ 37 + j < 30 by omega,
      show 37 + j < 46 by omega] using this) z4
  have e5 : v5 = fieldBits g.f5 2 := eq_fieldBits (by omega) (fun j hj => by
    have := hb (46 + j) (by omega)
    simpa [pairBits, playerBits, hj, show ¬ 46 + j < 10 by omega, show ¬ 46 + j - 10 < 10 by omega,
      show ¬ 46 + j - 10 - 10 < 10 by omega, show ¬ 46 + j - 10 - 10 - 10 < 7 by omega,
      show ¬ 46 + j - 10 - 10 - 10 - 7 < 9 by omega, show 46 + j - 10 - 10 - 10 - 7 - 9 = j by omega,
      show ¬ 46 + j < 20 by omega, show ¬ 46 + j < 30 by omega, show ¬ 46 + j < 37 by omega,
      show 46 + j < 48 by omega] using this) z5
  have e6 : v6 = boolWord g.f6 := by
    apply BitVec.eq_of_getLsbD_eq
    intro j _
    by_cases hj : 1 ≤ j
    · rw [z6 j hj]
      unfold boolWord
      split
      · rw [getLsbD_of_toNat_lt (c := 1) (by decide) hj]
      · rw [getLsbD_of_toNat_lt (c := 1) (by decide) hj]
    · obtain rfl : j = 0 := by omega
      have h48 := pairBits_player g (k := 48) (by omega)
      rw [← hb 48 (by omega)] at h48
      simpa [playerPairs, pairBits] using h48.symm
  rw [e0, e1, e2, e3, e4, e5, e6]
  rfl

/-- The field registers after RECDEC's fixed part, over the old F7. -/
def playerFields (g f : FRegs) : FRegs where
  f0 := fieldBits g.f0 10
  f1 := fieldBits g.f1 10
  f2 := fieldBits g.f2 10
  f3 := fieldBits g.f3 7
  f4 := fieldBits g.f4 9
  f5 := fieldBits g.f5 2
  f6 := f.f6
  f7 := f.f7

/-- RECDEC's takes, range check and string (R220), on bits laid out as those of `g`. -/
theorem State.takePlayer_eq {s : State} {g : FRegs} (hc : s.cfg.rcap ≤ 65536) (h : s.reader.Inv s.cfg.rcap)
    (hav : 49 ≤ s.reader.avail) (hg : ∀ k, k < 49 → s.reader.bit s.rbufByte k = playerBits g k) :
    ∃ r1, r1.Inv s.cfg.rcap ∧ s.reader.Consumes s.rbufByte r1 49 ∧
      r1.total = s.reader.total + BitVec.ofNat 32 49 ∧
      r1.cur.toNat = s.reader.cur.toNat + ceil8 (49 - s.reader.cnt.toNat) ∧
      s.takePlayer = if 100 < g.f3.toNat % 128 ∨ 359 < g.f4.toNat % 512 then .error .range
        else s.strRead s.arg0.toNat r1 >>= fun t =>
          .ok (((playerFields g s.f).set .f6 (boolWord g.f6)).set .f7 t.1, t.2.1, t.2.2) := by
  obtain ⟨r1, a1, a2, a3, a4, a5⟩ := takeAll_player hc h hav hg
  refine ⟨r1, a2, a3, a4, a5, ?_⟩
  have hbw : boolWord (boolWord g.f6) = boolWord g.f6 := by
    unfold boolWord; split <;> simp
  have key := takeNumeric_player s.rbufByte s.f s.reader fun v b r2 =>
    if inRange playerNumeric v = false then Except.error ErrorCode.range
    else s.strRead s.arg0.toNat r2 >>= fun t => Except.ok ((v.set .f6 (boolWord b)).set .f7 t.1, t.2.1, t.2.2)
  rw [a1] at key
  have hin : inRange playerNumeric (playerFields g s.f) = !decide (100 < g.f3.toNat % 128 ∨ 359 < g.f4.toNat % 512) := by
    have h0 := fieldBits_toNat g.f0 (n := 10) (by omega)
    have h1 := fieldBits_toNat g.f1 (n := 10) (by omega)
    have h2 := fieldBits_toNat g.f2 (n := 10) (by omega)
    have h3 := fieldBits_toNat g.f3 (n := 7) (by omega)
    have h4 := fieldBits_toNat g.f4 (n := 9) (by omega)
    have h5 := fieldBits_toNat g.f5 (n := 2) (by omega)
    rw [Bool.eq_iff_iff]
    simp only [inRange, playerNumeric, List.all_cons, List.all_nil, Bool.and_true, NumericField.admits, FRegs.get,
      playerFields, Bool.and_eq_true, decide_eq_true_eq, h0, h1, h2, h3, h4, h5, Bool.not_eq_true', decide_eq_false_iff_not]
    omega
  have : s.takePlayer = if inRange playerNumeric (playerFields g s.f) = false then Except.error ErrorCode.range
      else s.strRead s.arg0.toNat r1 >>= fun t =>
        Except.ok (((playerFields g s.f).set .f6 (boolWord (boolWord g.f6))).set .f7 t.1, t.2.1, t.2.2) := key
  rw [this, hin, hbw]
  by_cases hr : 100 < g.f3.toNat % 128 ∨ 359 < g.f4.toNat % 512
  · rw [decide_eq_true hr, if_pos (by decide), if_pos hr]
  · rw [decide_eq_false hr, if_neg (by decide), if_neg hr]

/-- RECDEC's takes with fewer than 49 unread bits (R220): UNDERRUN. -/
theorem State.takePlayer_short {s : State} (hc : s.cfg.rcap ≤ 65536) (h : s.reader.Inv s.cfg.rcap)
    (hav : s.reader.avail < 49) : s.takePlayer = .error .underrun := by
  have key := takeNumeric_player s.rbufByte s.f s.reader fun v b r2 =>
    if inRange playerNumeric v = false then Except.error ErrorCode.range
    else s.strRead s.arg0.toNat r2 >>= fun t => Except.ok ((v.set .f6 (boolWord b)).set .f7 t.1, t.2.1, t.2.2)
  rw [takeAll_short hc playerWidths (by decide) h hav] at key
  exact key

end Sys2Proof.Machine
end

