-- ==== Sys2Proof/Laws/TaggedWire.lean ====
section
/-! SUPPORT. What the tagged-wire family's shared operations do, said once: a varint decoded from a region, one (tag,
value) pair walked, a walk over a run of pairs, and what they leave of TWDEC. -/

namespace Sys2Proof.Machine

/-! A region that holds given bytes. -/

/-- The bytes from `p` on are `bs`. -/
def HoldsAt (rd : Nat → Byte) (p : Nat) (bs : List Byte) : Prop := bytesFrom rd p bs.length = bs

theorem bytesFrom_append (rd : Nat → Byte) (p a b : Nat) :
    bytesFrom rd p (a + b) = bytesFrom rd p a ++ bytesFrom rd (p + a) b := by
  simp [bytesFrom, List.range_add, Nat.add_assoc]

theorem HoldsAt.append {rd : Nat → Byte} {p : Nat} {a b : List Byte} :
    HoldsAt rd p (a ++ b) ↔ HoldsAt rd p a ∧ HoldsAt rd (p + a.length) b := by
  unfold HoldsAt
  rw [List.length_append, bytesFrom_append]
  constructor
  · intro h
    exact List.append_inj h (by simp)
  · rintro ⟨h1, h2⟩
    rw [h1, h2]

theorem HoldsAt.cons {rd : Nat → Byte} {p : Nat} {b : Byte} {bs : List Byte} :
    HoldsAt rd p (b :: bs) ↔ rd p = b ∧ HoldsAt rd (p + 1) bs := by
  rw [show b :: bs = [b] ++ bs from rfl, HoldsAt.append]
  simp [HoldsAt, bytesFrom]

/-! A varint from a region. -/

theorem regionNext_some {rd : Nat → Byte} {hi q : Nat} (h : q < hi) : regionNext rd hi q = some (rd q, q + 1) := by
  rw [regionNext, if_pos h]

theorem regionNext_none {rd : Nat → Byte} {hi q : Nat} (h : hi ≤ q) : regionNext rd hi q = none := by
  rw [regionNext, if_neg (Nat.not_lt.2 h)]

/-- A byte with its continuation flag, put before more bytes. -/
theorem flagsEnd_cons {b : Byte} {bs : List Byte} (h : bs ≠ []) : flagsEnd (b :: bs) = (b.getLsbD 7 && flagsEnd bs) := by
  cases bs with
  | nil => exact absurd rfl h
  | cons c cs => rfl

/-- A varint byte's data bits are its value mod 2^7. -/
theorem group_ofNat (b : Byte) : (b &&& 0x7F).setWidth 32 = BitVec.ofNat 32 (b.toNat % 2 ^ 7) := by
  apply BitVec.eq_of_toNat_eq
  rw [BitVec.toNat_setWidth, BitVec.toNat_and, BitVec.toNat_ofNat]
  exact congrArg (· % 2 ^ 32) (Nat.and_two_pow_sub_one_eq_mod b.toNat 7)

/-- The lowest group and the groups above it, at their places. -/
theorem groupsValue_cons (b : Byte) (bs : List Byte) (i : Nat) :
    ((b &&& 0x7F).setWidth 32 <<< (7 * i)) ||| BitVec.ofNat 32 (groupsValue bs) <<< (7 * (i + 1)) =
      BitVec.ofNat 32 (groupsValue (b :: bs)) <<< (7 * i) := by
  rw [show 7 * (i + 1) = 7 + 7 * i by omega, BitVec.shiftLeft_add, ← BitVec.shiftLeft_or_distrib, group_ofNat]
  congr 1
  apply BitVec.eq_of_getLsbD_eq
  intro j hj
  have hlt : b.toNat % 2 ^ 7 < 2 ^ 7 := Nat.mod_lt _ (by decide)
  rw [groupsValue, Nat.add_comm]
  simp only [BitVec.getLsbD_or, BitVec.getLsbD_shiftLeft, BitVec.getLsbD_ofNat, Nat.testBit_two_pow_mul_add _ hlt]
  by_cases h7 : j < 7
  · simp [h7]
  · have h0 : (b.toNat % 2 ^ 7).testBit j = false :=
      Nat.testBit_lt_two_pow (Nat.lt_of_lt_of_le hlt (Nat.pow_le_pow_right (by decide) (by omega)))
    rw [h0]
    simp [h7, hj, show j - 7 < 32 by omega]

theorem varintDecLoop_region {rd : Nat → Byte} {hi : Nat} (bs : List Byte) (f i : Nat) (acc : Word) {p : Nat}
    (hf : bs.length ≤ f) (hb : flagsEnd bs = true) (hh : HoldsAt rd p bs) (hp : p + bs.length ≤ hi) :
    varintDecLoop (regionNext rd hi) f acc i p =
      .ok (acc ||| varintWord bs <<< (7 * i), i + bs.length, p + bs.length) := by
  induction bs generalizing f i acc p with
  | nil => exact absurd hb (by decide)
  | cons b bs ih =>
    rw [HoldsAt.cons] at hh
    rw [List.length_cons] at hf hp ⊢
    obtain ⟨f, rfl⟩ : ∃ g, f = g + 1 := ⟨f - 1, by omega⟩
    rw [varintDecLoop, regionNext_some (by omega), hh.1]
    simp only
    by_cases hn : bs = []
    · subst hn
      have h7 : b.getLsbD 7 = false := by simpa [flagsEnd] using hb
      rw [if_neg (by rw [h7]; decide), group_ofNat]
      rfl
    · rw [flagsEnd_cons hn, Bool.and_eq_true] at hb
      rw [if_pos hb.1, ih f (i + 1) _ (by omega) hb.2 hh.2 (by omega), BitVec.or_assoc, varintWord, groupsValue_cons]
      congr 3 <;> omega

/-- varint_dec over a region that holds a varint, in any form (R182). -/
theorem regionVarint_ok {rd : Nat → Byte} {hi p : Nat} {bs : List Byte} (hb : varintOk bs = true) (hh : HoldsAt rd p bs)
    (hp : p + bs.length ≤ hi) : regionVarint rd hi p = .ok (varintWord bs, p + bs.length) := by
  simp only [varintOk, Bool.and_eq_true, decide_eq_true_eq] at hb
  rw [regionVarint, varintDec, varintDecLoop_region bs 5 0 0 hb.1 hb.2 hh hp]
  simp [Except.map]

theorem varintEncLoop_groups (f : Nat) (v : Word) (hv : v.toNat < 2 ^ (7 * (f + 1))) :
    flagsEnd (varintEncLoop (f + 1) v) = true ∧ groupsValue (varintEncLoop (f + 1) v) = v.toNat := by
  have hsh : (v >>> 7).toNat = v.toNat / 2 ^ 7 := by rw [BitVec.toNat_ushiftRight, Nat.shiftRight_eq_div_pow]
  by_cases h0 : v >>> 7 = 0
  · have hlt : v.toNat < 2 ^ 7 := by
      have := congrArg BitVec.toNat h0
      rw [hsh] at this
      change _ = 0 at this
      omega
    rw [varintEncLoop, if_neg (fun h => h h0)]
    constructor
    · rw [flagsEnd, BitVec.getLsbD_setWidth, getLsbD_of_toNat_lt (c := 7) hlt (by omega)]; rfl
    · simp only [groupsValue, BitVec.toNat_setWidth]; omega
  · cases f with
    | zero =>
      refine absurd (BitVec.eq_of_toNat_eq ?_) h0
      rw [hsh]
      change _ = 0
      omega
    | succ f =>
      obtain ⟨g1, g2⟩ := varintEncLoop_groups f (v >>> 7) (by
        rw [hsh]
        refine Nat.div_lt_of_lt_mul ?_
        rw [← Nat.pow_add]
        rwa [show 7 + 7 * (f + 1) = 7 * (f + 1 + 1) by omega])
      have hne : varintEncLoop (f + 1) (v >>> 7) ≠ [] := by intro h; rw [h] at g1; exact absurd g1 (by decide)
      rw [varintEncLoop, if_pos h0, flagsEnd_cons hne, groupsValue, g1, g2, hsh, BitVec.getLsbD_or,
        show (0x80 : Byte).getLsbD 7 = true by decide]
      refine ⟨rfl, ?_⟩
      have : (0x80 ||| v.setWidth 8 : Byte).toNat % 2 ^ 7 = v.toNat % 2 ^ 7 := by
        rw [BitVec.toNat_or, Nat.or_mod_two_pow, BitVec.toNat_setWidth]
        change 0 ||| _ = _
        rw [Nat.zero_or]
        omega
      rw [this]
      omega

/-- varint_enc gives a varint of its operand (R181). -/
theorem varintEnc_ok (v : Word) : varintOk (varintEnc v) = true ∧ varintWord (varintEnc v) = v := by
  obtain ⟨g1, g2⟩ := varintEncLoop_groups 4 v (by have := v.isLt; omega)
  constructor
  · rw [varintOk, Bool.and_eq_true, decide_eq_true_eq]
    exact ⟨(varintEnc_spec v).2.1, g1⟩
  · rw [varintWord, varintEnc, g2]; simp

/-- varint_dec over a region that holds varint_enc(v) (R181, R182). -/
theorem regionVarint_enc {rd : Nat → Byte} {hi p : Nat} {v : Word} (hh : HoldsAt rd p (varintEnc v))
    (hp : p + (varintEnc v).length ≤ hi) : regionVarint rd hi p = .ok (v, p + (varintEnc v).length) := by
  rw [regionVarint_ok (varintEnc_ok v).1 hh hp, (varintEnc_ok v).2]

theorem varintDecLoop_region_cut {rd : Nat → Byte} {hi : Nat} (f i : Nat) (acc : Word) {p : Nat} (hf : hi - p < f)
    (hb : ∀ q, p ≤ q → q < hi → (rd q).getLsbD 7 = true) :
    varintDecLoop (regionNext rd hi) f acc i p = .error .vtrunc := by
  induction f generalizing i acc p with
  | zero => omega
  | succ f ih =>
    by_cases hp : p < hi
    · rw [varintDecLoop, regionNext_some hp]
      simp only [hb p (Nat.le_refl p) hp, if_true]
      exact ih _ _ (by omega) fun q h1 h2 => hb q (by omega) h2
    · rw [varintDecLoop, regionNext_none (by omega)]

/-- A varint that runs to the end of its region (R182, R253). -/
theorem regionVarint_cut {rd : Nat → Byte} {hi p : Nat} (hf : hi - p < 5)
    (hb : ∀ q, p ≤ q → q < hi → (rd q).getLsbD 7 = true) : regionVarint rd hi p = .error .vtrunc := by
  rw [regionVarint, varintDec, varintDecLoop_region_cut 5 0 0 hf hb]; rfl

theorem varintDecLoop_region_long {rd : Nat → Byte} {hi : Nat} (f i : Nat) (acc : Word) {p : Nat} (hf : p + f ≤ hi)
    (hb : ∀ q, p ≤ q → q < p + f → (rd q).getLsbD 7 = true) :
    varintDecLoop (regionNext rd hi) f acc i p = .error .voverlong := by
  induction f generalizing i acc p with
  | zero => rfl
  | succ f ih =>
    rw [varintDecLoop, regionNext_some (by omega)]
    simp only [hb p (Nat.le_refl p) (by omega), if_true]
    exact ih _ _ (by omega) fun q h1 h2 => hb q (by omega) (by omega)

/-- Five continuation flags in a row (R182, R253). -/
theorem regionVarint_long {rd : Nat → Byte} {hi p : Nat} (hf : p + 5 ≤ hi)
    (hb : ∀ q, p ≤ q → q < p + 5 → (rd q).getLsbD 7 = true) : regionVarint rd hi p = .error .voverlong := by
  rw [regionVarint, varintDec, varintDecLoop_region_long 5 0 0 hf hb]; rfl

/-! Words and tags. -/

/-- le32 inverts le32bytes (R12). -/
theorem le32At_bytes {rd : Nat → Byte} {p : Nat} {v : Word} (h : HoldsAt rd p (le32Bytes v)) : le32At rd p = v := by
  simp only [le32Bytes, HoldsAt.cons, Nat.add_assoc] at h
  obtain ⟨h0, h1, h2, h3, -⟩ := h
  rw [le32At, h0, h1, h2, h3]
  apply BitVec.eq_of_getLsbD_eq
  intro j hj
  simp only [BitVec.getLsbD_append, BitVec.getLsbD_extractLsb']
  by_cases a0 : j < 8
  · simp [a0]
  · by_cases a1 : j < 16
    · simp [a0, show j - 8 < 8 by omega, show 8 + (j - 8) = j by omega]
    · by_cases a2 : j < 24
      · simp [a0, show ¬ j - 8 < 8 by omega, show j - 8 - 8 < 8 by omega, show 16 + (j - 8 - 8) = j by omega]
      · simp [a0, show ¬ j - 8 < 8 by omega, show ¬ j - 8 - 8 < 8 by omega, show j - 8 - 8 - 8 < 8 by omega,
          show 24 + (j - 8 - 8 - 8) = j by omega]

/-- parse_tag of a tag (R243). -/
theorem tagField_tag {v : Word} {n t : Nat} (h : v.toNat = 8 * n + t) (ht : t < 8) : (tagField v).toNat = n := by
  rw [tagField, BitVec.toNat_ushiftRight, Nat.shiftRight_eq_div_pow, h]
  omega

theorem tagWire_tag {v : Word} {n t : Nat} (h : v.toNat = 8 * n + t) (ht : t < 8) : (tagWire v).toNat = t := by
  rw [tagWire, BitVec.toNat_and, h]
  change _ &&& (2 ^ 3 - 1) = _
  rw [Nat.and_two_pow_sub_one_eq_mod]
  omega

theorem varintOk_length_pos {bs : List Byte} (h : varintOk bs = true) : 1 ≤ bs.length := by
  cases bs with
  | nil => exact absurd h (by decide)
  | cons b bs => simp

theorem varintEnc_length_pos (v : Word) : 1 ≤ (varintEnc v).length := (varintEnc_spec v).1

/-! One pair. -/

section pair
variable {rd : Nat → Byte} {sub : Nat → Nat → ObjectRec → Except ErrorCode ObjectRec} {l : Level} {hi p : Nat}
  {o : ObjectRec}

/-- The walk of one pair behind its tag (R251). -/
theorem walkField_tag {tag : List Byte} {n t : Nat} (hk : varintOk tag = true) (hv : (varintWord tag).toNat = 8 * n + t)
    (ht : t < 8) (hh : HoldsAt rd p tag) (hp : p + tag.length ≤ hi) :
    walkField rd sub l hi p o =
      match WireType.ofNumber t with
      | none => .error .wiretype
      | some wt =>
        match schemaKind l n with
        | none => walkValue rd sub hi (p + tag.length) none wt o
        | some k => if k.wire = wt then walkValue rd sub hi (p + tag.length) (some k) wt o else .error .wiretype := by
  rw [walkField, regionVarint_ok hk hh hp]
  obtain rfl := tagField_tag hv ht
  obtain rfl := tagWire_tag hv ht
  rfl

/-- The pairs the walk accepts: a wire type with a width, and the schema's for a known field (R253). -/
def Level.Allows (l : Level) (n : Nat) (wt : WireType) : Prop := ∀ k, schemaKind l n = some k → k.wire = wt

/-- An accepted pair is walked by its value (R251). -/
theorem walkField_value {tag : List Byte} {n t : Nat} {wt : WireType} (hk : varintOk tag = true)
    (hv : (varintWord tag).toNat = 8 * n + t) (ht : t < 8) (hw : WireType.ofNumber t = some wt) (ha : l.Allows n wt)
    (hh : HoldsAt rd p tag) (hp : p + tag.length ≤ hi) :
    walkField rd sub l hi p o = walkValue rd sub hi (p + tag.length) (schemaKind l n) wt o := by
  rw [walkField_tag hk hv ht hh hp, hw]
  cases h : schemaKind l n with
  | none => rfl
  | some k => exact if_pos (ha k h)

/-- A tag the walk refuses (R253): a wire type with no width, or a known field with another wire type. -/
theorem walkField_wiretype {tag : List Byte} {n t : Nat} (hk : varintOk tag = true)
    (hv : (varintWord tag).toNat = 8 * n + t) (ht : t < 8)
    (hbad : WireType.ofNumber t = none ∨ ∃ wt k, WireType.ofNumber t = some wt ∧ schemaKind l n = some k ∧ k.wire ≠ wt)
    (hh : HoldsAt rd p tag) (hp : p + tag.length ≤ hi) : walkField rd sub l hi p o = .error .wiretype := by
  rw [walkField_tag hk hv ht hh hp]
  rcases hbad with h | ⟨wt, k, h1, h2, h3⟩
  · rw [h]
  · rw [h1, h2]
    exact if_neg h3

/-! A value behind an accepted tag (R251, R252). -/

theorem walkValue_varint {bs : List Byte} {k : Option FieldKind} (hb : varintOk bs = true) (hh : HoldsAt rd p bs)
    (hp : p + bs.length ≤ hi) :
    walkValue rd sub hi p k .varint o = .ok (storeValue k (varintWord bs) o, p + bs.length) := by
  rw [walkValue, regionVarint_ok hb hh hp]; rfl

theorem walkValue_i64 {k : Option FieldKind} (hp : p + 8 ≤ hi) : walkValue rd sub hi p k .i64 o = .ok (o, p + 8) := by
  rw [walkValue, if_neg (by omega)]

theorem walkValue_i32 {v : Word} {k : Option FieldKind} (hh : HoldsAt rd p (le32Bytes v)) (hp : p + 4 ≤ hi) :
    walkValue rd sub hi p k .i32 o = .ok (storeValue k v o, p + 4) := by
  rw [walkValue, if_neg (by omega), le32At_bytes hh]

theorem walkValue_len {pre bs : List Byte} {k : Option FieldKind} (hb : varintOk pre = true)
    (hl : (varintWord pre).toNat = bs.length) (hh : HoldsAt rd p pre) (hp : p + (pre ++ bs).length ≤ hi) :
    walkValue rd sub hi p k .len o =
      if k = none then .ok (o, p + (pre ++ bs).length)
      else (sub (p + pre.length) (p + pre.length + bs.length) o).map fun o' => (o', p + (pre ++ bs).length) := by
  rw [List.length_append] at hp ⊢
  rw [walkValue, regionVarint_ok hb hh (by omega)]
  change (if hi - (p + pre.length) < (varintWord pre).toNat then _ else _) = _
  simp only [hl]
  rw [if_neg (by omega)]
  by_cases hk : k = none
  · rw [if_pos hk, if_pos hk, Nat.add_assoc]
  · rw [if_neg hk, if_neg hk, Nat.add_assoc]
    cases sub (p + pre.length) (p + (pre.length + bs.length)) o <;> rfl

/-- A pair the walk skips: any unknown field, by the width of its wire type (R252). -/
theorem walkField_unknown (x : WireField) (hx : x.ok = true) (hk : schemaKind l x.number = none)
    (hh : HoldsAt rd p x.bytes) (hp : p + x.bytes.length ≤ hi) :
    walkField rd sub l hi p o = .ok (o, p + x.bytes.length) := by
  obtain ⟨tag, v⟩ := x
  simp only [WireField.ok, Bool.and_eq_true, decide_eq_true_eq] at hx
  obtain ⟨⟨ht, hw⟩, hv⟩ := hx
  have hn : (varintWord tag).toNat = 8 * WireField.number ⟨tag, v⟩ + v.number := by
    simp only [WireField.number]; omega
  generalize WireField.number ⟨tag, v⟩ = n at hk hn
  have h8 : v.number < 8 := by cases v <;> simp [WireValue.number]
  have ha : ∀ wt, l.Allows n wt := fun wt k h => by rw [hk] at h; cases h
  simp only [WireField.bytes, HoldsAt.append, List.length_append] at hh hp ⊢
  cases v with
  | varint bs =>
    simp only [WireValue.bytes, WireValue.ok] at hh hp hv ⊢
    rw [walkField_value (wt := .varint) ht hn h8 rfl (ha _) hh.1 (by omega), hk,
      walkValue_varint hv hh.2 (by omega), Nat.add_assoc]
    rfl
  | i64 a b =>
    have hl : (WireValue.bytes (.i64 a b)).length = 8 := rfl
    rw [hl] at hp ⊢
    rw [walkField_value (wt := .i64) ht hn h8 rfl (ha _) hh.1 (by omega), hk, walkValue_i64 (by omega),
      Nat.add_assoc]
  | len pre body =>
    simp only [WireValue.bytes, WireValue.ok, Bool.and_eq_true, decide_eq_true_eq] at hh hp hv ⊢
    rw [walkField_value (wt := .len) ht hn h8 rfl (ha _) hh.1 (by omega), hk,
      walkValue_len hv.1 hv.2 (HoldsAt.append.1 hh.2).1 (by omega), if_pos rfl, Nat.add_assoc]
  | i32 v =>
    have hl : (WireValue.bytes (.i32 v)).length = 4 := rfl
    rw [hl] at hp ⊢
    rw [walkField_value (wt := .i32) ht hn h8 rfl (ha _) hh.1 (by omega), hk, walkValue_i32 hh.2 (by omega),
      Nat.add_assoc]
    rfl

/-- A known VARINT field (R251, R253). -/
theorem walkField_varint {tag bs : List Byte} {n : Nat} {j : Slot} (ht : varintOk tag = true)
    (hv : (varintWord tag).toNat = 8 * n + 0) (hk : schemaKind l n = some (.scalar j)) (hb : varintOk bs = true)
    (hh : HoldsAt rd p (tag ++ bs)) (hp : p + (tag ++ bs).length ≤ hi) :
    walkField rd sub l hi p o = .ok (o.set j (varintWord bs), p + (tag ++ bs).length) := by
  rw [HoldsAt.append] at hh
  rw [List.length_append] at hp ⊢
  rw [walkField_value (wt := .varint) ht hv (by decide) rfl (fun k h => by rw [hk] at h; cases h; rfl) hh.1 (by omega), hk,
    walkValue_varint hb hh.2 (by omega), Nat.add_assoc]
  rfl

/-- A known I32 field (R251, R253). -/
theorem walkField_i32 {tag : List Byte} {v : Word} {n : Nat} {j : Slot} (ht : varintOk tag = true)
    (hv : (varintWord tag).toNat = 8 * n + 5) (hk : schemaKind l n = some (.float j))
    (hh : HoldsAt rd p (tag ++ le32Bytes v)) (hp : p + (tag ++ le32Bytes v).length ≤ hi) :
    walkField rd sub l hi p o = .ok (o.set j v, p + (tag ++ le32Bytes v).length) := by
  rw [HoldsAt.append] at hh
  rw [List.length_append, show (le32Bytes v).length = 4 from rfl] at hp ⊢
  rw [walkField_value (wt := .i32) ht hv (by decide) rfl (fun k h => by rw [hk] at h; cases h; rfl) hh.1 (by omega), hk,
    walkValue_i32 hh.2 (by omega), Nat.add_assoc]
  rfl

/-- A known LEN field: its body is walked (R251). -/
theorem walkField_len {tag pre bs : List Byte} {n : Nat} {r : Except ErrorCode ObjectRec} (ht : varintOk tag = true)
    (hv : (varintWord tag).toNat = 8 * n + 2) (hk : schemaKind l n = some .message) (hb : varintOk pre = true)
    (hl : (varintWord pre).toNat = bs.length) (hh : HoldsAt rd p (tag ++ (pre ++ bs)))
    (hp : p + (tag ++ (pre ++ bs)).length ≤ hi)
    (hs : ∀ q, q + bs.length ≤ hi → HoldsAt rd q bs → sub q (q + bs.length) o = r) :
    walkField rd sub l hi p o = r.map fun o' => (o', p + (tag ++ (pre ++ bs)).length) := by
  rw [HoldsAt.append, HoldsAt.append] at hh
  rw [List.length_append] at hp ⊢
  rw [walkField_value (wt := .len) ht hv (by decide) rfl (fun k h => by rw [hk] at h; cases h; rfl) hh.1 (by omega), hk,
    walkValue_len hb hl hh.2.1 (by omega), if_neg (by simp), hs _ (by rw [List.length_append] at hp; omega) hh.2.2]
  rw [Nat.add_assoc]

/-! A pair that breaks off (R253). -/

/-- The bytes of a list that the region holds. -/
theorem HoldsAt.mem {bs : List Byte} (h : HoldsAt rd p bs) {q : Nat} (h1 : p ≤ q) (h2 : q < p + bs.length) :
    rd q ∈ bs := by
  rw [← h, bytesFrom, List.mem_map]
  exact ⟨q - p, List.mem_range.2 (by omega), by congr 1; omega⟩

theorem regionVarint_bytesCut {bs : List Byte} (hc : BytesCut bs) (hh : HoldsAt rd p bs) (hp : p + bs.length = hi) :
    regionVarint rd hi p = .error .vtrunc :=
  regionVarint_cut (by have := hc.1; omega) fun q h1 h2 => hc.2 _ (hh.mem h1 (by omega))

theorem regionVarint_bytesLong {bs : List Byte} (hc : BytesLong bs) (hh : HoldsAt rd p bs) (hp : p + bs.length = hi) :
    regionVarint rd hi p = .error .voverlong := by
  have h5 : HoldsAt rd p (bs.take 5) := by
    have := hh
    rw [← List.take_append_drop 5 bs, HoldsAt.append] at this
    exact this.1
  have hl : (bs.take 5).length = 5 := by rw [List.length_take]; have := hc.1; omega
  exact regionVarint_long (by have := hc.1; omega) fun q h1 h2 => hc.2 _ (h5.mem h1 (by omega))

/-- The walk of a pair that breaks off stops with its error, at either level. -/
theorem walkField_breaks {allows : Nat → Nat → Prop} {bs : List Byte} {code : BitVec 8} (hb : BreaksOff allows bs code)
    (ha : ∀ n t wt, allows n t → WireType.ofNumber t = some wt → l.Allows n wt) (hh : HoldsAt rd p bs)
    (hp : p + bs.length = hi) : ∃ e, e.code = code ∧ walkField rd sub l hi p o = .error e := by
  cases hb with
  | tagCut _ hc => exact ⟨.vtrunc, rfl, by rw [walkField, regionVarint_bytesCut hc hh hp]; rfl⟩
  | tagLong hc => exact ⟨.voverlong, rfl, by rw [walkField, regionVarint_bytesLong hc hh hp]; rfl⟩
  | varintCut ht hv hal hc =>
    rw [HoldsAt.append] at hh
    rw [List.length_append] at hp
    refine ⟨.vtrunc, rfl, ?_⟩
    rw [walkField_value (wt := .varint) ht hv (by decide) rfl (ha _ _ _ hal rfl) hh.1 (by omega), walkValue,
      regionVarint_bytesCut hc hh.2 (by omega)]
    rfl
  | varintLong ht hv hal hc =>
    rw [HoldsAt.append] at hh
    rw [List.length_append] at hp
    refine ⟨.voverlong, rfl, ?_⟩
    rw [walkField_value (wt := .varint) ht hv (by decide) rfl (ha _ _ _ hal rfl) hh.1 (by omega), walkValue,
      regionVarint_bytesLong hc hh.2 (by omega)]
    rfl
  | i64Short ht hv hal hc =>
    rw [HoldsAt.append] at hh
    rw [List.length_append] at hp
    refine ⟨.lenovr, rfl, ?_⟩
    rw [walkField_value (wt := .i64) ht hv (by decide) rfl (ha _ _ _ hal rfl) hh.1 (by omega), walkValue,
      if_pos (by omega)]
  | lenCut ht hv hal hc =>
    rw [HoldsAt.append] at hh
    rw [List.length_append] at hp
    refine ⟨.vtrunc, rfl, ?_⟩
    rw [walkField_value (wt := .len) ht hv (by decide) rfl (ha _ _ _ hal rfl) hh.1 (by omega), walkValue,
      regionVarint_bytesCut hc hh.2 (by omega)]
    rfl
  | lenLong ht hv hal hc =>
    rw [HoldsAt.append] at hh
    rw [List.length_append] at hp
    refine ⟨.voverlong, rfl, ?_⟩
    rw [walkField_value (wt := .len) ht hv (by decide) rfl (ha _ _ _ hal rfl) hh.1 (by omega), walkValue,
      regionVarint_bytesLong hc hh.2 (by omega)]
    rfl
  | lenShort ht hv hal hk hc =>
    rw [HoldsAt.append, HoldsAt.append] at hh
    rw [List.length_append, List.length_append] at hp
    refine ⟨.lenovr, rfl, ?_⟩
    rw [walkField_value (wt := .len) ht hv (by decide) rfl (ha _ _ _ hal rfl) hh.1 (by omega), walkValue,
      regionVarint_ok hk hh.2.1 (by omega)]
    exact if_pos (by simp only; omega)
  | i32Short ht hv hal hc =>
    rw [HoldsAt.append] at hh
    rw [List.length_append] at hp
    refine ⟨.lenovr, rfl, ?_⟩
    rw [walkField_value (wt := .i32) ht hv (by decide) rfl (ha _ _ _ hal rfl) hh.1 (by omega), walkValue,
      if_pos (by omega)]

end pair

/-! A run of pairs. -/

section run
variable {rd : Nat → Byte} {sub : Nat → Nat → ObjectRec → Except ErrorCode ObjectRec} {l : Level} {hi : Nat}

/-- The walk passes a run of accepted pairs and goes on behind it (R251). -/
theorem walkLoop_run {α : Type} (bytes : α → List Byte) (apply : ObjectRec → α → ObjectRec) (xs : List α)
    (hs : ∀ x ∈ xs, 1 ≤ (bytes x).length ∧ ∀ p o, HoldsAt rd p (bytes x) → p + (bytes x).length ≤ hi →
      walkField rd sub l hi p o = .ok (apply o x, p + (bytes x).length))
    {p fuel : Nat} {o : ObjectRec} (hh : HoldsAt rd p (xs.flatMap bytes)) (hp : p + (xs.flatMap bytes).length ≤ hi)
    (hf : hi - p ≤ fuel) :
    ∃ fuel', hi - (p + (xs.flatMap bytes).length) ≤ fuel' ∧
      walkLoop rd sub l hi fuel p o = walkLoop rd sub l hi fuel' (p + (xs.flatMap bytes).length) (xs.foldl apply o) := by
  induction xs generalizing p fuel o with
  | nil => exact ⟨fuel, by simpa using hf, by simp⟩
  | cons x xs ih =>
    rw [List.flatMap_cons, HoldsAt.append] at hh
    rw [List.flatMap_cons, List.length_append] at hp ⊢
    obtain ⟨h1, h2⟩ := hs x (by simp)
    cases fuel with
    | zero => omega
    | succ fuel =>
      obtain ⟨fuel', g1, g2⟩ := ih (fun y hy => hs y (by simp [hy])) (p := p + (bytes x).length) (fuel := fuel)
        (o := apply o x) hh.2 (by omega) (by omega)
      refine ⟨fuel', by omega, ?_⟩
      rw [walkLoop, if_pos (by omega), h2 p o hh.1 (by omega)]
      change walkLoop rd sub l hi fuel (p + (bytes x).length) (apply o x) = _
      rw [g2, List.foldl_cons, Nat.add_assoc]

/-- The walk ends at the end of its region. -/
theorem walkLoop_end {fuel p : Nat} {o : ObjectRec} (hp : hi ≤ p) : walkLoop rd sub l hi fuel p o = .ok o := by
  cases fuel with
  | zero => rfl
  | succ fuel => rw [walkLoop, if_neg (by omega)]

/-- The walk ends with the error of a pair it refuses. -/
theorem walkLoop_error {fuel p : Nat} {o : ObjectRec} {e : ErrorCode} (hp : p < hi) (hf : hi - p ≤ fuel)
    (he : walkField rd sub l hi p o = .error e) : walkLoop rd sub l hi fuel p o = .error e := by
  cases fuel with
  | zero => omega
  | succ fuel => rw [walkLoop, if_pos hp, he]; rfl

end run

theorem schemaKind_outer (n : Nat) : schemaKind .outer n =
    if n = 1 then some (.scalar .id) else if n = 2 then some .message else none := by
  simp only [schemaKind, objectSchema, List.find?_cons]
  by_cases h1 : n = 1
  · subst h1; rfl
  · by_cases h2 : n = 2
    · subst h2; rfl
    · simp [h1, h2, Ne.symm h1, Ne.symm h2]

theorem schemaKind_nested (n : Nat) : schemaKind .nested n =
    if n = 1 then some (.float .x) else if n = 2 then some (.float .y) else if n = 3 then some (.float .z) else none := by
  simp only [schemaKind, objectSchema, List.find?_cons]
  by_cases h1 : n = 1
  · subst h1; rfl
  · by_cases h2 : n = 2
    · subst h2; rfl
    · by_cases h3 : n = 3
      · subst h3; rfl
      · simp [h1, h2, h3, Ne.symm h1, Ne.symm h2, Ne.symm h3]

/-- The outer walk accepts what OuterAllows names, and refuses the rest (R246, R253). -/
theorem outer_allows {n t : Nat} {wt : WireType} (h : OuterAllows n t) (hw : WireType.ofNumber t = some wt) :
    Level.Allows .outer n wt := by
  intro k hk
  rw [schemaKind_outer] at hk
  by_cases h1 : n = 1
  · rw [if_pos h1] at hk
    rw [h.2.1 h1] at hw
    cases hk; cases hw; rfl
  · by_cases h2 : n = 2
    · rw [if_neg h1, if_pos h2] at hk
      rw [h.2.2 h2] at hw
      cases hk; cases hw; rfl
    · rw [if_neg h1, if_neg h2] at hk
      cases hk

theorem nested_allows {n t : Nat} {wt : WireType} (h : NestedAllows n t) (hw : WireType.ofNumber t = some wt) :
    Level.Allows .nested n wt := by
  intro k hk
  rw [schemaKind_nested] at hk
  by_cases hn : 1 ≤ n ∧ n ≤ 3
  · rw [h.2 hn] at hw
    cases hw
    rcases (by omega : n = 1 ∨ n = 2 ∨ n = 3) with rfl | rfl | rfl <;> cases hk <;> rfl
  · rw [if_neg (by omega), if_neg (by omega), if_neg (by omega)] at hk
    cases hk

theorem outer_refuses {n t : Nat} (ht : t < 8) (h : ¬ OuterAllows n t) : WireType.ofNumber t = none ∨
    ∃ wt k, WireType.ofNumber t = some wt ∧ schemaKind .outer n = some k ∧ k.wire ≠ wt := by
  by_cases h1 : n = 1
  · subst h1
    interval_cases t <;>
      first | exact .inl rfl | exact .inr ⟨_, _, rfl, rfl, by decide⟩ | exact absurd (by decide) h
  · by_cases h2 : n = 2
    · subst h2
      interval_cases t <;>
        first | exact .inl rfl | exact .inr ⟨_, _, rfl, rfl, by decide⟩ | exact absurd (by decide) h
    · refine .inl ?_
      have : t ∉ [0, 1, 2, 5] := fun hm => h ⟨hm, fun e => absurd e h1, fun e => absurd e h2⟩
      interval_cases t <;> revert this <;> decide

theorem nested_refuses {n t : Nat} (ht : t < 8) (h : ¬ NestedAllows n t) : WireType.ofNumber t = none ∨
    ∃ wt k, WireType.ofNumber t = some wt ∧ schemaKind .nested n = some k ∧ k.wire ≠ wt := by
  by_cases hn : 1 ≤ n ∧ n ≤ 3
  · rcases (by omega : n = 1 ∨ n = 2 ∨ n = 3) with rfl | rfl | rfl <;> interval_cases t <;>
      first | exact .inl rfl | exact .inr ⟨_, _, rfl, rfl, by decide⟩ | exact absurd (by decide) h
  · refine .inl ?_
    have : t ∉ [0, 1, 2, 5] := fun hm => h ⟨hm, fun e => absurd e hn⟩
    interval_cases t <;> revert this <;> decide

theorem WireField.bytes_length_pos {x : WireField} (h : x.ok = true) : 1 ≤ x.bytes.length := by
  simp only [WireField.ok, Bool.and_eq_true] at h
  rw [WireField.bytes, List.length_append]
  have := varintOk_length_pos h.1.1
  omega

/-- One nested pair (R251 to R253). -/
theorem walkField_nested {rd : Nat → Byte} {sub : Nat → Nat → ObjectRec → Except ErrorCode ObjectRec} {hi p : Nat}
    (x : WireField) (hx : x.nestedOk = true) {o : ObjectRec} (hh : HoldsAt rd p x.bytes)
    (hp : p + x.bytes.length ≤ hi) :
    walkField rd sub .nested hi p o = .ok (x.applyNested o, p + x.bytes.length) := by
  simp only [WireField.nestedOk, Bool.and_eq_true, decide_eq_true_eq] at hx
  obtain ⟨hok, -, hx⟩ := hx
  by_cases hk : 1 ≤ x.number ∧ x.number ≤ 3
  · obtain ⟨tag, v⟩ := x
    have hv := hx hk
    simp only [WireField.ok, Bool.and_eq_true, decide_eq_true_eq] at hok hv
    obtain ⟨b, rfl⟩ : ∃ b, v = .i32 b := by
      cases v <;> simp only [WireValue.number] at hv <;> first | omega | exact ⟨_, rfl⟩
    have hn : (varintWord tag).toNat = 8 * WireField.number ⟨tag, .i32 b⟩ + 5 := by
      have := hok.1.2
      simp only [WireField.number, WireValue.number] at this ⊢; omega
    have hs := schemaKind_nested (WireField.number ⟨tag, .i32 b⟩)
    simp only [WireField.applyNested, WireField.bytes, WireValue.bytes] at hh hp ⊢
    rcases (by omega : WireField.number ⟨tag, .i32 b⟩ = 1 ∨ WireField.number ⟨tag, .i32 b⟩ = 2 ∨
      WireField.number ⟨tag, .i32 b⟩ = 3) with e | e | e <;> rw [e] at hs <;>
      rw [walkField_i32 hok.1.1 hn (by rw [e]; exact hs) hh hp, e] <;> rfl
  · have hs : schemaKind .nested x.number = none := by
      rw [schemaKind_nested, if_neg (by omega), if_neg (by omega), if_neg (by omega)]
    rw [walkField_unknown x hok hs hh hp]
    cases hv : x.value <;> simp [WireField.applyNested, hv]
    rw [if_neg (by omega), if_neg (by omega), if_neg (by omega)]

/-- The walk of a nested message that begins with accepted pairs (R251). -/
theorem walkNested_run {rd : Nat → Byte} (xs : List WireField) (hx : xs.all WireField.nestedOk = true) {lo hi : Nat}
    {o : ObjectRec} (hh : HoldsAt rd lo (xs.flatMap WireField.bytes))
    (hp : lo + (xs.flatMap WireField.bytes).length ≤ hi) :
    ∃ fuel, hi - (lo + (xs.flatMap WireField.bytes).length) ≤ fuel ∧
      walkNested rd lo hi o = walkLoop rd (fun _ _ o' => .ok o') .nested hi fuel
        (lo + (xs.flatMap WireField.bytes).length) (xs.foldl WireField.applyNested o) := by
  refine walkLoop_run WireField.bytes WireField.applyNested xs (fun x hm => ?_) hh hp (Nat.le_refl _)
  have hxm := List.all_eq_true.1 hx x hm
  refine ⟨WireField.bytes_length_pos ?_, fun p o h1 h2 => walkField_nested x hxm h1 h2⟩
  rw [WireField.nestedOk, Bool.and_eq_true] at hxm
  exact hxm.1

/-- One item of the outer message (R251 to R253, R255). -/
theorem walkField_item {rd : Nat → Byte} {hi p : Nat} (it : MessageItem) (hi' : it.ok = true) {o : ObjectRec}
    (hh : HoldsAt rd p it.field.bytes) (hp : p + it.field.bytes.length ≤ hi) :
    walkField rd (walkNested rd) .outer hi p o = .ok (MessageItem.apply o it, p + it.field.bytes.length) := by
  unfold MessageItem.ok at hi'
  rw [Bool.and_eq_true] at hi'
  obtain ⟨hok, hi'⟩ := hi'
  cases it with
  | unknown x =>
    simp only [decide_eq_true_eq] at hi'
    exact walkField_unknown x hok (by rw [schemaKind_outer, if_neg hi'.1, if_neg hi'.2]) hh hp
  | id tag v =>
    simp only [MessageItem.field, WireField.ok, WireField.number, WireValue.number, WireValue.ok, Bool.and_eq_true] at hok hi'
    have h1 := of_decide_eq_true hok.1.2
    have h2 := of_decide_eq_true hi'
    exact walkField_varint (n := 1) hok.1.1 (by omega) (by rw [schemaKind_outer]; rfl) hok.2 hh hp
  | position tag pre fs =>
    simp only [MessageItem.field, WireField.ok, WireField.number, WireValue.number, WireValue.ok, Bool.and_eq_true] at hok hi'
    have h1 := of_decide_eq_true hok.1.2
    have h2 := of_decide_eq_true hi'.1
    refine (walkField_len (n := 2) (r := .ok (fs.foldl WireField.applyNested o)) hok.1.1 (by omega)
      (by rw [schemaKind_outer]; rfl) hok.2.1 (of_decide_eq_true hok.2.2) hh hp fun q hq hh' => ?_).trans rfl
    obtain ⟨fuel, -, g⟩ := walkNested_run fs hi'.2 (o := o) hh' (Nat.le_refl _)
    rw [g, walkLoop_end (Nat.le_refl _)]

/-- The walk of a message that begins with accepted items (R251). -/
theorem walkOuter_run {rd : Nat → Byte} (xs : List MessageItem) (hx : xs.all MessageItem.ok = true) {lo hi : Nat}
    {o : ObjectRec} (hh : HoldsAt rd lo (messageOf xs)) (hp : lo + (messageOf xs).length ≤ hi) :
    ∃ fuel, hi - (lo + (messageOf xs).length) ≤ fuel ∧
      walkOuter rd lo hi o = walkLoop rd (walkNested rd) .outer hi fuel (lo + (messageOf xs).length)
        (xs.foldl MessageItem.apply o) := by
  refine walkLoop_run (fun it : MessageItem => it.field.bytes) MessageItem.apply xs (fun x hm => ?_) hh hp (Nat.le_refl _)
  have hxm := List.all_eq_true.1 hx x hm
  refine ⟨WireField.bytes_length_pos ?_, fun p o h1 h2 => walkField_item x hxm h1 h2⟩
  unfold MessageItem.ok at hxm
  rw [Bool.and_eq_true] at hxm
  exact hxm.1

/-- The walk of a position whose body, behind accepted pairs, ends with an error of its own (R251, R253). -/
theorem walkField_position_error {rd : Nat → Byte} {hi p : Nat} {tag pre bs rest : List Byte} {xs : List WireField}
    {e : ErrorCode} {o : ObjectRec} (hx : xs.all WireField.nestedOk = true) (hb : bs = xs.flatMap WireField.bytes ++ rest)
    (hr : 1 ≤ rest.length) (ht : varintOk tag = true) (hv : varintWord tag = 0x12) (hk : varintOk pre = true)
    (hl : (varintWord pre).toNat = bs.length) (hh : HoldsAt rd p (tag ++ (pre ++ bs)))
    (hp : p + (tag ++ (pre ++ bs)).length ≤ hi)
    (he : ∀ q hi' o', HoldsAt rd q rest → q + rest.length = hi' →
      walkField rd (fun _ _ o'' => .ok o'') .nested hi' q o' = .error e) :
    walkField rd (walkNested rd) .outer hi p o = .error e := by
  rw [walkField_len (n := 2) (r := .error e) ht (by rw [hv]; rfl) (by rw [schemaKind_outer]; rfl) hk hl hh hp
    fun q hq hbq => ?_]
  · rfl
  · rw [hb, HoldsAt.append] at hbq
    have hlen := congrArg List.length hb
    rw [List.length_append] at hlen
    obtain ⟨fuel, gf, g⟩ := walkNested_run xs hx (lo := q) (hi := q + bs.length) (o := o) hbq.1 (by omega)
    rw [g]
    exact walkLoop_error (by omega) gf (he _ _ _ hbq.2 (by omega))

/-! TWDEC. -/

/-- TWDEC inside its region (R254): the walk, then F0-F3 and the reader. -/
theorem execTwdec_walk {s : State} (h : s.arg0.toNat ≤ s.reader.left) :
    execTwdec s = finish s ((walkOuter s.rbufByte s.reader.cur.toNat (s.reader.cur.toNat + s.arg0.toNat)
        { id := 0, x := 0, y := 0, z := 0 }).map fun o =>
      ((s.setReader (s.reader.align.skip s.arg0.toNat s.arg0.toNat)).setF (storeObject o s.f)).setRes0 s.arg0) := by
  rw [execTwdec, if_neg]
  change ¬ s.reader.left < _
  omega

/-- TWDEC fails with the error of the pair that stands behind any accepted items (R253, R254). -/
theorem execTwdec_error {s : State} {items : List MessageItem} {rest : List Byte} {e : ErrorCode} (h : s.Inv)
    (hok : items.all MessageItem.ok = true) (hr : 1 ≤ rest.length) (ha : s.arg0.toNat = (messageOf items ++ rest).length)
    (hh : s.reader.HoldsRaw s.rbufByte (messageOf items ++ rest))
    (he : ∀ p o, HoldsAt s.rbufByte p rest →
      walkField s.rbufByte (walkNested s.rbufByte) .outer (p + rest.length) p o = .error e) :
    execTwdec s = .next (s.failed e.code) := by
  have h1 := h.reader.cursor
  have hl := hh.1
  rw [execTwdec_walk (by omega)]
  have hat : HoldsAt s.rbufByte s.reader.cur.toNat _ := hh.2
  rw [HoldsAt.append] at hat
  rw [List.length_append] at ha
  obtain ⟨fuel, gf, g⟩ := walkOuter_run items hok (lo := s.reader.cur.toNat)
    (hi := s.reader.cur.toNat + s.arg0.toNat) (o := ⟨0, 0, 0, 0⟩) hat.1 (by omega)
  rw [walkLoop_error (by omega) gf (e := e)] at g
  · exact finish_map_error _ g
  · have := he _ (items.foldl MessageItem.apply ⟨0, 0, 0, 0⟩) hat.2
    rwa [show s.reader.cur.toNat + s.arg0.toNat = s.reader.cur.toNat + (messageOf items).length + rest.length by omega]

end Sys2Proof.Machine
end

