-- ==== Sys2Proof/Machine/Assembler.lean ====
section
/-! DEFINITION. The assembler of 30_encoding.md R110-R113: a program is a sequence of host statements, each one host
access, and the pseudo-instructions expand to statements. -/

namespace Sys2Proof.Machine

/-- The statements of R110. -/
inductive Stmt where
  /-- `set R, v` -/
  | set (r : Reg) (v : Word)
  /-- `get R` -/
  | get (r : Reg)
  /-- `cmd M` and `cmd M w` -/
  | cmd (i : Instr)
  /-- `poke B[i], b` -/
  | poke (b : Buffer) (i : Nat) (v : Byte)
  /-- `peek B[i]` -/
  | peek (b : Buffer) (i : Nat)
  deriving DecidableEq, Repr

/-- May a `set` name the register (R110)? -/
def Reg.settable : Reg → Bool
  | .status => true
  | .arg0 => true
  | .arg1 => true
  | .f _ => true
  | .cmd => false
  | .res0 => false
  | .res1 => false
  | .wbytes => false
  | .wcnt => false
  | .wtotal => false
  | .rlen => false
  | .rcur => false
  | .rcnt => false
  | .rtotal => false
  | .capw => false
  | .capr => false
  | .capx => false

/-- A buffer's capacity in bytes (R26). -/
def Config.capOf (c : Config) : Buffer → Nat
  | .wbuf => c.wcap
  | .rbuf => c.rcap
  | .xbuf => c.xcap

/-- Which statements R110 and R111 allow for the implementation `c`. -/
def Stmt.wellFormed (c : Config) : Stmt → Bool
  | .set r _ => r.settable
  | .get _ => true
  | .cmd i => i.wellFormed
  | .poke b i _ => decide (b ≠ .wbuf ∧ i < Config.capOf c b)
  | .peek b i => decide (i < Config.capOf c b)

/-- A statement's encoding (R113): the host access it is. -/
def Stmt.access (c : Config) : Stmt → HostAccess
  | .set r v => .write 32 (regAddr c r) v
  | .get r => .read 32 (regAddr c r)
  | .cmd i => cmdWrite c (encode i)
  | .poke b i v => .write 8 (byteAddr c b i) (v.setWidth 32)
  | .peek b i => .read 8 (byteAddr c b i)

/-- The host issues a program after what it has pending. -/
def loadProgram (p : List Stmt) (s : State) : State :=
  s.setHostQueue (s.hostQueue ++ p.map (Stmt.access s.cfg))

/-- `poke B[i..], [b0, b1, ...]` (R110). -/
def pokes (b : Buffer) : Nat → List Byte → List Stmt
  | _, [] => []
  | i, v :: vs => .poke b i v :: pokes b (i + 1) vs

/-- `peek B[i..j)` (R110). -/
def peeks (b : Buffer) (i j : Nat) : List Stmt := (List.range (j - i)).map fun k => .peek b (i + k)

/-! The pseudo-instructions of R112. -/

def pWrbits (v : Word) (w : Nat) : List Stmt := [.set .arg0 v, .cmd (.wrbits w)]
def pWrbool (v : Word) : List Stmt := [.set .arg0 v, .cmd .wrbool]
def pWrbytes (off n : Word) : List Stmt := [.set .arg0 off, .set .arg1 n, .cmd .wrbytes]
def pRinit (n : Word) : List Stmt := [.set .arg0 n, .cmd .rinit]
def pRdbits (w : Nat) : List Stmt := [.cmd (.rdbits w), .get .res0]
def pRdbytes (off n : Word) : List Stmt := [.set .arg0 off, .set .arg1 n, .cmd .rdbytes, .get .res0]
def pRalign : List Stmt := [.set .arg0 0, .set .arg1 0, .cmd .rdbytes]
def pVenc (v : Word) : List Stmt := [.set .arg0 v, .cmd .venc]
def pSvenc (v : Word) : List Stmt := [.set .arg0 v, .cmd .svenc]
def pBitsreq (lo hi : Word) : List Stmt := [.set .arg0 lo, .set .arg1 hi, .cmd .bitsreq, .get .res0]
def pMktag (n t : Word) : List Stmt := [.set .arg0 n, .set .arg1 t, .cmd .mktag, .get .res0]
def pStrenc (off n : Word) : List Stmt := [.set .arg0 off, .set .arg1 n, .cmd .strenc]
def pStrpair (off1 n1 off2 n2 : Word) : List Stmt := pStrenc off1 n1 ++ pStrenc off2 n2 ++ [.cmd .flush]
def pClrerr : List Stmt := [.set .status 0x300]
def pChk : List Stmt := [.get .status]

/-- What `chk` requires of the STATUS it read: STATUS[7:0] = 0. -/
def chkPasses (v : Word) : Bool := v.extractLsb' 0 8 == ecodeOk

end Sys2Proof.Machine
end

