-- ==== Sys2Proof/Tests/Slice0.lean ====
section
/-! SUPPORT. The model's own tests: ill-formed terms refused, words written out from 30_encoding.md R91 and R96, small
vectors of 95_test_vectors.md (the vector's id stands before its theorem), and, for each obligation with hypotheses, a
concrete state and operands that meet them (`witness_…`, one part per clause, at a boundary where the clause has one). -/

namespace Sys2Proof.Machine.Tests

/-! Helpers. -/

/-- The state an outcome gives; the reset state stands for a stop. -/
def out (r : Host.Outcome State Fault Refusal) : State :=
  match r with
  | .next s => s
  | _ => State.reset

/-- One step that serves a write of `w` to CMD. -/
def run (w : Nat) (s : State) : State := out (step (s.withFetchWord 32 w))

/-- One step that serves the host access `a`. -/
def serve (a : HostAccess) (s : State) : Host.Outcome State Fault Refusal := step (s.setHostQueue [a])

def args (a b : Word) (s : State) : State := (s.setArg0 a).setArg1 b
def withXbuf (bs : List Byte) (s : State) : State := s.setXbuf (storeBytes [] 0 bs)
def withStatus (e : BitVec 8) (err short : Bool) (s : State) : State :=
  s.setStatus { ecode := e, err := err, short := short }

/-- A reader freshly started over the bytes `bs` in RBUF. -/
def reading (bs : List Byte) (s : State) : State :=
  (s.setRbuf (storeBytes [] 0 bs)).setReader
    { len := BitVec.ofNat 32 bs.length, cur := 0, cnt := 0, total := 0, acc := 0 }

def fields (a b c d e f g h : Word) (s : State) : State :=
  s.setF { f0 := a, f1 := b, f2 := c, f3 := d, f4 := e, f5 := f, f6 := g, f7 := h }

/-- A writer with `n` zero bytes committed and no bit pending. -/
def filled (n : Nat) (s : State) : State :=
  s.setWriter
    { buf := storeBytes [] 0 (List.replicate n 0), bytes := BitVec.ofNat 32 n, cnt := 0, total := 0, acc := 0 }

def written (s : State) : List Byte := bytesFrom s.wbufByte 0 s.writer.bytes.toNat

def r0 : State := State.reset

def alice : List Byte := [0x61, 0x6C, 0x69, 0x63, 0x65]

/-- The record of RC-1 and its bytes (95_test_vectors.md). -/
def player : State := withXbuf alice (fields 500 300 100 85 270 2 1 5 r0)
def playerBytes : List Byte := [0xF4, 0xB1, 0x44, 0x46, 0xD5, 0xA1, 0x0B, 0x00, 0x61, 0x6C, 0x69, 0x63, 0x65]

/-- What `State.Inv` says, as one decidable check. -/
abbrev Checked (s : State) : Prop :=
  (s.cfg.Legal ∧ s.status.ecode.toNat ≤ 0x0C) ∧
  (s.writer.acc.toNat < 2 ^ s.writer.cnt.toNat ∧ s.writer.cnt.toNat ≤ 7 ∧
    ceil8 (8 * s.writer.bytes.toNat + s.writer.cnt.toNat) ≤ s.cfg.wcap ∧ Memory.wf s.writer.buf = true ∧
    Memory.below s.cfg.wcap s.writer.buf = true ∧
    ∀ i, i < s.writer.bytes.toNat → (Memory.read s.writer.buf i).isSome = true) ∧
  (s.reader.cur.toNat ≤ s.reader.len.toNat ∧ s.reader.len.toNat ≤ s.cfg.rcap ∧ s.reader.cnt.toNat ≤ 7 ∧
    s.reader.acc.toNat < 2 ^ s.reader.cnt.toNat ∧ (0 < s.reader.cnt.toNat → 1 ≤ s.reader.cur.toNat)) ∧
  Memory.wf s.rbuf = true ∧ Memory.below s.cfg.rcap s.rbuf = true ∧ Memory.wf s.xbuf = true ∧
  Memory.below s.cfg.xcap s.xbuf = true

theorem inv_of_checked {s : State} (h : Checked s) : s.Inv := by
  obtain ⟨⟨a1, a2⟩, ⟨b1, b2, b3, b4, b5, b6⟩, ⟨c1, c2, c3, c4, c5⟩, d1, d2, d3, d4⟩ := h
  exact ⟨a1, a2, ⟨b1, b2, b3, b4, b5, b6⟩, ⟨c1, c2, c3, c4, c5⟩, d1, d2, d3, d4⟩

/-- A nearly full writer is a legal one. -/
theorem filled_inv {n : Nat} {s : State} (hn : n ≤ 1024) (h : s.cfg = Config.smallest) (hs : s.Inv) :
    (filled n s).Inv := by
  have hb : (BitVec.ofNat 32 n).toNat = n := by
    rw [BitVec.toNat_ofNat]; exact Nat.mod_eq_of_lt (by omega)
  have hcap : s.cfg.wcap = 1024 := by rw [h]; rfl
  refine ⟨hs.config, hs.status, ⟨?_, ?_, ?_, wf_storeBytes 0 _ rfl, ?_, ?_⟩, hs.reader, hs.rbufCanonical, hs.rbufInside,
    hs.xbufCanonical, hs.xbufInside⟩
  · change (0 : Acc).toNat < 2 ^ (0 : Word).toNat; decide
  · change (0 : Word).toNat ≤ 7; decide
  · change ceil8 (8 * (BitVec.ofNat 32 n).toNat + (0 : Word).toNat) ≤ s.cfg.wcap
    rw [hb, hcap]
    change (8 * n + 0 + 7) / 8 ≤ 1024
    omega
  · refine below_storeBytes _ rfl ?_
    change 0 + _ ≤ s.cfg.wcap
    rw [hcap, List.length_replicate]; omega
  · intro i hi
    change i < (BitVec.ofNat 32 n).toNat at hi
    rw [hb] at hi
    change (Memory.read (storeBytes [] 0 (List.replicate n 0)) i).isSome = true
    rw [read_storeBytes, if_pos (by simp; omega)]
    simp [hi]

/-! Well-formedness: a width that CMD[13:8] cannot hold is refused. -/

theorem test_illformed_wrbits : Instr.wellFormed (.wrbits 64) = false := by decide
theorem test_illformed_rdbits : Instr.wellFormed (.rdbits 64) = false := by decide
theorem test_wellformed_widths : Instr.wellFormed (.wrbits 63) = true ∧ Instr.wellFormed (.rdbits 0) = true := by decide

/-! Decoding: a word per constructor, written out bit by bit from R91 (RSV, W, OP) and R96. -/

theorem test_decode_control : decode 0b000000000000000000_000000_00000000 = .ok .nop := by decide
theorem test_decode_writer :
    decode 0b000000000000000000_000000_00010000 = .ok .winit ∧
    decode 0b000000000000000000_001010_00010001 = .ok (.wrbits 10) ∧
    decode 0b000000000000000000_000000_00010010 = .ok .wrbool ∧
    decode 0b000000000000000000_000000_00010011 = .ok .flush ∧
    decode 0b000000000000000000_000000_00010100 = .ok .wrbytes := by decide
theorem test_decode_reader :
    decode 0b000000000000000000_000000_00100000 = .ok .rinit ∧
    decode 0b000000000000000000_100000_00100001 = .ok (.rdbits 32) ∧
    decode 0b000000000000000000_000000_00100010 = .ok .rdbool ∧
    decode 0b000000000000000000_000000_00100011 = .ok .rdbytes := by decide
theorem test_decode_varint :
    decode 0b000000000000000000_000000_00110000 = .ok .venc ∧
    decode 0b000000000000000000_000000_00110001 = .ok .vdec ∧
    decode 0b000000000000000000_000000_00110010 = .ok .svenc ∧
    decode 0b000000000000000000_000000_00110011 = .ok .svdec ∧
    decode 0b000000000000000000_000000_00110100 = .ok .zzenc32 ∧
    decode 0b000000000000000000_000000_00110101 = .ok .zzdec32 ∧
    decode 0b000000000000000000_000000_00110110 = .ok .zzenc64 ∧
    decode 0b000000000000000000_000000_00110111 = .ok .zzdec64 ∧
    decode 0b000000000000000000_000000_00111000 = .ok .bitsreq := by decide
theorem test_decode_record :
    decode 0b000000000000000000_000000_01000000 = .ok .strenc ∧
    decode 0b000000000000000000_000000_01000001 = .ok .strdec ∧
    decode 0b000000000000000000_000000_01000010 = .ok .recenc ∧
    decode 0b000000000000000000_000000_01000011 = .ok .recdec := by decide
theorem test_decode_tagged :
    decode 0b000000000000000000_000000_01010000 = .ok .mktag ∧
    decode 0b000000000000000000_000000_01010001 = .ok .ptag ∧
    decode 0b000000000000000000_000000_01010010 = .ok .twenc ∧
    decode 0b000000000000000000_000000_01010011 = .ok .twdec := by decide
/-- E-3 to E-7, E-11: an unassigned OP, a reserved bit, a width on a command without one. -/
theorem test_decode_illegal :
    decode 0x01 = .error .unassignedOp ∧ decode 0x54 = .error .unassignedOp ∧ decode 0xFF = .error .unassignedOp ∧
    decode 0x4010 = .error .reservedBits ∧ decode 0x0110 = .error .widthNotUsed ∧
    decode 0x4011 = .error .reservedBits ∧ decode 0x80000000 = .error .reservedBits := by decide
theorem test_decode_table_word : decodeTableWord 32 0x00000A11 = some (.wrbits 10) ∧ decodeTableWord 32 0x0F = none := by
  decide

/-! Commands: one step each, from the vectors of 95_test_vectors.md. -/

/-- E-2, X-2 -/
theorem test_nop : (run 0x00 (withStatus 0x02 true false r0)).status = ⟨0, true, false⟩ := by decide
/-- E-3, E-12, X-6 -/
theorem test_illegal : run 0x01 (withStatus 0 false true r0) =
    { r0 with cmd := 0x01, status := { ecode := 0x01, err := true, short := true } } := by decide
/-- W-17 -/
theorem test_winit : (run 0x10 (run 0x0A11 (args 500 0 r0))).writer.acc = 0 := by decide
/-- W-2: WCNT = 7 before and after a 32-bit put -/
theorem test_wrbits :
    (run 0x2011 (args 0x89ABCDEF 0 (run 0x0711 (args 0x7F 0 r0)))).writer =
      ⟨storeBytes [] 0 [0xFF, 0xF7, 0xE6, 0xD5], 4, 7, 39, 0x44⟩ := by decide
/-- E-8, E-9 -/
theorem test_wrbits_width :
    (run 0x0011 r0).status.ecode = 0x02 ∧ (run 0x2111 r0).status.ecode = 0x02 := by decide
/-- W-6 -/
theorem test_wrbool : (run 0x12 (args 0x80000000 0 r0)).writer.acc = 1 := by decide
/-- W-7 -/
theorem test_flush : (run 0x13 (run 0x0311 (args 1 0 r0))).writer = ⟨[(0, 0x01)], 1, 0, 3, 0⟩ := by decide
/-- W-19 -/
theorem test_wrbytes :
    written (run 0x14 (args 0 2 (run 0x0A11 (args 500 0 (withXbuf [0xAA, 0xBB] r0))))) = [0xF4, 0x01, 0xAA, 0xBB] := by
  decide
/-- W-10: the sum is exact -/
theorem test_wrbytes_xrange : (run 0x14 (args 0xFFFFFFFF 1 r0)).status.ecode = 0x0B := by decide
/-- R-5, R-6 -/
theorem test_rinit :
    (run 0x20 (args 1025 0 r0)).status.ecode = 0x08 ∧ (run 0x20 (args 1024 0 r0)).reader.len = 1024 := by decide
/-- R-1 -/
theorem test_rdbits :
    (run 0x2021 (run 0x0421 (reading [0x01, 0x23, 0x45, 0x67, 0x89] r0))).res0 = 0x96745230 := by decide
/-- R-2 -/
theorem test_rdbits_underrun :
    (run 0x0921 (reading [0xFF] r0)).reader = (reading [0xFF] r0).reader ∧
    (run 0x0921 (reading [0xFF] r0)).status.ecode = 0x03 := by decide
/-- R-12 -/
theorem test_rdbool : (run 0x22 (reading [0x8F] r0)).res0 = 1 ∧ (run 0x22 (reading [0x8F] r0)).reader.cnt = 7 := by decide
/-- R-8 -/
theorem test_rdbytes :
    (run 0x23 (args 0 5 (run 0x0521 (reading [0x11, 0x22, 0x33, 0x44] r0)))).xbuf =
      storeBytes [] 0 [0x22, 0x33, 0x44] := by decide
theorem test_rdbytes_short :
    (run 0x23 (args 0 5 (run 0x0521 (reading [0x11, 0x22, 0x33, 0x44] r0)))).status = ⟨0, false, true⟩ ∧
    (run 0x23 (args 0 5 (run 0x0521 (reading [0x11, 0x22, 0x33, 0x44] r0)))).reader.total = 45 := by decide
/-- V-13 -/
theorem test_venc : written (run 0x13 (run 0x30 (args 300 0 (run 0x0111 (args 1 0 r0))))) = [0x59, 0x05, 0x00] := by
  decide
/-- V-12 -/
theorem test_venc_longest :
    written (run 0x30 (args 0xFFFFFFFF 0 r0)) = [0xFF, 0xFF, 0xFF, 0xFF, 0x0F] := by decide
/-- VD-2: bits 4-6 of a fifth byte fall off -/
theorem test_vdec : (run 0x31 (reading [0xFF, 0xFF, 0xFF, 0xFF, 0x7F] r0)).res0 = 0xFFFFFFFF := by decide
/-- VD-4, VD-5 -/
theorem test_vdec_errors :
    (run 0x31 (reading [0xFF, 0xFF, 0xFF, 0xFF, 0xFF, 0x01] r0)).status.ecode = 0x06 ∧
    (run 0x31 (reading [0x80] r0)).status.ecode = 0x07 := by decide
/-- SV-9 -/
theorem test_svenc :
    written (run 0x32 (args 0x80000000 0 r0)) = [0xFF, 0xFF, 0xFF, 0xFF, 0x0F] ∧
    (run 0x32 (args 0x80000000 0 r0)).res1 = 0xFFFFFFFF := by decide
theorem test_svdec : (run 0x33 (reading [0xFF, 0xFF, 0xFF, 0xFF, 0x0F] r0)).res0 = 0x80000000 := by decide
/-- Z-7, Z-8 -/
theorem test_zzenc32 :
    (run 0x34 (args 0x7FFFFFFF 0 r0)).res0 = 0xFFFFFFFE ∧ (run 0x34 (args 0x12345678 0 r0)).res0 = 0x2468ACF0 := by decide
/-- Z-6 -/
theorem test_zzdec32 : (run 0x35 (args 0xFFFFFFFF 0 r0)).res0 = 0x80000000 := by decide
/-- Z64-6 -/
theorem test_zzenc64 :
    (run 0x36 (args 0x7FFFFFFF 0xFFFFFFFF r0)).res0 = 1 ∧ (run 0x36 (args 0x7FFFFFFF 0xFFFFFFFF r0)).res1 = 1 := by decide
theorem test_zzdec64 :
    (run 0x37 (args 1 1 r0)).res0 = 0x7FFFFFFF ∧ (run 0x37 (args 1 1 r0)).res1 = 0xFFFFFFFF := by decide
/-- B-7, B-9, B-13 -/
theorem test_bitsreq :
    (run 0x38 (args 5 5 r0)).res0 = 1 ∧ (run 0x38 (args 0 256 r0)).res0 = 9 ∧
    (run 0x38 (args 0x80000000 0x7FFFFFFF r0)).res0 = 32 := by decide
/-- B-17 -/
theorem test_bitsreq_range : (run 0x38 (args 0x7FFFFFFF 0x80000000 r0)).status.ecode = 0x08 := by decide
/-- S-6 -/
theorem test_strenc :
    written (run 0x40 (args 0 5 (run 0x0111 (args 1 0 (withXbuf alice r0))))) =
      [0x0B, 0x00, 0x61, 0x6C, 0x69, 0x63, 0x65] := by decide
/-- S-7 -/
theorem test_strdec :
    (run 0x41 (args 32 0 (run 0x0121 (reading [0x0B, 0x00, 0x61, 0x6C, 0x69, 0x63, 0x65] r0)))).xbuf =
      storeBytes [] 32 alice := by decide
/-- S-8, S-9 -/
theorem test_strdec_errors :
    (run 0x41 (reading [0x05, 0x61, 0x62] r0)).status.ecode = 0x0C ∧
    (run 0x41 (reading [0x80, 0x02] r0)).status.ecode = 0x05 := by decide
/-- RC-1 -/
theorem test_recenc : written (run 0x42 player) = playerBytes := by decide
/-- RC-4 -/
theorem test_recenc_maxima :
    written (run 0x42 (fields 1023 1023 1023 100 359 3 0xFFFFFFFF 0 r0)) =
      [0xFF, 0xFF, 0xFF, 0x3F, 0xF9, 0xEC, 0x01, 0x00] := by decide
/-- RC-2 -/
theorem test_recdec :
    (run 0x43 (args 100 0 (reading playerBytes r0))).f = player.f ∧
    (run 0x43 (args 100 0 (reading playerBytes r0))).xbuf = storeBytes [] 100 alice := by decide
/-- health 101 is encodable and RANGE (R220) -/
theorem test_recdec_range :
    (run 0x43 (reading [0xF4, 0xB1, 0x44, 0x46, 0xD9, 0xA1, 0x01, 0x00] r0)).status.ecode = 0x08 := by decide
theorem test_mktag :
    (run 0x50 (args 2 2 r0)).res0 = 0x12 ∧ (run 0x50 (args 0x20000000 0 r0)).status.ecode = 0x08 := by decide
theorem test_ptag :
    (run 0x51 (args 0xFFFFFFFF 0 r0)).res0 = 0x1FFFFFFF ∧ (run 0x51 (args 0xFFFFFFFF 0 r0)).res1 = 7 := by decide
/-- T-E2 -/
theorem test_twenc :
    written (run 0x52 (fields 150 0x3F800000 0xC0200000 0x3F000000 0 0 0 0 r0)) =
      [0x08, 0x96, 0x01, 0x12, 0x0F, 0x0D, 0x00, 0x00, 0x80, 0x3F, 0x15, 0x00, 0x00, 0x20, 0xC0, 0x1D, 0x00, 0x00, 0x00,
        0x3F] := by decide
/-- T-E6: the flush byte is not in RES0 -/
theorem test_twenc_unaligned :
    (run 0x52 (fields 1 0 0 0 0 0 0 0 (run 0x0311 (args 1 0 r0)))).res0 = 19 ∧
    (run 0x52 (fields 1 0 0 0 0 0 0 0 (run 0x0311 (args 1 0 r0)))).writer.total = 155 := by decide
/-- T-D8: unknown fields of every wire type are skipped -/
theorem test_twdec :
    (run 0x53 (args 22 0 (reading [0x18, 0x07, 0x21, 1, 1, 1, 1, 1, 1, 1, 1, 0x2A, 0x02, 0xFF, 0xFF, 0x35, 9, 9, 9, 9,
      0x08, 0x2A] (fields 1 2 3 4 5 6 7 8 r0)))).f = ⟨0x2A, 0, 0, 0, 5, 6, 7, 8⟩ := by decide
/-- T-D11, T-D18, T-D24 -/
theorem test_twdec_errors :
    (run 0x53 (args 16 0 (reading [0x12, 0x0A, 0x0D, 7, 0, 0, 0, 0x21, 0, 0, 0, 0, 0, 0, 0, 0] r0))).status.ecode = 0x0A ∧
    (run 0x53 (args 4 0 (reading [0x12, 0x02, 0x12, 0x00] r0))).status.ecode = 0x09 ∧
    (run 0x53 (args 7 0 (reading [0x08, 0xFF, 0xFF, 0xFF, 0xFF, 0xFF, 0x01] r0))).status.ecode = 0x06 := by decide

/-! The host port. -/

/-- X-4, X-5: STATUS is write-1-to-clear -/
theorem test_status_write :
    (out (serve (.write 32 0x004 0x100) (withStatus 0x0C true true r0))).status = ⟨0x0C, false, true⟩ ∧
    (out (serve (.write 32 0x004 0x0FF) (withStatus 0x0C true true r0))).status = ⟨0x0C, true, true⟩ := by decide
/-- X-7 -/
theorem test_bus_errors :
    serve (.read 8 0x000) r0 = .fault .busWidth ∧ serve (.read 32 0x20000) r0 = .fault .busWidth ∧
    serve (.write 8 0x10000 0) r0 = .fault .busWbufWrite ∧ serve (.read 32 0x040) r0 = .fault .busUnmapped ∧
    serve (.read 32 0x006) r0 = .fault .busMisaligned ∧ serve (.read 8 0x30200) r0 = .fault .busUnmapped :=
  ⟨rfl, rfl, rfl, rfl, rfl, rfl⟩
/-- X-8 -/
theorem test_write_readonly : serve (.write 32 0x010 7) r0 = .next r0 := rfl
/-- Z-R1 -/
theorem test_capacities :
    (out (serve (.read 32 0x034) r0)).hostReads = [1024] ∧ (out (serve (.read 32 0x03C) r0)).hostReads = [512] := by decide
theorem test_window :
    (out (serve (.write 8 0x203FF 0x1A5) r0)).rbuf = [(1023, 0xA5)] ∧
    (out (serve (.read 8 0x30001) (withXbuf alice r0))).hostReads = [0x6C] := by decide
theorem test_reset :
    out (serve .reset player) = { r0 with resetDraw := 1, tailDraw := 1 } := by decide
/-- R222: a two-string payload, assembled and run -/
theorem test_assembler :
    (pStrpair 0 3 3 2).map (Stmt.access Config.smallest) =
      [.write 32 0x008 0, .write 32 0x00C 3, .write 32 0x000 0x40, .write 32 0x008 3, .write 32 0x00C 2,
        .write 32 0x000 0x40, .write 32 0x000 0x13] := by decide

/-! Witnesses: states and operands that meet the hypotheses of the obligations. -/

/-- A state with host accesses pending. -/
def queued (q : List HostAccess) : State := r0.setHostQueue q

theorem args_inv {a b : Word} {s : State} (h : s.Inv) : (args a b s).Inv :=
  ⟨h.config, h.status, h.writer, h.reader, h.rbufCanonical, h.rbufInside, h.xbufCanonical, h.xbufInside⟩

theorem player_inv : player.Inv := inv_of_checked (by decide)

theorem filled_args_inv {n : Nat} (hn : n ≤ 1024) (a b : Word) : (args a b (filled n player)).Inv :=
  args_inv (filled_inv hn rfl player_inv)

theorem witness_DecodeInvertsEncode : (Instr.wrbits 63).wellFormed = true ∧ Instr.flush.wellFormed = true := by decide
theorem witness_EncodeInvertsDecode : decode 0x00003F21 = .ok (.rdbits 63) ∧ decode 0 = .ok .nop := by decide
theorem witness_StepRunsDecodedCommand :
    (queued [.write 32 r0.cfg.base 0x13]).hostQueue = .write 32 (queued []).cfg.base 0x13 :: [] ∧
    decode 0x13 = .ok .flush := by decide
theorem witness_IllegalWordsChangeOnlyCmdAndStatus :
    (queued [.write 32 r0.cfg.base 0x0F]).hostQueue = [.write 32 (queued []).cfg.base 0x0F] ∧
    ∀ i : Instr, i.wellFormed = true → encode i ≠ 0x0F := by
  refine ⟨rfl, fun i h => ?_⟩
  cases i
  case wrbits w =>
    simp only [Instr.wellFormed, decide_eq_true_eq] at h
    interval_cases w <;> decide
  case rdbits w =>
    simp only [Instr.wellFormed, decide_eq_true_eq] at h
    interval_cases w <;> decide
  all_goals decide
theorem witness_IllegalWords_ops :
    commandOf 0x0F 0 = none ∧ commandOf 0x10 0 ≠ none ∧ commandOf 0x54 0 = none ∧ commandOf 0xFF 0 = none ∧
    commandOf 0x53 0 ≠ none := by decide
theorem witness_HostReadsEveryRegister :
    (queued [.read 32 0x09C]).hostQueue = .read 32 ((queued []).cfg.base + BitVec.ofNat 32 0x09C) :: [] ∧
    (queued [.read 32 0x000]).hostQueue = .read 32 ((queued []).cfg.base + BitVec.ofNat 32 0x000) :: [] := by decide
theorem witness_HostWritesStoreClearOrAreIgnored :
    ∀ o ∈ [0x004, 0x008, 0x00C, 0x080, 0x084, 0x088, 0x08C, 0x090, 0x094, 0x098, 0x09C, 0x010, 0x03C],
      (queued [.write 32 (BitVec.ofNat 32 o) 0x300]).hostQueue =
        [.write 32 ((queued []).cfg.base + BitVec.ofNat 32 o) 0x300] := by decide
theorem witness_HostWritesOneWindowByte :
    r0.cfg.Legal ∧ 1023 < r0.cfg.rcap ∧ 511 < r0.cfg.xcap ∧
    (queued [.write 8 0x203FF 1]).hostQueue = [.write 8 ((queued []).cfg.base + BitVec.ofNat 32 (0x20000 + 1023)) 1] ∧
    (queued [.write 8 0x301FF 1]).hostQueue = [.write 8 ((queued []).cfg.base + BitVec.ofNat 32 (0x30000 + 511)) 1] := by
  decide
/-- Of each window, a byte written and, at the end, a byte not written. -/
theorem witness_HostReadsLatestWindowByte :
    (run 0x2011 r0).cfg.Legal ∧ 3 < (run 0x2011 r0).writer.bytes.toNat ∧ 1023 < (run 0x2011 r0).cfg.wcap ∧
    Memory.read (run 0x2011 r0).writer.buf 3 = some 0 ∧ ¬ 1023 < (run 0x2011 r0).writer.bytes.toNat ∧
    Memory.read (reading playerBytes r0).rbuf 12 = some 0x65 ∧ 1023 < (reading playerBytes r0).cfg.rcap ∧
    Memory.read (reading playerBytes r0).rbuf 1023 = none ∧
    Memory.read player.xbuf 0 = some 0x61 ∧ 511 < player.cfg.xcap ∧ Memory.read player.xbuf 511 = none := by
  decide
/-- Both outcomes occur, at the ends of the ranges. -/
theorem witness_BusErrorsExactly :
    r0.cfg.Legal ∧ (0x103FF - r0.cfg.base).toNat = 0x103FF ∧ (∃ t, step (queued [.read 8 0x103FF]) = .next t) ∧
    (∃ e, step (queued [.read 8 0x10400]) = .fault e) ∧ (∃ t, step (queued [.write 32 0x03C 0]) = .next t) ∧
    (∃ e, step (queued [.write 32 0x0A0 0]) = .fault e) ∧ (∃ e, step (queued [.write 8 0x10000 0]) = .fault e) :=
  ⟨by decide, by decide, ⟨_, rfl⟩, ⟨_, rfl⟩, ⟨_, rfl⟩, ⟨_, rfl⟩, ⟨_, rfl⟩⟩
theorem witness_IdleBlockHoldsItsState : player.hostQueue = [] := by decide
theorem witness_OnlyBusAccessesFault : step (queued [.read 32 0x040]) = .fault .busUnmapped := rfl
/-- One step that writes RBUF[0] and leaves RBUF[1] and XBUF[0] unwritten. -/
theorem witness_UnwrittenBytesStayFixed :
    step (queued [.write 8 0x20000 1]) = .next ((queued []).setRbuf [(0, 1)]) ∧
    Memory.read ((queued []).setRbuf [(0, 1)]).rbuf 1 = none ∧ Memory.read ((queued []).setRbuf [(0, 1)]).xbuf 9 = none :=
  ⟨rfl, by decide, by decide⟩
theorem witness_ResetEstablishesTheResetState : (player.setHostQueue [.reset]).hostQueue = .reset :: [] := by decide
theorem witness_StepKeepsLegalStates :
    (player.setHostQueue [.write 32 0 0x42]).Inv ∧ ∃ t, step (player.setHostQueue [.write 32 0 0x42]) = .next t :=
  ⟨inv_of_checked (by decide), ⟨_, rfl⟩⟩
theorem witness_StepKeepsTheConfiguration : ∃ t, step (player.setHostQueue [.reset]) = .next t := ⟨_, rfl⟩

/-- For the statements about every command and its next state: a command of every family has one. -/
theorem witness_exec_next :
    (∃ t, exec .nop player = .next t) ∧ (∃ t, exec .recenc player = .next t) ∧
    (∃ t, exec .recdec (reading playerBytes r0) = .next t) ∧ (∃ t, exec .rdbytes (args 0 5 r0) = .next t) ∧
    (∃ t, exec .twdec r0 = .next t) ∧ (∃ t, exec .vdec r0 = .next t) ∧ ∃ t, exec .winit r0 = .next t :=
  ⟨⟨_, rfl⟩, ⟨_, rfl⟩, ⟨_, rfl⟩, ⟨_, rfl⟩, ⟨_, rfl⟩, ⟨_, rfl⟩, ⟨_, rfl⟩⟩

theorem witness_WrbitsAppendsTheLowBits :
    player.Inv ∧ (0 < 1 ∨ 32 < 0) ∧ (33 < 1 ∨ 32 < 33) ∧ (args 0x5A 0 (filled 1023 player)).Inv ∧
    (filled 1023 player).cfg.wcap < ceil8 ((filled 1023 player).writer.bitCount + 9) ∧
    ceil8 ((filled 1023 player).writer.bitCount + 8) ≤ (filled 1023 player).cfg.wcap ∧
    ceil8 (player.writer.bitCount + 32) ≤ player.cfg.wcap :=
  ⟨player_inv, by decide, by decide, filled_args_inv (by decide) _ _, by decide, by decide, by decide⟩
theorem witness_WrboolAppendsOneBit :
    (args 0 0 (filled 1024 player)).Inv ∧
    (filled 1024 player).cfg.wcap < ceil8 ((filled 1024 player).writer.bitCount + 1) ∧ player.Inv ∧
    ceil8 (player.writer.bitCount + 1) ≤ player.cfg.wcap :=
  ⟨filled_args_inv (by decide) _ _, by decide, player_inv, by decide⟩
theorem witness_FlushPadsWithZerosOnce : (run 0x0A11 (args 500 0 r0)).Inv ∧ (run 0x0A11 (args 500 0 r0)).writer.cnt = 2 :=
  ⟨inv_of_checked (by decide), by decide⟩
theorem witness_WrbytesAppendsBytesAligned :
    (args 500 13 player).Inv ∧ player.cfg.xcap < 500 + 13 ∧ (args 0 2 (filled 1023 player)).Inv ∧
    (filled 1023 player).cfg.wcap < ceil8 (filled 1023 player).writer.bitCount + 2 ∧
    0 + 2 ≤ player.cfg.xcap ∧ (args 511 1 (filled 1023 player)).Inv ∧ 511 + 1 ≤ player.cfg.xcap ∧
    ceil8 (filled 1023 player).writer.bitCount + 1 ≤ (filled 1023 player).cfg.wcap :=
  ⟨args_inv player_inv, by decide, filled_args_inv (by decide) _ _, by decide, by decide, filled_args_inv (by decide) _ _,
    by decide, by decide⟩
theorem witness_RinitStartsAFreshReader :
    (args 1025 0 r0).cfg.rcap < (args 1025 0 r0).arg0.toNat ∧ (args 1024 0 r0).arg0.toNat ≤ (args 1024 0 r0).cfg.rcap := by
  decide
/-- One unread byte: 8 bits are there, 9 are not. -/
theorem witness_RdbitsTakesTheNextBits :
    (reading [0xFF] r0).Inv ∧ (33 < 1 ∨ 32 < 33) ∧ (reading [0xFF] r0).reader.avail < 9 ∧
    8 ≤ (reading [0xFF] r0).reader.avail ∧ (reading alice r0).Inv ∧ 32 ≤ (reading alice r0).reader.avail :=
  ⟨inv_of_checked (by decide), by decide, by decide, by decide, inv_of_checked (by decide), by decide⟩
theorem witness_RdboolTakesTheNextBit :
    player.Inv ∧ player.reader.avail = 0 ∧ (run 0x0721 (reading [0x8F] r0)).Inv ∧
    1 ≤ (run 0x0721 (reading [0x8F] r0)).reader.avail :=
  ⟨player_inv, by decide, inv_of_checked (by decide), by decide⟩
theorem witness_RdbytesCopiesWhatRemains :
    (args 510 3 (reading [1, 2] r0)).Inv ∧ r0.cfg.xcap < 510 + 3 ∧ (args 0 5 (reading [1, 2] r0)).Inv ∧
    2 = min (args 0 5 (reading [1, 2] r0)).arg1.toNat
      ((reading [1, 2] r0).reader.len.toNat - (reading [1, 2] r0).reader.cur.toNat) ∧ 0 + 5 ≤ r0.cfg.xcap :=
  ⟨args_inv (inv_of_checked (by decide)), by decide, args_inv (inv_of_checked (by decide)), by decide, by decide⟩

def afterWinit : State := out (exec .winit player)
def afterWrbits : State := out (exec (.wrbits 13) { afterWinit with arg0 := 0xDEADBEEF })
def afterFlush : State := out (exec .flush afterWrbits)
def readBack : State := args 2 0 (reading [0xEF, 0x1E] r0)

/-- R-14: 13 bits of 0xDEADBEEF, flushed, are the bytes EF 1E. -/
theorem witness_WrittenBitsReadBack :
    player.Inv ∧ exec .winit player = .next afterWinit ∧
    exec (.wrbits 13) { afterWinit with arg0 := 0xDEADBEEF } = .next afterWrbits ∧ afterWrbits.status.ecode = 0x00 ∧
    exec .flush afterWrbits = .next afterFlush ∧ readBack.Inv ∧ readBack.arg0 = afterFlush.writer.bytes ∧
    readBack.arg0.toNat ≤ readBack.cfg.rcap ∧
    ∀ i, i < afterFlush.writer.bytes.toNat → readBack.rbufByte i = afterFlush.wbufByte i :=
  ⟨player_inv, rfl, rfl, by decide, rfl, inv_of_checked (by decide), by decide, by decide, by decide⟩

theorem witness_VencAppendsTheVarint :
    (args 127 0 (filled 1024 player)).Inv ∧
    (filled 1024 player).cfg.wcap < ceil8 ((filled 1024 player).writer.bitCount + 8 * 1) ∧ (args 127 0 player).Inv ∧
    ceil8 (player.writer.bitCount + 8 * 1) ≤ player.cfg.wcap :=
  ⟨filled_args_inv (by decide) _ _, by decide, args_inv player_inv, by decide⟩
/-- ARG0 = INT32_MIN has a five-byte image. -/
theorem witness_SvencAppendsTheZigzagVarint :
    (args 0x80000000 0 (filled 1020 player)).Inv ∧
    (filled 1020 player).cfg.wcap < ceil8 ((filled 1020 player).writer.bitCount + 8 * 5) ∧
    (args 0x80000000 0 (filled 1019 player)).Inv ∧
    ceil8 ((filled 1019 player).writer.bitCount + 8 * 5) ≤ (filled 1019 player).cfg.wcap :=
  ⟨filled_args_inv (by decide) _ _, by decide, filled_args_inv (by decide) _ _, by decide⟩

/-- Two bytes that hold 300, at the start of RBUF. -/
def v300 : State := reading [0xAC, 0x02] r0

theorem v300_varint : VarintAt v300.reader.avail (v300.reader.bit v300.rbufByte) 2 300 where
  bytes := by decide
  present := by decide
  more i hi := by
    obtain rfl : i = 0 := by omega
    decide
  last := by decide
  value := by decide

/-- Five bytes whose fifth has bits above bit 31: 0xFFFFFFFF. -/
def v5 : State := reading [0xFF, 0xFF, 0xFF, 0xFF, 0x7F] r0

theorem v5_varint : VarintAt v5.reader.avail (v5.reader.bit v5.rbufByte) 5 0xFFFFFFFF where
  bytes := by decide
  present := by decide
  more i hi := by
    have : i < 4 := by omega
    interval_cases i <;> decide
  last := by decide
  value := by decide

def cutState : State := reading [0x80, 0x80] r0
def longState : State := reading [0xFF, 0xFF, 0xFF, 0xFF, 0xFF] r0

theorem cut_varint : cutState.Inv ∧ VarintCut cutState.reader.avail (cutState.reader.bit cutState.rbufByte) :=
  ⟨inv_of_checked (by decide), by decide, by decide⟩
theorem long_varint : longState.Inv ∧ VarintLong longState.reader.avail (longState.reader.bit longState.rbufByte) :=
  ⟨inv_of_checked (by decide), by decide, by decide⟩

theorem witness_VdecReadsAVarint :
    (v300.Inv ∧ VarintAt v300.reader.avail (v300.reader.bit v300.rbufByte) 2 300) ∧
    (v5.Inv ∧ VarintAt v5.reader.avail (v5.reader.bit v5.rbufByte) 5 0xFFFFFFFF) ∧
    (cutState.Inv ∧ VarintCut cutState.reader.avail (cutState.reader.bit cutState.rbufByte)) ∧
    (longState.Inv ∧ VarintLong longState.reader.avail (longState.reader.bit longState.rbufByte)) :=
  ⟨⟨inv_of_checked (by decide), v300_varint⟩, ⟨inv_of_checked (by decide), v5_varint⟩, cut_varint, long_varint⟩
theorem witness_SvdecReadsAZigzagVarint :
    v300.Inv ∧ VarintAt v300.reader.avail (v300.reader.bit v300.rbufByte) 2 300 ∧
    (300 : Word).toNat % 2 = 0 ∧ (0xFFFFFFFF : Word).toNat % 2 = 1 :=
  ⟨inv_of_checked (by decide), v300_varint, by decide, by decide⟩
theorem witness_ZigzagAndVarintAreBijections :
    0 + (varintEnc 300).length ≤ 2 ∧ bytesFrom v300.rbufByte 0 (varintEnc 300).length = varintEnc 300 := by decide
theorem witness_BitsreqFindsTheLeastWidth :
    (args 5 4 r0).arg1.toInt < (args 5 4 r0).arg0.toInt ∧ (args 5 5 r0).arg0.toInt ≤ (args 5 5 r0).arg1.toInt ∧
    (args 0x80000000 0x7FFFFFFF r0).arg0.toInt ≤ (args 0x80000000 0x7FFFFFFF r0).arg1.toInt := by decide

theorem witness_StrencAppendsTheString :
    (args 0 256 player).Inv ∧ 255 < (args 0 256 player).arg1.toNat ∧ (args 300 255 player).Inv ∧
    player.cfg.xcap < 300 + 255 ∧ (args 0 1 (filled 1023 player)).Inv ∧ varintEnc 1 = [1] ∧
    padBits ((filled 1023 player).writer.bitCount + 8 * 1) = 0 ∧
    8 * (filled 1023 player).cfg.wcap < (filled 1023 player).writer.bitCount + (8 * 1 + 0 + 8 * 1) ∧
    (args 0 1 (filled 1022 player)).Inv ∧
    (filled 1022 player).writer.bitCount + (8 * 1 + 0 + 8 * 1) ≤ 8 * (filled 1022 player).cfg.wcap :=
  ⟨args_inv player_inv, by decide, args_inv player_inv, by decide, filled_args_inv (by decide) _ _, by decide, by decide,
    by decide, filled_args_inv (by decide) _ _, by decide⟩

/-- A string of length 2 at the start of RBUF, and one whose second byte is missing. -/
def text2 : State := reading [0x02, 0x61, 0x62] r0
def text2Cut : State := reading [0x02, 0x61] r0

theorem text2_varint : VarintAt text2.reader.avail (text2.reader.bit text2.rbufByte) 1 2 where
  bytes := by decide
  present := by decide
  more i hi := by omega
  last := by decide
  value := by decide
theorem text2Cut_varint : VarintAt text2Cut.reader.avail (text2Cut.reader.bit text2Cut.rbufByte) 1 2 where
  bytes := by decide
  present := by decide
  more i hi := by omega
  last := by decide
  value := by decide

/-- 300 is over 255; 511 + 2 is over XCAP and 510 + 2 is not; one byte of two is missing. -/
theorem witness_StrdecReadsTheString :
    (v300.Inv ∧ VarintAt v300.reader.avail (v300.reader.bit v300.rbufByte) 2 300 ∧ 255 < (300 : Word).toNat) ∧
    ((args 511 0 text2).Inv ∧ r0.cfg.xcap < 511 + 2) ∧
    ((args 510 0 text2Cut).Inv ∧ VarintAt text2Cut.reader.avail (text2Cut.reader.bit text2Cut.rbufByte) 1 2 ∧
      510 + 2 ≤ r0.cfg.xcap ∧ text2Cut.reader.len.toNat < text2Cut.reader.cur.toNat + 1 + 2) ∧
    ((args 510 0 text2).Inv ∧ VarintAt text2.reader.avail (text2.reader.bit text2.rbufByte) 1 2 ∧
      text2.reader.cur.toNat + 1 + 2 ≤ text2.reader.len.toNat) :=
  ⟨⟨inv_of_checked (by decide), v300_varint, by decide⟩, ⟨args_inv (inv_of_checked (by decide)), by decide⟩,
    ⟨args_inv (inv_of_checked (by decide)), text2Cut_varint, by decide, by decide⟩,
    ⟨args_inv (inv_of_checked (by decide)), text2_varint, by decide⟩⟩
theorem witness_StrdecNeedsALength :
    (cutState.Inv ∧ VarintCut cutState.reader.avail (cutState.reader.bit cutState.rbufByte)) ∧
    (longState.Inv ∧ VarintLong longState.reader.avail (longState.reader.bit longState.rbufByte)) :=
  ⟨cut_varint, long_varint⟩

/-- RC-5, RC-6, RC-8, and a record of 8 bytes with 7 bytes left in WBUF. -/
theorem witness_RecencChecksInOrder :
    (fields 1024 300 100 85 270 2 1 0 r0).Inv ∧ inRange playerNumeric (fields 1024 300 100 85 270 2 1 0 r0).f = false ∧
    (fields 500 300 100 85 270 2 1 256 r0).Inv ∧ 255 < (fields 500 300 100 85 270 2 1 256 r0).f.f7.toNat ∧
    (args 400 0 (fields 500 300 100 85 270 2 1 200 r0)).Inv ∧ r0.cfg.xcap < 400 + 200 ∧
    (fields 1023 1023 1023 100 359 3 1 0 (filled 1017 player)).Inv ∧
    8 * (filled 1017 player).cfg.wcap < (filled 1017 player).writer.bitCount + 49 + 8 * (varintEnc 0).length +
      padBits ((filled 1017 player).writer.bitCount + 49 + 8 * (varintEnc 0).length) + 8 * 0 := by
  refine ⟨inv_of_checked (by decide), by decide, inv_of_checked (by decide), by decide, args_inv (inv_of_checked (by decide)),
    by decide, ?_, by decide⟩
  have h : (filled 1017 player).Inv := filled_inv (by decide) rfl player_inv
  exact ⟨h.config, h.status, h.writer, h.reader, h.rbufCanonical, h.rbufInside, h.xbufCanonical, h.xbufInside⟩
theorem witness_RecencLaysOutTheRecord :
    player.Inv ∧ varintEnc player.f.f7 = [5] ∧ padBits (player.writer.bitCount + 49 + 8 * 1) = 7 ∧
    player.f.f0.toNat ≤ 1023 ∧ player.f.f1.toNat ≤ 1023 ∧ player.f.f2.toNat ≤ 1023 ∧ player.f.f3.toNat ≤ 100 ∧
    player.f.f4.toNat ≤ 359 ∧ player.f.f5.toNat ≤ 3 ∧ player.f.f7.toNat ≤ 255 ∧
    player.arg0.toNat + player.f.f7.toNat ≤ player.cfg.xcap ∧
    player.writer.bitCount + (49 + 8 * 1 + 7 + 8 * 5) ≤ 8 * player.cfg.wcap :=
  ⟨player_inv, by decide⟩

/-- The bytes of `player` in RBUF, the name's destination at the end of XBUF. -/
def received : State := args 507 0 (reading playerBytes r0)

theorem received_varint :
    VarintAt (received.reader.avail - 49) (fun k => received.reader.bit received.rbufByte (49 + k)) 1 5 where
  bytes := by decide
  present := by decide
  more i hi := by omega
  last := by decide
  value := by decide

theorem witness_RecdecReadsTheRecord :
    received.Inv ∧ 8 = ceil8 (49 + 8 * 1 - received.reader.cnt.toNat) ∧ 49 ≤ received.reader.avail ∧
    (∀ k, k < 49 → received.reader.bit received.rbufByte k = playerBits player.f k) ∧ player.f.f3.toNat ≤ 100 ∧
    player.f.f4.toNat ≤ 359 ∧ player.f.f6.toNat ≤ 1 ∧
    VarintAt (received.reader.avail - 49) (fun k => received.reader.bit received.rbufByte (49 + k)) 1 5 ∧
    player.f.f7 = 5 ∧ received.arg0.toNat + 5 ≤ received.cfg.xcap ∧
    received.reader.cur.toNat + 8 + 5 ≤ received.reader.len.toNat :=
  ⟨inv_of_checked (by decide), by decide, by decide, by decide, by decide, by decide, by decide, received_varint, by decide,
    by decide, by decide⟩

/-- 48 unread bits; and a health of 101. -/
theorem witness_RecdecRejectsFieldsOutOfRange :
    (reading [0xF4, 0xB1, 0x44, 0x46, 0xD5, 0xA1] r0).Inv ∧
    (reading [0xF4, 0xB1, 0x44, 0x46, 0xD5, 0xA1] r0).reader.avail < 49 ∧
    (reading [0xF4, 0xB1, 0x44, 0x46, 0xD9, 0xA1, 0x01] r0).Inv ∧
    49 ≤ (reading [0xF4, 0xB1, 0x44, 0x46, 0xD9, 0xA1, 0x01] r0).reader.avail ∧
    (∀ k, k < 49 → (reading [0xF4, 0xB1, 0x44, 0x46, 0xD9, 0xA1, 0x01] r0).reader.bit
      (reading [0xF4, 0xB1, 0x44, 0x46, 0xD9, 0xA1, 0x01] r0).rbufByte k =
        playerBits (fields 500 300 100 101 270 2 1 0 r0).f k) :=
  ⟨inv_of_checked (by decide), by decide, inv_of_checked (by decide), by decide, by decide⟩
/-- The records whose names RECDEC refuses: RD-6, a length of five continuation flags, RD-5, and RD-4. -/
def nameCut : State := reading [0xF4, 0xB1, 0x44, 0x46, 0xD5, 0xA1, 0x01] r0
def nameLong : State := reading [0xF4, 0xB1, 0x44, 0x46, 0xD5, 0xA1, 0x01, 0x01, 0x01, 0x01, 0x01, 0x01] r0
def nameOver : State := reading [0xF4, 0xB1, 0x44, 0x46, 0xD5, 0xA1, 0x01, 0x05, 0x00] r0
def nameShort : State := reading [0xF4, 0xB1, 0x44, 0x46, 0xD5, 0xA1, 0x0B, 0x00, 0x61, 0x62] r0

theorem nameOver_varint :
    VarintAt (nameOver.reader.avail - 49) (fun k => nameOver.reader.bit nameOver.rbufByte (49 + k)) 2 256 where
  bytes := by decide
  present := by decide
  more i hi := by
    obtain rfl : i = 0 := by omega
    decide
  last := by decide
  value := by decide

theorem nameShort_varint :
    VarintAt (nameShort.reader.avail - 49) (fun k => nameShort.reader.bit nameShort.rbufByte (49 + k)) 1 5 where
  bytes := by decide
  present := by decide
  more i hi := by omega
  last := by decide
  value := by decide

/-- For XRANGE, `received` with its name's destination one byte further. -/
theorem witness_RecdecRejectsItsName :
    (∀ s ∈ [nameCut, nameLong, nameOver, nameShort, received], 49 ≤ s.reader.avail ∧
      ∀ k, k < 49 → s.reader.bit s.rbufByte k = playerBits player.f k) ∧
    nameCut.Inv ∧ VarintCut (nameCut.reader.avail - 49) (fun k => nameCut.reader.bit nameCut.rbufByte (49 + k)) ∧
    nameLong.Inv ∧ VarintLong (nameLong.reader.avail - 49) (fun k => nameLong.reader.bit nameLong.rbufByte (49 + k)) ∧
    nameOver.Inv ∧
    VarintAt (nameOver.reader.avail - 49) (fun k => nameOver.reader.bit nameOver.rbufByte (49 + k)) 2 256 ∧
    nameShort.Inv ∧
    VarintAt (nameShort.reader.avail - 49) (fun k => nameShort.reader.bit nameShort.rbufByte (49 + k)) 1 5 ∧
    nameShort.reader.len.toNat < nameShort.reader.cur.toNat + ceil8 (49 + 8 * 1 - nameShort.reader.cnt.toNat) + 5 ∧
    (args 508 0 received).Inv ∧ received.cfg.xcap < 508 + 5 :=
  ⟨by decide, inv_of_checked (by decide), ⟨by decide, by decide⟩, inv_of_checked (by decide), ⟨by decide, by decide⟩,
    inv_of_checked (by decide), nameOver_varint, inv_of_checked (by decide), nameShort_varint, by decide, args_inv (inv_of_checked (by decide)),
    by decide⟩
theorem witness_RecordsRoundTrip :
    player.Inv ∧ (∃ t, exec .recenc player = .next t) ∧ (out (exec .recenc player)).status.ecode = 0x00 ∧ received.Inv ∧
    player.writer.bitCount + 104 = (out (exec .recenc player)).writer.bitCount ∧ 104 ≤ received.reader.avail ∧
    (∀ k, k < 104 → received.reader.bit received.rbufByte k =
      (out (exec .recenc player)).writer.bit (player.writer.bitCount + k)) ∧
    (received.reader.cnt.toNat + player.writer.cnt.toNat) % 8 = 0 ∧
    received.arg0.toNat + player.f.f7.toNat ≤ received.cfg.xcap :=
  ⟨player_inv, ⟨_, rfl⟩, by decide, inv_of_checked (by decide), by decide, by decide, by decide, by decide, by decide⟩

theorem witness_TagsPackAndParse :
    2 ^ 29 ≤ (args 0x20000000 0 r0).arg0.toNat ∧ 7 < (args 0 8 r0).arg1.toNat ∧
    (args 0x1FFFFFFF 7 r0).arg0.toNat < 2 ^ 29 ∧ (args 0x1FFFFFFF 7 r0).arg1.toNat ≤ 7 := by decide
/-- A message of 19 bytes with 18 and with 19 bytes left in WBUF. -/
theorem witness_TwencLaysOutTheMessage :
    (filled 1006 r0).Inv ∧ (messageBytes (objectOf (filled 1006 r0).f)).length = 19 ∧
    (filled 1006 r0).cfg.wcap < ceil8 (filled 1006 r0).writer.bitCount + 19 ∧ (filled 1005 r0).Inv ∧
    ceil8 (filled 1005 r0).writer.bitCount + 19 ≤ (filled 1005 r0).cfg.wcap := by
  have h : r0.cfg = Config.smallest := rfl
  have hp : (args 0 0 r0).Inv := inv_of_checked (by decide)
  have hr : ∀ n, n ≤ 1024 → (filled n r0).Inv := fun n hn => by
    have := filled_inv hn rfl hp
    exact ⟨this.config, this.status, this.writer, this.reader, this.rbufCanonical, this.rbufInside, this.xbufCanonical,
      this.xbufInside⟩
  exact ⟨hr _ (by decide), by decide, by decide, hr _ (by decide), by decide⟩

/-- Items of every kind: an unknown LEN; a position with y and an unknown I64, its length 14 in a non-shortest form; an id
whose tag has a non-shortest form and whose fifth byte has bits above bit 31 (T-D23). -/
def someItems : List MessageItem :=
  [.unknown ⟨[0x2A], .len [0x02] [0xFF, 0xFF]⟩,
    .position [0x12] [0x8E, 0x00] [⟨[0x15], .i32 0x40000000⟩, ⟨[0x21], .i64 1 2⟩],
    .id [0x88, 0x00] [0xFF, 0xFF, 0xFF, 0xFF, 0x7F]]

def holding (bs : List Byte) : State := args (BitVec.ofNat 32 bs.length) 0 (reading bs r0)

/-- `holding bs` is legal, and its reader stands at `bs`. -/
abbrev Holds (bs : List Byte) : Prop :=
  Checked (holding bs) ∧ (holding bs).arg0.toNat = bs.length ∧ bs.length ≤ (holding bs).reader.left ∧
  bytesFrom (holding bs).rbufByte 0 bs.length = bs

theorem witness_TwdecDecodesEveryMessage :
    Holds (messageOf someItems) ∧ someItems.all MessageItem.ok = true ∧
    someItems.foldl MessageItem.apply ⟨0, 0, 0, 0⟩ = ⟨0xFFFFFFFF, 0, 0x40000000, 0⟩ := by decide

/-- ARG0 past RLEN (T-D25); wire type 7 and id as LEN behind items (T-D17, T-D14); y as LEN inside a position (T-D18). -/
theorem witness_TwdecRejectsWrongWireTypes :
    (Checked (args 3 0 (reading [0x08, 0x01] r0)) ∧
      (args 3 0 (reading [0x08, 0x01] r0)).reader.len.toNat < (args 3 0 (reading [0x08, 0x01] r0)).reader.cur.toNat + 3) ∧
    (∀ x ∈ [(3, 7, 0x1F), (1, 2, 0x0A)], varintOk [x.2.2] = true ∧ (varintWord [x.2.2]).toNat = 8 * x.1 + x.2.1 ∧
      ¬ OuterAllows x.1 x.2.1 ∧ Holds (messageOf someItems ++ ([x.2.2] ++ [0]))) ∧
    varintOk [0x12] = true ∧ (varintWord [0x12]).toNat = 8 * 2 + 2 ∧ ¬ NestedAllows 2 2 ∧
    ([⟨[0x15], .i32 7⟩] : List WireField).all WireField.nestedOk = true ∧
    (varintWord [0x07]).toNat = ([0x15, 7, 0, 0, 0] ++ ([0x12] ++ [0x00])).length ∧ varintWord [0x12] = 0x12 ∧
    Holds (messageOf someItems ++ ([0x12] ++ ([0x07] ++ ([0x15, 7, 0, 0, 0] ++ ([0x12] ++ [0x00]))) ++ [0x08, 0x01])) :=
  ⟨by decide, by decide, by decide, by decide, by decide, by decide, by decide, by decide, by decide⟩

/-- Every way to break off: a tag cut and a tag too long; id without its value and with one too long (T-D21, T-D24); an I64
of 7 bytes, an I32 of 3; the position without its length, with one too long, and with a body of 1 byte out of 2. -/
theorem witness_BreaksOff_outer :
    BreaksOff OuterAllows [0x80, 0x80] 0x07 ∧ BreaksOff OuterAllows [0x80, 0x80, 0x80, 0x80, 0xFF] 0x06 ∧
    BreaksOff OuterAllows ([0x08] ++ []) 0x07 ∧ BreaksOff OuterAllows ([0x08] ++ [0xFF, 0xFF, 0xFF, 0xFF, 0xFF, 1]) 0x06 ∧
    BreaksOff OuterAllows ([0x19] ++ [1, 2, 3, 4, 5, 6, 7]) 0x0A ∧ BreaksOff OuterAllows ([0x1D] ++ [1, 2, 3]) 0x0A ∧
    BreaksOff OuterAllows ([0x12] ++ []) 0x07 ∧ BreaksOff OuterAllows ([0x12] ++ [0x80, 0x80, 0x80, 0x80, 0x80]) 0x06 ∧
    BreaksOff OuterAllows ([0x12] ++ ([0x02] ++ [1])) 0x0A :=
  ⟨.tagCut (by decide) (by decide), .tagLong (by decide), .varintCut (fn := 1) (by decide) (by decide) (by decide) (by decide),
    .varintLong (fn := 1) (by decide) (by decide) (by decide) (by decide),
    .i64Short (fn := 3) (by decide) (by decide) (by decide) (by decide),
    .i32Short (fn := 3) (by decide) (by decide) (by decide) (by decide),
    .lenCut (fn := 2) (by decide) (by decide) (by decide) (by decide),
    .lenLong (fn := 2) (by decide) (by decide) (by decide) (by decide),
    .lenShort (fn := 2) (by decide) (by decide) (by decide) (by decide) (by decide)⟩

/-- T-D20 and T-D11: an I32 and an unknown I64 past the nested region. -/
theorem witness_BreaksOff_nested :
    BreaksOff NestedAllows ([0x0D] ++ [0, 0]) 0x0A ∧ BreaksOff NestedAllows ([0x21] ++ [0, 0, 0, 0]) 0x0A :=
  ⟨.i32Short (fn := 1) (by decide) (by decide) (by decide) (by decide),
    .i64Short (fn := 4) (by decide) (by decide) (by decide) (by decide)⟩

/-- Two of these behind items, and T-D11's body inside a position with bytes after it. -/
theorem witness_TwdecRejectsBrokenMessages :
    Holds (messageOf someItems ++ ([0x08] ++ [])) ∧ Holds (messageOf someItems ++ ([0x12] ++ ([0x02] ++ [1]))) ∧
    ([⟨[0x0D], .i32 7⟩] : List WireField).all WireField.nestedOk = true ∧ varintWord [0x12] = 0x12 ∧
    (varintWord [0x0A]).toNat = ([0x0D, 7, 0, 0, 0] ++ ([0x21] ++ [0, 0, 0, 0])).length ∧
    Holds (messageOf someItems ++
      ([0x12] ++ ([0x0A] ++ ([0x0D, 7, 0, 0, 0] ++ ([0x21] ++ [0, 0, 0, 0]))) ++ [0, 0, 0, 0])) :=
  ⟨by decide, by decide, by decide, by decide, by decide, by decide⟩

/-- T-E6's message, behind a pending bit, put at RBUF[0]. -/
def objectSent : State := fields 1 2 3 4 0 0 0 0 (run 0x0311 (args 1 0 r0))

theorem witness_TaggedObjectsRoundTrip :
    objectSent.Inv ∧ (∃ t, exec .twenc objectSent = .next t) ∧ (out (exec .twenc objectSent)).status.ecode = 0x00 ∧
    (holding (messageBytes (objectOf objectSent.f))).Inv ∧
    1 + (out (exec .twenc objectSent)).res0.toNat = (out (exec .twenc objectSent)).writer.bytes.toNat ∧
    (holding (messageBytes (objectOf objectSent.f))).arg0 = (out (exec .twenc objectSent)).res0 ∧
    (out (exec .twenc objectSent)).res0.toNat ≤ (holding (messageBytes (objectOf objectSent.f))).reader.left ∧
    ∀ i, i < (out (exec .twenc objectSent)).res0.toNat →
      (holding (messageBytes (objectOf objectSent.f))).rbufByte (0 + i) = (out (exec .twenc objectSent)).wbufByte (1 + i) :=
  ⟨inv_of_checked (by decide), ⟨_, rfl⟩, by decide, inv_of_checked (by decide), by decide, by decide, by decide, by decide⟩

end Sys2Proof.Machine.Tests
end

/-! PROOF. Every step keeps the implementation's parameters (00_scope.md R9; 10_state.md R20, R32). Commands are treated
by what none of them writes (R24, R72), the port by its three outcomes. -/

namespace Sys2Proof.Machine

/-- What a command only reads: the parameters, CMD, the operands, RBUF, what is the host's, and the reset count. -/
structure CommandInput where
  cfg : Config
  cmd : Word
  arg0 : Word
  arg1 : Word
  rbuf : Memory
  hostQueue : List HostAccess
  hostReads : List Word
  resetDraw : Nat

/-- The part of a state that no command writes. -/
def State.input (s : State) : CommandInput where
  cfg := s.cfg
  cmd := s.cmd
  arg0 := s.arg0
  arg1 := s.arg1
  rbuf := s.rbuf
  hostQueue := s.hostQueue
  hostReads := s.hostReads
  resetDraw := s.resetDraw

/-- A command that made `r` of its working copy of `s` left its input alone, if it completes at all. -/
def KeepsInput (s : State) (r : Except ErrorCode State) : Prop := ∀ s', r = .ok s' → s'.input = s.input

section
variable {s s' t : State} {r r' : Except ErrorCode State} {α : Type}

theorem KeepsInput.ok (h : s'.input = s.input) : KeepsInput s (.ok s') := fun _ e => Except.ok.inj e ▸ h

theorem KeepsInput.error {e : ErrorCode} : KeepsInput s (.error e) := fun _ h => nomatch h

/-- An operation's result, committed by `f`. -/
theorem KeepsInput.map {x : Except ErrorCode α} {f : α → State} (h : ∀ a, (f a).input = s.input) :
    KeepsInput s (x.map f) := by
  cases x with
  | ok a => exact .ok (h a)
  | error e => exact .error

/-- A check before the rest of the command. -/
theorem KeepsInput.ite {c : Prop} [Decidable c] (h : KeepsInput s r) (h' : KeepsInput s r') :
    KeepsInput s (if c then r else r') := by
  split
  · exact h
  · exact h'

/-- Neither end of a command touches its input: both write STATUS alone. -/
theorem finish_input (hr : KeepsInput s r) (h : finish s r = .next t) : t.input = s.input := by
  obtain ⟨s', hs, rfl⟩ | ⟨e, -, rfl⟩ := finish_cases h
  · exact hr s' hs
  · rfl
end

/-- Every command ends by `finish`, with a working copy in which its input is as it was. -/
theorem exec_eq_finish (i : Instr) (s : State) : ∃ r, exec i s = finish s r ∧ KeepsInput s r := by
  cases i with
  | nop | winit | flush | zzenc32 | zzdec32 | zzenc64 | zzdec64 | ptag =>
    refine ⟨.ok _, rfl, .ok ?_⟩
    rfl
  | wrbool | rdbool | venc | vdec | svenc | svdec | bitsreq | strenc | strdec | recdec | mktag | twenc =>
    exact ⟨_, rfl, .map fun _ => rfl⟩
  | wrbits | rdbits => exact ⟨_, rfl, .ite (.map fun _ => rfl) .error⟩
  | wrbytes | twdec => exact ⟨_, rfl, .ite .error (.map fun _ => rfl)⟩
  | rinit => exact ⟨_, rfl, .ite .error (.ok rfl)⟩
  | rdbytes => exact ⟨_, rfl, .ite .error (.ite (.ok rfl) (.ok rfl))⟩
  | recenc => exact ⟨_, rfl, .ite .error (.ite .error (.ite .error (.map fun _ => rfl)))⟩

/-- No command changes its input (R24, R72, R120). -/
theorem exec_input {i : Instr} {s t : State} (h : exec i s = .next t) : t.input = s.input := by
  obtain ⟨r, hr, hk⟩ := exec_eq_finish i s
  exact finish_input hk (hr ▸ h)

/-- A CMD write stores the word and changes nothing else that commands only read, whether the word decodes or not. -/
theorem commandCycle_input {c : Word} {s t : State} (h : commandCycle c s = .next t) :
    t.input = (s.setCmd c).input := by
  unfold commandCycle at h
  split at h
  · exact exec_input h
  · cases h
    rfl

/-! The port. -/

/-- The state an access leads to, if it is no bus error, has the parameters of `s`. -/
def PortResult.KeepsConfig (s : State) : PortResult → Prop
  | .done s' => s'.cfg = s.cfg
  | .command _ s' => s'.cfg = s.cfg
  | .busError _ => True

section
variable (s : State)

@[simp] theorem writeReg_cfg (r : Reg) (v : Word) : (writeReg r v s).cfg = s.cfg := by cases r <;> rfl

theorem windowWrite_keepsConfig (b : Buffer) (i : Nat) (v : Byte) : (windowWrite b i v s).KeepsConfig s := by
  cases b with
  | wbuf => trivial
  | rbuf => rfl
  | xbuf => rfl

/-- A correct access of width `n` does what `p` says; of another width it is a bus error. -/
theorem PortResult.KeepsConfig.width {s : State} {bits n : Nat} {p : PortResult} {f : Fault} (h : p.KeepsConfig s) :
    (if bits = n then p else .busError f).KeepsConfig s := by
  split
  · exact h
  · trivial

theorem portRead_keepsConfig (bits : Nat) (addr : Word) : (portRead bits addr s).KeepsConfig s := by
  unfold portRead
  cases placeAt s.cfg (hostOffset s.cfg addr) with
  | reg r => exact .width rfl
  | byte b i => exact .width rfl
  | misaligned => trivial
  | nothing => trivial

theorem portWrite_keepsConfig (bits : Nat) (addr data : Word) : (portWrite bits addr data s).KeepsConfig s := by
  unfold portWrite
  split
  · exact .width rfl
  · exact .width (writeReg_cfg s _ _)
  · exact .width (windowWrite_keepsConfig s _ _ _)
  · trivial
  · trivial

/-- A read, a write and the reset input each keep the parameters (R32, R300). -/
theorem portAccess_keepsConfig (a : HostAccess) : (portAccess a s).KeepsConfig s := by
  cases a with
  | read bits addr => exact portRead_keepsConfig s bits addr
  | write bits addr data => exact portWrite_keepsConfig s bits addr data
  | reset => rfl
end

theorem serveAccess_cfg {a : HostAccess} {s t : State} (h : serveAccess a s = .next t) : t.cfg = s.cfg := by
  have hk := portAccess_keepsConfig s a
  unfold serveAccess at h
  split at h
  next s' hp =>
    rw [hp] at hk
    cases h
    exact hk
  next c s' hp =>
    rw [hp] at hk
    have hc : t.cfg = s'.cfg := congrArg CommandInput.cfg (commandCycle_input h)
    exact hc.trans hk
  next => cases h

/-- Settles O16: an idle step changes nothing, and a step that serves an access keeps the parameters through the port
and through the command the access may start. -/
theorem stepKeepsTheConfiguration : Obligations.StepKeepsTheConfiguration := by
  unfold Obligations.StepKeepsTheConfiguration
  intro s t h
  cases hq : s.hostQueue with
  | nil =>
    rw [step_idle hq] at h
    cases h
    rfl
  | cons a q =>
    rw [step_cons hq] at h
    exact (serveAccess_cfg h).trans (State.setHostQueue_cfg q s)

end Sys2Proof.Machine

/-! PROOF. Every step keeps the legal states legal (10_state.md R28, R30; 20_memory.md R60; 60_exceptions.md R271). The
micro-operations keep the writer's and the reader's invariants; a command commits only what they return; the port
writes bytes below their buffer's capacity. -/

namespace Sys2Proof.Machine

/-- Where the operation succeeds, its result satisfies `P`. -/
def Yields {α : Type} (P : α → Prop) (x : Except ErrorCode α) : Prop := ∀ a, x = .ok a → P a

section
variable {α β : Type} {P : α → Prop} {Q : β → Prop} {x y : Except ErrorCode α} {a : α} {e : ErrorCode}

theorem Yields.ok (h : P a) : Yields P (.ok a) := fun _ e => Except.ok.inj e ▸ h

theorem Yields.error : Yields P (.error e) := fun _ h => nomatch h

theorem Yields.bind {f : α → Except ErrorCode β} (h : Yields P x) (hf : ∀ a, P a → Yields Q (f a)) :
    Yields Q (x >>= f) := by
  cases x with
  | ok a => exact hf a (h a rfl)
  | error e => exact .error

theorem Yields.map {f : α → β} (h : Yields P x) (hf : ∀ a, P a → Q (f a)) : Yields Q (x.map f) := by
  cases x with
  | ok a => exact .ok (hf a (h a rfl))
  | error e => exact .error

/-- An operation of whose result nothing need be known. -/
theorem Yields.trivial : Yields (fun _ => True) x := fun _ _ => True.intro

theorem Yields.ite {c : Prop} [Decidable c] (h : c → Yields P x) (h' : ¬ c → Yields P y) :
    Yields P (if c then x else y) := by
  split
  next hc => exact h hc
  next hc => exact h' hc

/-- A check that raises an error, before the rest of the operation. -/
theorem Yields.check {c : Prop} [Decidable c] (h : ¬ c → Yields P x) : Yields P (if c then .error e else x) :=
  .ite (fun _ => .error) h
end

/-! The writer. -/

/-- A fresh writer over any legal WBUF (R144, R300). -/
theorem Writer.restart_inv {cap : Nat} {w : Writer} (hb : Memory.wf w.buf = true) (hi : Memory.below cap w.buf = true) :
    ({ w with bytes := 0, cnt := 0, acc := 0, total := 0 } : Writer).Inv cap where
  clean := by change (0 : Acc).toNat < 2 ^ (0 : Word).toNat; decide
  pending := by change (0 : Word).toNat ≤ 7; decide
  fits := (ceil8_le_iff _ _).2 (Nat.zero_le _)
  canonical := hb
  inside := hi
  known i h := absurd h (Nat.not_lt_zero i)

/-- bits_required (R184) of a range never exceeds a word. -/
theorem bitsLoop_le (fuel b d : Nat) : bitsLoop fuel b d ≤ b + fuel := by
  induction fuel generalizing b with
  | zero => exact Nat.le_refl b
  | succ fuel ih =>
    rw [bitsLoop]
    split
    · have := ih (b + 1)
      omega
    · omega

theorem NumericField.width_le (x : NumericField) : Yields (· ≤ 32) x.width := .check fun _ => .ok (bitsLoop_le 31 1 _)

section
variable {cap n : Nat} {w : Writer} (hc : cap ≤ 65536) (h : w.Inv cap)
include hc h

theorem Writer.put_inv (v : Word) (hn : n ≤ 32) : Yields (Writer.Inv cap) (w.put cap v n) := by
  by_cases hfit : ceil8 (w.bitCount + n) ≤ cap
  · obtain ⟨w', hw, hi, -⟩ := Writer.put_ok v hc h hn hfit
    rw [hw]
    exact .ok hi
  · rw [Writer.put_full v (Nat.not_le.1 hfit)]
    exact .error

theorem Writer.putBytes_inv (bs : List Byte) : Yields (Writer.Inv cap) (w.putBytes cap bs) := by
  by_cases hfit : ceil8 (w.bitCount + 8 * bs.length) ≤ cap
  · obtain ⟨w', hw, hi, -⟩ := Writer.putBytes_ok bs hc h hfit
    rw [hw]
    exact .ok hi
  · rw [Writer.putBytes_full bs hc h (Nat.not_le.1 hfit)]
    exact .error

theorem Writer.flush_inv : w.flush.Inv cap := (Writer.flush_spec hc h).1

theorem Writer.putRaw_inv (bs : List Byte) : Yields (Writer.Inv cap) (w.putRaw cap bs) := by
  by_cases hfit : w.bytes.toNat + (w.cnt.toNat + 7) / 8 + bs.length ≤ cap
  · obtain ⟨w', hw, hi, -⟩ := Writer.putRaw_ok bs hc h hfit
    rw [hw]
    exact .ok hi
  · rw [Writer.putRaw_full bs hc h (Nat.not_le.1 hfit)]
    exact .error

theorem putNumeric_inv (f : FRegs) (xs : List NumericField) : Yields (Writer.Inv cap) (putNumeric cap f xs w) := by
  induction xs generalizing w with
  | nil => exact .ok h
  | cons x xs ih => exact x.width_le.bind fun n hn => (Writer.put_inv hc h _ hn).bind fun w1 h1 => ih h1
end

section
variable {s : State} {w : Writer} (hc : s.cfg.wcap ≤ 65536)
include hc

theorem State.strWrite_inv (h : w.Inv s.cfg.wcap) (a n : Nat) : Yields (Writer.Inv s.cfg.wcap) (s.strWrite a n w) :=
  .check fun _ => .check fun _ => (Writer.putBytes_inv hc h _).bind fun _ h1 => Writer.putRaw_inv hc h1 _

theorem State.putPlayer_inv (h : s.writer.Inv s.cfg.wcap) : Yields (Writer.Inv s.cfg.wcap) s.putPlayer :=
  (putNumeric_inv hc h _ _).bind fun _ h1 => (Writer.put_inv hc h1 _ (by decide)).bind fun _ h2 =>
    (State.strWrite_inv hc h2 _ _).bind fun _ h3 => .ok (Writer.flush_inv hc h3)
end

/-! The reader. -/

/-- A fresh reader over bytes of RBUF (R164, R300). -/
theorem Reader.start_inv {cap : Nat} {len : Word} (h : len.toNat ≤ cap) :
    ({ len := len, cur := 0, cnt := 0, total := 0, acc := 0 } : Reader).Inv cap where
  cursor := Nat.zero_le _
  length := h
  partialByte := by change (0 : Word).toNat ≤ 7; decide
  clean := by change (0 : Acc).toNat < 2 ^ (0 : Word).toNat; decide
  pulled h0 := absurd h0 (Nat.lt_irrefl 0)

section
variable {cap : Nat} {rd : Nat → Byte} {r : Reader} (hc : cap ≤ 65536) (h : r.Inv cap)
include hc h

theorem Reader.take_inv {n : Nat} (hn : n ≤ 32) : Yields (fun v => v.2.Inv cap) (r.take rd n) := by
  by_cases hav : n ≤ r.avail
  · obtain ⟨v, r', hr, hi, -⟩ := Reader.take_ok (rd := rd) hc h hn hav
    rw [hr]
    exact .ok hi
  · rw [Reader.take_short (Nat.not_le.1 hav)]
    exact .error

/-- Passing bytes that are there, from a byte boundary. -/
theorem Reader.align_skip_inv {k : Nat} (n : Nat) (hk : k ≤ r.left) : (r.align.skip k n).Inv cap :=
  (Reader.skip_inv hc (Reader.align_inv h) hk rfl).1

theorem varintDecLoop_inv (fuel n : Nat) (acc : Word) :
    Yields (fun v => v.2.2.Inv cap) (varintDecLoop (streamNext rd) fuel acc n r) := by
  induction fuel generalizing acc n r with
  | zero => exact .error
  | succ fuel ih =>
    rw [varintDecLoop]
    by_cases h8 : r.avail < 8
    · rw [streamNext_short h8]
      exact .error
    · obtain ⟨b, r1, hr, h1, -⟩ := streamNext_ok (rd := rd) hc h (Nat.not_lt.1 h8)
      rw [hr]
      exact .ite (fun _ => ih h1 _ _) fun _ => .ok h1

theorem varintDec_inv : Yields (fun v => v.2.2.Inv cap) (varintDec (streamNext rd) r) := varintDecLoop_inv hc h 5 0 0

theorem takeNumeric_inv (xs : List NumericField) (f : FRegs) :
    Yields (fun v => v.2.Inv cap) (takeNumeric rd xs f r) := by
  induction xs generalizing f r with
  | nil => exact .ok h
  | cons x xs ih => exact x.width_le.bind fun n hn => (Reader.take_inv hc h hn).bind fun v hv => ih hv _
end

/-- A legal buffer of `cap` bytes (R60): canonical, and within its capacity. -/
def Memory.Legal (cap : Nat) (m : Memory) : Prop := Memory.wf m = true ∧ Memory.below cap m = true

theorem Memory.Legal.storeBytes {cap a : Nat} {m : Memory} (h : m.Legal cap) (bs : List Byte)
    (ha : a + bs.length ≤ cap) : (storeBytes m a bs).Legal cap :=
  ⟨wf_storeBytes a bs h.1, below_storeBytes bs h.2 ha⟩

theorem State.Inv.xbuf {s : State} (h : s.Inv) : s.xbuf.Legal s.cfg.xcap := ⟨h.xbufCanonical, h.xbufInside⟩

section
variable {s : State} {r : Reader} {a : Nat} (hs : s.Inv)
include hs

/-- takeraw (R169) after its caller's check: the reader passes the bytes, and they stay within XBUF. -/
theorem Reader.takeRaw_inv (h : r.Inv s.cfg.rcap) (rd : Nat → Byte) {n : Nat} (ha : a + n ≤ s.cfg.xcap) :
    Yields (fun v => v.1.Inv s.cfg.rcap ∧ v.2.Legal s.cfg.xcap) (r.takeRaw rd a n s.xbuf) :=
  .check fun hl => .ok ⟨Reader.align_skip_inv hs.config.2.1.2 h n (Nat.not_lt.1 hl),
    hs.xbuf.storeBytes _ (by rwa [bytesFrom_length])⟩

theorem State.strRead_inv (h : r.Inv s.cfg.rcap) :
    Yields (fun v => v.2.1.Inv s.cfg.rcap ∧ v.2.2.Legal s.cfg.xcap) (s.strRead a r) :=
  (varintDec_inv hs.config.2.1.2 h).bind fun _ hv => .check fun _ => .check fun ha =>
    (Reader.takeRaw_inv hs hv _ (Nat.not_lt.1 ha)).bind fun _ ht => .ok ht

theorem State.takePlayer_inv :
    Yields (fun v => v.2.1.Inv s.cfg.rcap ∧ v.2.2.Legal s.cfg.xcap) s.takePlayer :=
  (takeNumeric_inv hs.config.2.1.2 hs.reader _ _).bind fun _ hv =>
    (Reader.take_inv hs.config.2.1.2 hv (by decide)).bind fun _ hb => .check fun _ =>
      (State.strRead_inv hs hb).bind fun _ ht => .ok ht
end

/-! Commands. `State.Inv` speaks of the parameters, STATUS, the writer, the reader and the two input buffers alone, so
`{ h with … }` names just what a command changed of them. -/

theorem legalWidth_le {w : Nat} (h : legalWidth w = true) : w ≤ 32 := (of_decide_eq_true h).2

/-- RDBYTES' steps after its check (R167). -/
theorem State.readBytes_inv {s : State} (h : s.Inv) (ha : ¬ s.cfg.xcap < s.arg0.toNat + s.arg1.toNat) :
    s.readBytes.Inv := by
  have hle : s.copyCount ≤ s.arg1.toNat := Nat.min_le_left _ _
  obtain ⟨hw, hb⟩ := h.xbuf.storeBytes (a := s.arg0.toNat)
    (bytesFrom s.rbufByte s.reader.cur.toNat s.copyCount) (by rw [bytesFrom_length]; omega)
  exact { h with
    reader := Reader.align_skip_inv h.config.2.1.2 h.reader _ (Nat.min_le_right _ _)
    xbufCanonical := hw
    xbufInside := hb }

/-- What a command made of its working copy of a legal state is legal. -/
theorem exec_yields_inv {s : State} (h : s.Inv) (i : Instr) : ∃ r, exec i s = finish s r ∧ Yields State.Inv r := by
  have hw := h.config.1.2
  have hr := h.config.2.1.2
  cases i with
  | nop => exact ⟨_, rfl, .ok h⟩
  | zzenc32 | zzdec32 | zzenc64 | zzdec64 | ptag => exact ⟨.ok _, rfl, .ok { h with }⟩
  | bitsreq | mktag => exact ⟨_, rfl, Yields.trivial.map fun _ _ => { h with }⟩
  | winit => exact ⟨.ok _, rfl, .ok { h with writer := Writer.restart_inv h.writer.canonical h.writer.inside }⟩
  | flush => exact ⟨.ok _, rfl, .ok { h with writer := Writer.flush_inv hw h.writer }⟩
  | wrbits w =>
    exact ⟨_, rfl, .ite (fun hl => (Writer.put_inv hw h.writer _ (legalWidth_le hl)).map fun _ h1 =>
      { h with writer := h1 }) fun _ => .error⟩
  | wrbool => exact ⟨_, rfl, (Writer.put_inv hw h.writer _ (by decide)).map fun _ h1 => { h with writer := h1 }⟩
  | wrbytes =>
    exact ⟨_, rfl, .check fun _ => (Writer.putRaw_inv hw h.writer _).map fun _ h1 => { h with writer := h1 }⟩
  | twenc => exact ⟨_, rfl, (Writer.putRaw_inv hw h.writer _).map fun _ h1 => { h with writer := h1 }⟩
  | venc | svenc => exact ⟨_, rfl, (Writer.putBytes_inv hw h.writer _).map fun _ h1 => { h with writer := h1 }⟩
  | strenc => exact ⟨_, rfl, (State.strWrite_inv hw h.writer _ _).map fun _ h1 => { h with writer := h1 }⟩
  | recenc =>
    exact ⟨_, rfl, .check fun _ => .check fun _ => .check fun _ =>
      (State.putPlayer_inv hw h.writer).map fun _ h1 => { h with writer := h1 }⟩
  | rinit => exact ⟨_, rfl, .check fun hl => .ok { h with reader := Reader.start_inv (Nat.not_lt.1 hl) }⟩
  | rdbits w =>
    exact ⟨_, rfl, .ite (fun hl => (Reader.take_inv hr h.reader (legalWidth_le hl)).map fun _ h1 =>
      { h with reader := h1 }) fun _ => .error⟩
  | rdbool => exact ⟨_, rfl, (Reader.take_inv hr h.reader (by decide)).map fun _ h1 => { h with reader := h1 }⟩
  | vdec | svdec => exact ⟨_, rfl, (varintDec_inv hr h.reader).map fun _ h1 => { h with reader := h1 }⟩
  | rdbytes =>
    exact ⟨_, rfl, .check fun ha => .ite (fun _ => .ok { State.readBytes_inv h ha with status := h.status })
      fun _ => .ok (State.readBytes_inv h ha)⟩
  | strdec =>
    exact ⟨_, rfl, (State.strRead_inv h h.reader).map fun _ ⟨h1, hx⟩ =>
      { h with reader := h1, xbufCanonical := hx.1, xbufInside := hx.2 }⟩
  | recdec =>
    exact ⟨_, rfl, (State.takePlayer_inv h).map fun _ ⟨h1, hx⟩ =>
      { h with reader := h1, xbufCanonical := hx.1, xbufInside := hx.2 }⟩
  | twdec =>
    exact ⟨_, rfl, .check fun hl => Yields.trivial.map fun _ _ =>
      { h with reader := Reader.align_skip_inv hr h.reader _ (Nat.not_lt.1 hl) }⟩

theorem takeError_inv {s : State} (h : s.Inv) (e : ErrorCode) : (takeError e s).Inv :=
  { h with status := e.code_bounds.2 }

theorem commit_inv {s : State} (h : s.Inv) : (commit s).Inv := { h with status := Nat.zero_le _ }

theorem exec_inv {i : Instr} {s t : State} (h : s.Inv) (ht : exec i s = .next t) : t.Inv := by
  obtain ⟨r, hr, hi⟩ := exec_yields_inv h i
  obtain ⟨s', hs, rfl⟩ | ⟨e, -, rfl⟩ := finish_cases (hr ▸ ht)
  · exact commit_inv (hi s' hs)
  · exact takeError_inv h e

theorem commandCycle_inv {c : Word} {s t : State} (h : s.Inv) (ht : commandCycle c s = .next t) : t.Inv := by
  have hc : (s.setCmd c).Inv := { h with }
  unfold commandCycle at ht
  split at ht
  · exact exec_inv hc ht
  · cases ht
    exact takeError_inv hc .illegal

/-! The port and reset. -/

/-- The state after reset is legal, whatever the implementation (R300). -/
theorem State.resetWith_inv {c : Config} (hc : c.Legal) : (State.resetWith c).Inv where
  config := hc
  status := Nat.zero_le _
  writer := Writer.restart_inv (w := Writer.empty) rfl rfl
  reader := Reader.start_inv (Nat.zero_le _)
  rbufCanonical := rfl
  rbufInside := rfl
  xbufCanonical := rfl
  xbufInside := rfl

/-- The state an access leads to is legal, if it is no bus error. -/
def PortResult.KeepsInv : PortResult → Prop
  | .done s => s.Inv
  | .command _ s => s.Inv
  | .busError _ => True

/-- A correct access of width `n` does what `p` says; of another width it is a bus error. -/
theorem PortResult.KeepsInv.width {bits n : Nat} {p : PortResult} {f : Fault} (h : p.KeepsInv) :
    (if bits = n then p else .busError f).KeepsInv := by
  split
  · exact h
  · trivial

/-- A window byte is below its buffer's capacity (R62). -/
theorem placeAt_byte_lt {c : Config} (hl : c.Legal) {o i : Nat} {b : Buffer} (h : placeAt c o = .byte b i) :
    i < Config.capOf c b := by
  obtain ⟨r, hp, -⟩ | ⟨hp, hlo, hhi⟩ | ⟨hp, hlo, hhi⟩ | ⟨hp, hlo, hhi⟩ | ⟨hp | hp, -⟩ := placeAt_cases hl o <;>
    cases hp.symm.trans h
  · exact Nat.sub_lt_left_of_lt_add hlo hhi
  · exact Nat.sub_lt_left_of_lt_add hlo hhi
  · exact Nat.sub_lt_left_of_lt_add hlo hhi

section
variable {s : State} (h : s.Inv)
include h

/-- No register write leaves the legal states: STATUS alone is part of them, and its ECODE ignores the write (R23). -/
theorem writeReg_inv (r : Reg) (v : Word) : (writeReg r v s).Inv := by
  cases r with
  | cmd | arg0 | arg1 | f => exact { h with }
  | status => exact { h with status := h.status }
  | _ => exact h

theorem windowWrite_inv (b : Buffer) {i : Nat} (hi : i < Config.capOf s.cfg b) (v : Byte) :
    (windowWrite b i v s).KeepsInv := by
  cases b with
  | wbuf => trivial
  | rbuf =>
    exact { h with
      rbufCanonical := Memory.wf_write i v h.rbufCanonical
      rbufInside := Memory.below_write v h.rbufInside hi }
  | xbuf =>
    exact { h with
      xbufCanonical := Memory.wf_write i v h.xbufCanonical
      xbufInside := Memory.below_write v h.xbufInside hi }

theorem portRead_inv (bits : Nat) (addr : Word) : (portRead bits addr s).KeepsInv := by
  unfold portRead
  cases placeAt s.cfg (hostOffset s.cfg addr) with
  | reg r => exact .width { h with }
  | byte b i => exact .width { h with }
  | misaligned => trivial
  | nothing => trivial

theorem portWrite_inv (bits : Nat) (addr data : Word) : (portWrite bits addr data s).KeepsInv := by
  unfold portWrite
  split
  next => exact .width h
  next => exact .width (writeReg_inv h _ _)
  next b i hp => exact .width (windowWrite_inv h b (placeAt_byte_lt h.config hp) _)
  next => trivial
  next => trivial

theorem portAccess_inv (a : HostAccess) : (portAccess a s).KeepsInv := by
  cases a with
  | read bits addr => exact portRead_inv h bits addr
  | write bits addr data => exact portWrite_inv h bits addr data
  | reset => exact { State.resetWith_inv h.config with }

theorem serveAccess_inv {a : HostAccess} {t : State} (ht : serveAccess a s = .next t) : t.Inv := by
  have hk := portAccess_inv h a
  unfold serveAccess at ht
  split at ht
  next s' hp =>
    rw [hp] at hk
    cases ht
    exact hk
  next c s' hp =>
    rw [hp] at hk
    exact commandCycle_inv hk ht
  next => cases ht
end

/-- Settles O15: an idle step changes nothing, and a step that serves an access keeps the state legal through the port
and through the command the access may start. -/
theorem stepKeepsLegalStates : Obligations.StepKeepsLegalStates := by
  unfold Obligations.StepKeepsLegalStates
  intro s t h ht
  cases hq : s.hostQueue with
  | nil =>
    rw [step_idle hq] at ht
    cases ht
    exact h
  | cons a q =>
    rw [step_cons hq] at ht
    have hs : (s.setHostQueue q).Inv := { h with }
    exact serveAccess_inv hs ht

/-- Settles O14: the reset state of the smallest legal capacities. -/
theorem resetStateIsLegal : Obligations.ResetStateIsLegal := State.resetWith_inv (by decide)

end Sys2Proof.Machine

/-! PROOF. What a command may write (10_state.md R24, R25, R27, R29, R31; 20_memory.md R72; 30_encoding.md R94), said
once for every command, and that STATUS steers none of them (R35). -/

namespace Sys2Proof.Machine

/-- Settles O19: no command writes its input, and each part named is a part of the input. -/
theorem commandsKeepOperandsAndInput : Obligations.CommandsKeepOperandsAndInput := by
  unfold Obligations.CommandsKeepOperandsAndInput
  intro i s t h
  have hi := exec_input h
  exact ⟨congrArg CommandInput.arg0 hi, congrArg CommandInput.arg1 hi, congrArg CommandInput.cmd hi,
    congrArg CommandInput.rbuf hi, congrArg CommandInput.cfg hi, congrArg CommandInput.hostQueue hi,
    congrArg CommandInput.hostReads hi, congrArg CommandInput.resetDraw hi⟩

/-- `Effect s i s'`: a command `i` that completes on `s` commits a working copy `s'` that differs from `s` at most in
the named updates of its row. -/
inductive Effect (s : State) : Instr → State → Prop
  | nop : Effect s .nop s
  | winit (w : Writer) (n : Nat) : Effect s .winit ((s.setWriter w).setTailDraw n)
  | wrbits (k : Nat) (w : Writer) : Effect s (.wrbits k) (s.setWriter w)
  | wrbool (w : Writer) : Effect s .wrbool (s.setWriter w)
  | flush (w : Writer) : Effect s .flush (s.setWriter w)
  | wrbytes (w : Writer) : Effect s .wrbytes (s.setWriter w)
  | rinit (r : Reader) : Effect s .rinit (s.setReader r)
  | rdbits (k : Nat) (r : Reader) (v : Word) : Effect s (.rdbits k) ((s.setReader r).setRes0 v)
  | rdbool (r : Reader) (v : Word) : Effect s .rdbool ((s.setReader r).setRes0 v)
  | rdbytes (r : Reader) (x : Memory) (v : Word) : Effect s .rdbytes (((s.setReader r).setXbuf x).setRes0 v)
  /-- The one command that touches STATUS itself: a short copy sets SHORT (R168). -/
  | rdbytesShort (r : Reader) (x : Memory) (v : Word) :
      Effect s .rdbytes ((((s.setReader r).setXbuf x).setRes0 v).setStatus s.status.setShort)
  | venc (w : Writer) (v : Word) : Effect s .venc ((s.setWriter w).setRes0 v)
  | vdec (r : Reader) (v u : Word) : Effect s .vdec (((s.setReader r).setRes0 v).setRes1 u)
  | svenc (w : Writer) (v u : Word) : Effect s .svenc (((s.setWriter w).setRes0 v).setRes1 u)
  | svdec (r : Reader) (v u : Word) : Effect s .svdec (((s.setReader r).setRes0 v).setRes1 u)
  | zzenc32 (v : Word) : Effect s .zzenc32 (s.setRes0 v)
  | zzdec32 (v : Word) : Effect s .zzdec32 (s.setRes0 v)
  | zzenc64 (v u : Word) : Effect s .zzenc64 ((s.setRes0 v).setRes1 u)
  | zzdec64 (v u : Word) : Effect s .zzdec64 ((s.setRes0 v).setRes1 u)
  | bitsreq (v : Word) : Effect s .bitsreq (s.setRes0 v)
  | strenc (w : Writer) (v : Word) : Effect s .strenc ((s.setWriter w).setRes0 v)
  | strdec (r : Reader) (x : Memory) (v u : Word) :
      Effect s .strdec ((((s.setReader r).setXbuf x).setRes0 v).setRes1 u)
  | recenc (w : Writer) (v : Word) : Effect s .recenc ((s.setWriter w).setRes0 v)
  | recdec (r : Reader) (x : Memory) (f : FRegs) (v : Word) :
      Effect s .recdec ((((s.setReader r).setXbuf x).setF f).setRes0 v)
  | mktag (v : Word) : Effect s .mktag (s.setRes0 v)
  | ptag (v u : Word) : Effect s .ptag ((s.setRes0 v).setRes1 u)
  | twenc (w : Writer) (v u : Word) : Effect s .twenc (((s.setWriter w).setRes0 v).setRes1 u)
  /-- F0-F3 are written, F4-F7 are not (R254). -/
  | twdec (r : Reader) (o : ObjectRec) (v : Word) :
      Effect s .twdec (((s.setReader r).setF (storeObject o s.f)).setRes0 v)

/-- Every command's working copy, if it completes, is one its row of `Effect` allows. -/
theorem exec_yields_effect (i : Instr) (s : State) : ∃ r, exec i s = finish s r ∧ Yields (Effect s i) r := by
  cases i with
  | nop | winit | flush | zzenc32 | zzdec32 | zzenc64 | zzdec64 | ptag =>
    refine ⟨.ok _, rfl, .ok ?_⟩
    constructor
  | wrbool | rdbool | venc | vdec | svenc | svdec | bitsreq | strenc | strdec | recdec | mktag | twenc =>
    refine ⟨_, rfl, Yields.trivial.map fun _ _ => ?_⟩
    constructor
  | wrbits | rdbits =>
    refine ⟨_, rfl, .ite (fun _ => Yields.trivial.map fun _ _ => ?_) fun _ => .error⟩
    constructor
  | wrbytes | twdec =>
    refine ⟨_, rfl, .check fun _ => Yields.trivial.map fun _ _ => ?_⟩
    constructor
  | rinit => exact ⟨_, rfl, .check fun _ => .ok (.rinit _)⟩
  | rdbytes =>
    exact ⟨_, rfl, .check fun _ => .ite (fun _ => .ok (.rdbytesShort _ _ _)) fun _ => .ok (.rdbytes _ _ _)⟩
  | recenc =>
    exact ⟨_, rfl, .check fun _ => .check fun _ => .check fun _ => Yields.trivial.map fun _ _ => .recenc _ _⟩

/-- A command commits an effect of its row, or fails and writes STATUS alone (R121, R274). -/
theorem exec_cases {i : Instr} {s t : State} (h : exec i s = .next t) :
    (∃ s', Effect s i s' ∧ t = commit s') ∨ ∃ e, t = takeError e s := by
  obtain ⟨r, hr, he⟩ := exec_yields_effect i s
  obtain ⟨s', hs, ht⟩ | ⟨e, -, ht⟩ := finish_cases (hr ▸ h)
  · exact .inl ⟨s', he s' hs, ht⟩
  · exact .inr ⟨e, ht⟩

/-- Settles O20: the effects that hold a new writer or a new draw are those of the listed commands. -/
theorem onlyWriterCommandsChangeTheWriter : Obligations.OnlyWriterCommandsChangeTheWriter := by
  unfold Obligations.OnlyWriterCommandsChangeTheWriter
  intro i s t h
  obtain ⟨s', he, rfl⟩ | ⟨e, rfl⟩ := exec_cases h
  · cases he with
    | winit | wrbits | wrbool | flush | wrbytes | venc | svenc | strenc | recenc | twenc => simp
    | _ => exact .inl ⟨rfl, rfl⟩
  · exact .inl ⟨rfl, rfl⟩

/-- Settles O21: the effects that hold a new reader are those of the listed commands. -/
theorem onlyReaderCommandsChangeTheReader : Obligations.OnlyReaderCommandsChangeTheReader := by
  unfold Obligations.OnlyReaderCommandsChangeTheReader
  intro i s t h
  obtain ⟨s', he, rfl⟩ | ⟨e, rfl⟩ := exec_cases h
  · cases he with
    | rinit | rdbits | rdbool | rdbytes | rdbytesShort | vdec | svdec | strdec | recdec | twdec => simp
    | _ => exact .inl rfl
  · exact .inl rfl

/-- Settles O22: five effects hold new field registers, a new XBUF or SHORT, each as listed. -/
theorem onlyDecodersChangeFieldsXbufAndShort : Obligations.OnlyDecodersChangeFieldsXbufAndShort := by
  unfold Obligations.OnlyDecodersChangeFieldsXbufAndShort
  intro i s t h
  obtain ⟨s', he, rfl⟩ | ⟨e, rfl⟩ := exec_cases h
  · cases he with
    | recdec => exact ⟨.inr (.inl rfl), .inr (.inr (.inr rfl)), .inl rfl⟩
    | twdec => exact ⟨.inr (.inr ⟨rfl, rfl, rfl, rfl, rfl⟩), .inl rfl, .inl rfl⟩
    | strdec => exact ⟨.inl rfl, .inr (.inr (.inl rfl)), .inl rfl⟩
    | rdbytes => exact ⟨.inl rfl, .inr (.inl rfl), .inl rfl⟩
    | rdbytesShort => exact ⟨.inl rfl, .inr (.inl rfl), .inr ⟨rfl, rfl⟩⟩
    | _ => exact ⟨.inl rfl, .inl rfl, .inl rfl⟩
  · exact ⟨.inl rfl, .inl rfl, .inl rfl⟩

/-- Settles O23: the effects that hold a new RES0 or RES1 are those of the listed commands. -/
theorem resultsAreWrittenOnlyAsListed : Obligations.ResultsAreWrittenOnlyAsListed := by
  unfold Obligations.ResultsAreWrittenOnlyAsListed
  intro i s t h
  obtain ⟨s', he, rfl⟩ | ⟨e, rfl⟩ := exec_cases h
  · cases he with
    | nop | winit | wrbits | wrbool | flush | wrbytes | rinit => exact ⟨.inl rfl, .inl rfl⟩
    | rdbits k => exact ⟨.inr (.inl ⟨k, rfl⟩), .inl rfl⟩
    | vdec | svenc | svdec | zzenc64 | zzdec64 | strdec | ptag | twenc =>
      exact ⟨.inr (.inr (by decide)), .inr (by decide)⟩
    | _ => exact ⟨.inr (.inr (by decide)), .inl rfl⟩
  · exact ⟨.inl rfl, .inl rfl⟩

/-! Two runs that differ in STATUS. -/

/-- Two commands' working copies that are equal but for STATUS, or two failures with one code. -/
inductive SameButStatus : Except ErrorCode State → Except ErrorCode State → Prop
  | ok {s s' : State} (h : s'.setStatus s.status = s) : SameButStatus (.ok s) (.ok s')
  | error (e : ErrorCode) : SameButStatus (.error e) (.error e)

theorem SameButStatus.map {α : Type} {x : Except ErrorCode α} {f f' : α → State}
    (h : ∀ a, (f' a).setStatus (f a).status = f a) : SameButStatus (x.map f) (x.map f') := by
  cases x with
  | ok a => exact .ok (h a)
  | error e => exact .error e

theorem SameButStatus.ite {c : Prop} [Decidable c] {r r' q q' : Except ErrorCode State} (h : SameButStatus r r')
    (h' : SameButStatus q q') : SameButStatus (if c then r else q) (if c then r' else q') := by
  split
  · exact h
  · exact h'

/-- No command reads STATUS: what it makes of its working copy is the same under any other STATUS. -/
theorem exec_sameButStatus (i : Instr) (s : State) (st : Status) :
    ∃ r r', exec i s = finish s r ∧ exec i (s.setStatus st) = finish (s.setStatus st) r' ∧ SameButStatus r r' := by
  cases i with
  | nop | winit | flush | zzenc32 | zzdec32 | zzenc64 | zzdec64 | ptag =>
    refine ⟨.ok _, .ok _, rfl, rfl, .ok ?_⟩
    rfl
  | wrbool | rdbool | venc | vdec | svenc | svdec | bitsreq | strenc | strdec | recdec | mktag | twenc =>
    exact ⟨_, _, rfl, rfl, .map fun _ => rfl⟩
  | wrbits | rdbits => exact ⟨_, _, rfl, rfl, .ite (.map fun _ => rfl) (.error _)⟩
  | wrbytes | twdec => exact ⟨_, _, rfl, rfl, .ite (.error _) (.map fun _ => rfl)⟩
  | rinit => exact ⟨_, _, rfl, rfl, .ite (.error _) (.ok rfl)⟩
  | rdbytes => exact ⟨_, _, rfl, rfl, .ite (.error _) (.ite (.ok rfl) (.ok rfl))⟩
  | recenc => exact ⟨_, _, rfl, rfl, .ite (.error _) (.ite (.error _) (.ite (.error _) (.map fun _ => rfl)))⟩

/-- Settles O24: each of a command's two ends writes ECODE as it would under any other STATUS, and keeps the rest. -/
theorem statusNeverSteersACommand : Obligations.StatusNeverSteersACommand := by
  unfold Obligations.StatusNeverSteersACommand
  intro i s st
  obtain ⟨r, r', hr, hr', hs⟩ := exec_sameButStatus i s st
  cases hs with
  | @ok a b h => exact ⟨commit a, commit b, hr, hr', rfl, congrArg commit h⟩
  | error e => exact ⟨takeError e s, takeError e (s.setStatus st), hr, hr', rfl, rfl⟩

end Sys2Proof.Machine

/-! PROOF. The host's view of the register map (10_state.md R21, R23, R32, R36; 20_memory.md R74): the value each register
reads as, and what a write of it does. -/

namespace Sys2Proof.Machine

/-- The registers in the order of the register map (R21). -/
def registerMap : List Reg :=
  [.cmd, .status, .arg0, .arg1, .res0, .res1, .wbytes, .wcnt, .wtotal, .rlen, .rcur, .rcnt, .rtotal, .capw, .capr, .capx,
    .f .f0, .f .f1, .f .f2, .f .f3, .f .f4, .f .f5, .f .f6, .f .f7]

/-- The registers a host write leaves alone (R36). -/
def readOnlyRegs : List Reg := [.res0, .res1, .wbytes, .wcnt, .wtotal, .rlen, .rcur, .rcnt, .rtotal, .capw, .capr, .capx]

theorem writeReg_readOnly {r : Reg} (h : r ∈ readOnlyRegs) (v : Word) (s : State) : writeReg r v s = s := by
  cases r with
  | cmd | status | arg0 | arg1 | f => simp [readOnlyRegs] at h
  | _ => rfl

/-- Each register stands at its own offset (R21, R75). -/
theorem placeAt_offset (c : Config) (r : Reg) : placeAt c r.offset = .reg r := by
  cases r with
  | f k => cases k <;> rfl
  | _ => rfl

theorem Reg.offset_lt (r : Reg) : r.offset < 2 ^ 32 := by
  cases r with
  | f k => cases k <;> decide
  | _ => decide

/-- STATUS as a number (R23): its three fields stand in bits that do not overlap. -/
theorem Status.word_eq (st : Status) :
    st.word = BitVec.ofNat 32 (st.ecode.toNat + 256 * st.err.toNat + 512 * st.short.toNat) := by
  have hflags : ((bif st.short then 0x200 else 0) ||| (bif st.err then 0x100 else 0) : Word) =
      BitVec.ofNat 32 (2 ^ 8 * (st.err.toNat + 2 * st.short.toNat)) := by
    cases st.err <;> cases st.short <;> rfl
  have he : st.ecode.toNat < 2 ^ 8 := st.ecode.isLt
  have h1 := Bool.toNat_le st.err
  have h2 := Bool.toNat_le st.short
  apply BitVec.eq_of_toNat_eq
  rw [Status.word, hflags, BitVec.toNat_or, BitVec.toNat_ofNat, BitVec.toNat_setWidth, Nat.mod_eq_of_lt (by omega),
    Nat.mod_eq_of_lt (by omega), ← Nat.two_pow_add_eq_or_of_lt he, BitVec.toNat_ofNat]
  omega

section
variable {s : State} {q : List HostAccess}

theorem step_readReg {r : Reg} (h : s.hostQueue = .read 32 (s.cfg.base + BitVec.ofNat 32 r.offset) :: q) :
    step s = .next { s with hostQueue := q, hostReads := s.hostReads ++ [readReg r s] } := by
  rw [step_read h, hostOffset_base _ r.offset_lt, placeAt_offset]
  rfl

theorem step_writeReg {r : Reg} {v : Word} (hr : r ≠ .cmd)
    (h : s.hostQueue = .write 32 (s.cfg.base + BitVec.ofNat 32 r.offset) v :: q) :
    step s = .next (writeReg r v (s.setHostQueue q)) :=
  step_write_reg (placeAt_offset _ r) hr r.offset_lt h
end

/-- Settles O6: the table is the register map with what each register reads as. -/
theorem hostReadsEveryRegister : Obligations.HostReadsEveryRegister := by
  unfold Obligations.HostReadsEveryRegister
  intro s q o v h hm
  rw [← Status.word_eq] at hm
  obtain ⟨r, -, hr⟩ := List.mem_map.1 (show (o, v) ∈ registerMap.map fun r => (r.offset, readReg r s) from hm)
  cases hr
  exact step_readReg h

/-- Settles O7: a write does to its register what `writeReg` says, which for a read-only register is nothing. -/
theorem hostWritesStoreClearOrAreIgnored : Obligations.HostWritesStoreClearOrAreIgnored := by
  unfold Obligations.HostWritesStoreClearOrAreIgnored
  intro s q o v h
  have write : ∀ r : Reg, r ≠ .cmd → o = r.offset → step s = .next (writeReg r v (s.setHostQueue q)) := by
    rintro r hr rfl
    exact step_writeReg hr h
  refine ⟨write .arg0 nofun, write .arg1 nofun, write (.f .f0) nofun, write (.f .f1) nofun, write (.f .f2) nofun,
    write (.f .f3) nofun, write (.f .f4) nofun, write (.f .f5) nofun, write (.f .f6) nofun, write (.f .f7) nofun,
    write .status nofun, fun ho => ?_⟩
  obtain ⟨r, hr, rfl⟩ := List.mem_map.1 (show o ∈ readOnlyRegs.map Reg.offset from ho)
  have hc : r ≠ .cmd := by
    rintro rfl
    simp [readOnlyRegs] at hr
  rw [write r hc rfl, writeReg_readOnly hr]
  rfl

end Sys2Proof.Machine

/-! PROOF. The windows and the bus errors (20_memory.md R62-R64, R74-R77): what an 8-bit access of a window byte does, and
which accesses the block refuses. -/

namespace Sys2Proof.Machine

/-- A window byte's host address leads to that byte, in each window (R62, R75). -/
theorem placeAt_byteAddr {c : Config} (hl : c.Legal) (b : Buffer) {i : Nat} (hi : i < Config.capOf c b) :
    placeAt c (hostOffset c (byteAddr c b i)) = .byte b i := by
  obtain ⟨⟨-, hw⟩, ⟨-, hr⟩, ⟨-, hx⟩⟩ := hl
  unfold byteAddr
  cases b <;> simp only [Config.capOf, windowBase] at hi ⊢ <;> rw [hostOffset_base _ (by omega)]
  · exact placeAt_wbuf hw hi
  · exact placeAt_rbuf hr hi
  · exact placeAt_xbuf hx hi

section
variable {s : State} {q : List HostAccess} {i : Nat}

/-- A step that serves an 8-bit write of a window byte does what the window does with the low byte of the data (R62). -/
theorem step_writeByte {b : Buffer} {v : Word} {t : State} (hl : s.cfg.Legal) (hi : i < Config.capOf s.cfg b)
    (h : s.hostQueue = .write 8 (byteAddr s.cfg b i) v :: q)
    (hw : windowWrite b i (v.setWidth 8) (s.setHostQueue q) = .done t) : step s = .next t := by
  rw [step_cons h, serveAccess, portAccess, portWrite, State.setHostQueue_cfg, placeAt_byteAddr hl b hi]
  simp [hw]

/-- A step that serves an 8-bit read of a window byte records it, and does nothing else (R74). -/
theorem step_readByte {b : Buffer} (hl : s.cfg.Legal) (hi : i < Config.capOf s.cfg b)
    (h : s.hostQueue = .read 8 (byteAddr s.cfg b i) :: q) :
    step s = .next { s with hostQueue := q, hostReads := s.hostReads ++ [(windowByte b i s).setWidth 32] } := by
  rw [step_read h, placeAt_byteAddr hl b hi]
  rfl

/-- What the host reads of a window byte depends on the block alone, not on the host's own queue and record. -/
theorem windowByte_host (b : Buffer) (i : Nat) (q : List HostAccess) (vs : List Word) (s : State) :
    windowByte b i { s with hostQueue := q, hostReads := vs } = windowByte b i s := by
  cases b <;> rfl

/-- Every read of a window byte, whatever the host has read and has still to issue, returns the same byte. -/
theorem step_readByte_any (b : Buffer) (hl : s.cfg.Legal) (hi : i < Config.capOf s.cfg b) (q : List HostAccess)
    (vs : List Word) :
    step { s with hostQueue := .read 8 (byteAddr s.cfg b i) :: q, hostReads := vs } =
      .next { s with hostQueue := q, hostReads := vs ++ [(windowByte b i s).setWidth 32] } := by
  rw [← windowByte_host b i (.read 8 (byteAddr s.cfg b i) :: q) vs s]
  exact step_readByte (s := { s with hostQueue := .read 8 (byteAddr s.cfg b i) :: q, hostReads := vs }) hl hi rfl
end

/-- Settles O8: a window write stores its byte by `Memory.write`. -/
theorem hostWritesOneWindowByte : Obligations.HostWritesOneWindowByte := by
  unfold Obligations.HostWritesOneWindowByte
  intro s q i v hl
  exact ⟨fun hi h => ⟨_, step_writeByte (b := .rbuf) hl hi h rfl, fun j => Memory.read_write _ i j _⟩,
    fun hi h => ⟨_, step_writeByte (b := .xbuf) hl hi h rfl, fun j => Memory.read_write _ i j _⟩⟩

/-- Settles O9: the byte is `windowByte`, which is the one its buffer lists if it lists one. -/
theorem hostReadsLatestWindowByte : Obligations.HostReadsLatestWindowByte := by
  unfold Obligations.HostReadsLatestWindowByte
  intro s i hl
  refine ⟨fun hi => ⟨windowByte .wbuf i s, fun c hb hc => ?_, step_readByte_any .wbuf hl hi⟩,
    fun hi => ⟨windowByte .rbuf i s, fun c hc => ?_, step_readByte_any .rbuf hl hi⟩,
    fun hi => ⟨windowByte .xbuf i s, fun c hc => ?_, step_readByte_any .xbuf hl hi⟩⟩
  · rw [windowByte, State.wbufByte, if_pos hb, hc, Option.getD_some]
  · rw [windowByte, State.rbufByte, hc, Option.getD_some]
  · rw [windowByte, State.xbufByte, hc, Option.getD_some]

/-! Bus errors. -/

/-- The block takes a read of `bits` bits at this place (R63). -/
def Place.Readable (bits : Nat) : Place → Prop
  | .reg _ => bits = 32
  | .byte _ _ => bits = 8
  | .misaligned => False
  | .nothing => False

/-- The block takes a write of `bits` bits at this place (R62, R63): a WBUF byte takes none. -/
def Place.Writable (bits : Nat) : Place → Prop
  | .reg _ => bits = 32
  | .byte b _ => b ≠ .wbuf ∧ bits = 8
  | .misaligned => False
  | .nothing => False

/-- A command cycle never stops the machine: it completes or takes the error entry (R121, R123). -/
theorem commandCycle_ne_fault (c : Word) (s : State) (e : Fault) : commandCycle c s ≠ .fault e := by
  unfold commandCycle
  split
  next i _ =>
    obtain ⟨r, hr, -⟩ := exec_eq_finish i (s.setCmd c)
    rw [hr]
    cases r with
    | ok s' => exact nofun
    | error e' => exact nofun
  next => exact nofun

/-- A step stops the machine exactly if the access it serves is a bus error (R64). -/
theorem step_fault_iff {s : State} {a : HostAccess} {q : List HostAccess} (h : s.hostQueue = a :: q) :
    (∃ e, step s = .fault e) ↔ ∃ e, portAccess a (s.setHostQueue q) = .busError e := by
  rw [step_cons h, serveAccess]
  cases portAccess a (s.setHostQueue q) with
  | done s' => simp
  | command c s' => simp [commandCycle_ne_fault]
  | busError f => simp

theorem portRead_busError_iff (bits : Nat) (addr : Word) (s : State) :
    (∃ e, portRead bits addr s = .busError e) ↔ ¬ (placeAt s.cfg (hostOffset s.cfg addr)).Readable bits := by
  unfold portRead
  cases placeAt s.cfg (hostOffset s.cfg addr) with
  | reg r => by_cases hb : bits = 32 <;> simp [Place.Readable, hb]
  | byte b i => by_cases hb : bits = 8 <;> simp [Place.Readable, hb]
  | misaligned => simp [Place.Readable]
  | nothing => simp [Place.Readable]

theorem portWrite_busError_iff (bits : Nat) (addr data : Word) (s : State) :
    (∃ e, portWrite bits addr data s = .busError e) ↔ ¬ (placeAt s.cfg (hostOffset s.cfg addr)).Writable bits := by
  unfold portWrite
  cases placeAt s.cfg (hostOffset s.cfg addr) with
  | reg r => by_cases hb : bits = 32 <;> cases r <;> simp [Place.Writable, hb]
  | byte b i => by_cases hb : bits = 8 <;> cases b <;> simp [Place.Writable, windowWrite, hb]
  | misaligned => simp [Place.Writable]
  | nothing => simp [Place.Writable]

section
variable {c : Config} {bits o : Nat} (hl : c.Legal)
include hl

/-- Where a read is correct, as ranges of offsets (R21, R62, R63). -/
theorem placeAt_readable_iff : (placeAt c o).Readable bits ↔
    (o % 4 = 0 ∧ (o < 0x040 ∨ (0x080 ≤ o ∧ o < 0x0A0)) ∧ bits = 32) ∨
      (bits = 8 ∧ ((0x10000 ≤ o ∧ o < 0x10000 + c.wcap) ∨ (0x20000 ≤ o ∧ o < 0x20000 + c.rcap) ∨
        (0x30000 ≤ o ∧ o < 0x30000 + c.xcap))) := by
  obtain ⟨r, hp, -, h4, ho⟩ | ⟨hp, ho⟩ | ⟨hp, ho⟩ | ⟨hp, ho⟩ | ⟨hp | hp, ho⟩ := placeAt_cases hl o <;>
    rw [hp] <;> simp [Place.Readable] <;> omega

/-- Where a write is correct, as ranges of offsets (R21, R62, R63). -/
theorem placeAt_writable_iff : (placeAt c o).Writable bits ↔
    (o % 4 = 0 ∧ (o < 0x040 ∨ (0x080 ≤ o ∧ o < 0x0A0)) ∧ bits = 32) ∨
      (bits = 8 ∧ ((0x20000 ≤ o ∧ o < 0x20000 + c.rcap) ∨ (0x30000 ≤ o ∧ o < 0x30000 + c.xcap))) := by
  have hw := hl.1.2
  have hr := hl.2.1.2
  obtain ⟨r, hp, -, h4, ho⟩ | ⟨hp, ho⟩ | ⟨hp, ho⟩ | ⟨hp, ho⟩ | ⟨hp | hp, ho⟩ := placeAt_cases hl o <;>
    rw [hp] <;> simp [Place.Writable] <;> omega
end

/-- Settles O10: a step faults exactly where its access is a bus error, and the places that take the access are those of
the ranges. -/
theorem busErrorsExactly : Obligations.BusErrorsExactly := by
  unfold Obligations.BusErrorsExactly
  rintro s q bits addr data _ hl rfl
  constructor
  · intro h
    rw [step_fault_iff h, portAccess, portRead_busError_iff]
    exact not_congr (placeAt_readable_iff hl)
  · intro h
    rw [step_fault_iff h, portAccess, portWrite_busError_iff]
    exact not_congr (placeAt_writable_iff hl)

end Sys2Proof.Machine

/-! PROOF. A tagged-wire message whole: TWENC's in the layout of 45_tagged_wire.md R249, and TWDEC's walk of any accepted
one to its end (R251-R255). -/

namespace Sys2Proof.Machine

/-- The nested message of R249: three I32 fields, 15 bytes. -/
theorem nestedBytes_eq (o : ObjectRec) :
    nestedBytes o = [0x0D] ++ le32Bytes o.x ++ [0x15] ++ le32Bytes o.y ++ [0x1D] ++ le32Bytes o.z := rfl

theorem nestedBytes_length (o : ObjectRec) : (nestedBytes o).length = 15 := rfl

/-- The message of R249: id as a varint, then the nested message behind its tag and its length. -/
theorem messageBytes_eq (o : ObjectRec) :
    messageBytes o = [0x08] ++ varintEnc o.id ++ [0x12, 0x0F, 0x0D] ++ le32Bytes o.x ++ [0x15] ++ le32Bytes o.y ++
      [0x1D] ++ le32Bytes o.z := by
  have hfields : messageBytes o = ([0x08] ++ varintEnc o.id) ++
      (([0x12] ++ (varintEnc (BitVec.ofNat 32 (nestedBytes o).length) ++ nestedBytes o)) ++ []) := rfl
  have hlen : varintEnc (BitVec.ofNat 32 15) = [0x0F] := by decide
  rw [hfields, nestedBytes_length, hlen, nestedBytes_eq]
  simp

/-- How many bytes the writer's bits fill once they are flushed (R147). -/
theorem Writer.ceil8_bitCount (w : Writer) : ceil8 w.bitCount = w.bytes.toNat + (w.cnt.toNat + 7) / 8 := by
  unfold ceil8 Writer.bitCount
  omega

/-- Settles O53: TWENC is putraw of the message, which is R249's. -/
theorem twencLaysOutTheMessage : Obligations.TwencLaysOutTheMessage := by
  unfold Obligations.TwencLaysOutTheMessage
  intro s msg h hm
  have hmsg : messageBytes (objectOf s.f) = msg := (messageBytes_eq _).trans hm.symm
  have hc := h.config.1.2
  rw [Writer.ceil8_bitCount, exec, execTwenc, hmsg, nestedBytes_length]
  constructor
  · intro hfull
    rw [Writer.putRaw_full msg hc h.writer hfull]
    rfl
  · intro hfit
    obtain ⟨w', hw, -, happ, hcnt, hacc, htot, -⟩ := Writer.putRaw_ok msg hc h.writer hfit
    refine ⟨w', ?_, happ, hcnt, hacc, htot⟩
    rw [hw]
    rfl

/-- The reader behind a region of `n` bytes, its partial bits discarded and the region counted (R167, R254). -/
theorem Reader.align_skip (r : Reader) (n : Word) : r.align.skip n.toNat n.toNat =
    { len := r.len, cur := r.cur + n, cnt := 0, total := r.total + BitVec.ofNat 32 (8 * n.toNat), acc := 0 } := by
  simp [Reader.skip, Reader.align]

/-- The walk of a message of accepted items, from its first byte to its last (R251). -/
theorem walkOuter_message {rd : Nat → Byte} {items : List MessageItem} (hok : items.all MessageItem.ok = true) {lo : Nat}
    {o : ObjectRec} (hh : HoldsAt rd lo (messageOf items)) :
    walkOuter rd lo (lo + (messageOf items).length) o = .ok (items.foldl MessageItem.apply o) := by
  obtain ⟨fuel, -, hrun⟩ := walkOuter_run items hok hh (Nat.le_refl _)
  rw [hrun, walkLoop_end (Nat.le_refl _)]

/-- Settles O54: the walk takes the region to its end, and TWDEC commits what the items left of the zero record. -/
theorem twdecDecodesEveryMessage : Obligations.TwdecDecodesEveryMessage := by
  unfold Obligations.TwdecDecodesEveryMessage
  rintro s items o - hok hlen ⟨hleft, hh⟩ rfl
  have hwalk := walkOuter_message hok (o := ⟨0, 0, 0, 0⟩) hh
  rw [← hlen] at hwalk
  rw [exec, execTwdec_walk (hlen ▸ hleft), finish_map_ok _ hwalk, Reader.align_skip]
  rfl

end Sys2Proof.Machine

/-! PROOF. The encoding (30_encoding.md R90-R98): a word decodes to a command exactly if its three fields are those of the
command's canonical word, and a word that decodes to none takes the error entry. -/

namespace Sys2Proof

/-- A well-formed width is one that fits the field W (R91, R92). -/
theorem Instr.wellFormed_iff (i : Instr) : i.wellFormed = true ↔ i.width < 2 ^ 6 := by
  cases i with
  | wrbits w | rdbits w => simp [Instr.wellFormed, Instr.width]
  | _ => exact iff_of_true rfl (by decide)

/-- R97: the canonical word of a command that does not use W has 0 there. -/
theorem Instr.width_of_not_usesW {i : Instr} (h : i.usesW = false) : i.width = 0 := by
  cases i with
  | wrbits | rdbits => cases h
  | _ => rfl

/-- The rows of R96 read both ways: from OP to the command, and from the command to its OP. -/
theorem commandOf_eq_some_iff {op w : Nat} {i : Instr} :
    commandOf op w = some i ↔ op = i.opcode ∧ (i.usesW = true → w = i.width) := by
  constructor
  · intro h
    unfold commandOf at h
    split at h <;> cases h <;> simp [Instr.opcode, Instr.usesW, Instr.width]
  · rintro ⟨rfl, hw⟩
    cases i with
    | wrbits | rdbits => rw [hw rfl]; rfl
    | _ => rfl

/-- The OP values of no row of R96 (R98). -/
theorem commandOf_eq_none_iff {op : Nat} (w : Nat) (h : op < 256) : commandOf op w = none ↔
    (0x01 ≤ op ∧ op ≤ 0x0F) ∨ (0x15 ≤ op ∧ op ≤ 0x1F) ∨ (0x24 ≤ op ∧ op ≤ 0x2F) ∨ (0x39 ≤ op ∧ op ≤ 0x3F) ∨
      (0x44 ≤ op ∧ op ≤ 0x4F) ∨ 0x54 ≤ op := by
  unfold commandOf
  split
  case h_28 =>
    refine iff_of_true rfl ?_
    simp only [imp_false] at *
    omega
  all_goals exact iff_of_false nofun (by decide)

/-- A word decodes to `i` exactly if its fields are OP and W of `i`, and zeros (R93, R95, R96). -/
theorem decode_eq_ok_iff {c : Word} {i : Instr} :
    decode c = .ok i ↔ opField c = i.opcode ∧ widthField c = i.width ∧ reservedField c = 0 := by
  unfold decode
  constructor
  · intro h
    split at h
    · cases h
    next j hj =>
      split_ifs at h with hr hu
      cases h
      obtain ⟨hop, hw⟩ := commandOf_eq_some_iff.1 hj
      refine ⟨hop, ?_, not_not.1 hr⟩
      cases hi : i.usesW with
      | true => exact hw hi
      | false =>
        rw [Instr.width_of_not_usesW hi]
        exact not_not.1 fun h0 => hu ⟨hi, h0⟩
  · rintro ⟨hop, hw, hr⟩
    have hu : ¬ (i.usesW = false ∧ widthField c ≠ 0) := fun ⟨hi, h0⟩ => h0 (hw.trans (i.width_of_not_usesW hi))
    simp [commandOf_eq_some_iff.2 ⟨hop, fun _ => hw⟩, hr, hu]

/-- The three fields make up the word (R91). -/
theorem word_eq_of_fields {c d : Word} (hop : opField c = opField d) (hw : widthField c = widthField d)
    (hr : reservedField c = reservedField d) : c = d := by
  unfold opField at hop
  unfold widthField at hw
  unfold reservedField at hr
  exact BitVec.eq_of_toNat_eq (by omega)

/-- The fields of every canonical word, collected from the commands (R91, R97). -/
theorem fields_encode (i : Instr) : Laws.Fields.Statement i := by
  open Laws.Fields in
  exact match i with
  | .nop => nop | .winit => winit | .wrbits w => wrbits w | .wrbool => wrbool | .flush => flush | .wrbytes => wrbytes
  | .rinit => rinit | .rdbits w => rdbits w | .rdbool => rdbool | .rdbytes => rdbytes
  | .venc => venc | .vdec => vdec | .svenc => svenc | .svdec => svdec
  | .zzenc32 => zzenc32 | .zzdec32 => zzdec32 | .zzenc64 => zzenc64 | .zzdec64 => zzdec64 | .bitsreq => bitsreq
  | .strenc => strenc | .strdec => strdec | .recenc => recenc | .recdec => recdec
  | .mktag => mktag | .ptag => ptag | .twenc => twenc | .twdec => twdec

/-- Settles O1: the canonical word has the fields that the decoder asks for. -/
theorem decodeInvertsEncode : Obligations.DecodeInvertsEncode := by
  unfold Obligations.DecodeInvertsEncode
  exact fun i h => decode_eq_ok_iff.2 (fields_encode i h)

/-- Settles O2: the width is a 6-bit field, and a word with the fields of a canonical word is that word. -/
theorem encodeInvertsDecode : Obligations.EncodeInvertsDecode := by
  unfold Obligations.EncodeInvertsDecode
  intro c i h
  obtain ⟨hop, hw, hr⟩ := decode_eq_ok_iff.1 h
  have hwf : i.wellFormed = true := i.wellFormed_iff.2 (hw ▸ Nat.mod_lt _ (by decide))
  obtain ⟨hop', hw', hr'⟩ := fields_encode i hwf
  exact ⟨hwf, word_eq_of_fields (hop'.trans hop.symm) (hw'.trans hw.symm) (hr'.trans hr.symm)⟩

/-- Settles O3, by running the decoder on each word. -/
theorem sampleWordsDecode : Obligations.SampleWordsDecode := by
  unfold Obligations.SampleWordsDecode
  decide

end Sys2Proof

namespace Sys2Proof.Machine

/-- A command cycle on a word that decodes to no command is the error entry with ILLEGAL (R95, R98, R274). -/
theorem commandCycle_of_decode_error {c : Word} {e : DecodeError} (h : decode c = .error e) (s : State) :
    commandCycle c s = .next (State.failed (s.setCmd c) 0x01) := by
  rw [commandCycle, h]
  rfl

/-- Settles O5: by O2 a word that is no canonical word does not decode, and the table of R96 leaves out just R98's ranges. -/
theorem illegalWordsChangeOnlyCmdAndStatus : Obligations.IllegalWordsChangeOnlyCmdAndStatus := by
  unfold Obligations.IllegalWordsChangeOnlyCmdAndStatus
  refine ⟨fun s q c h hc => ?_, fun op w => commandOf_eq_none_iff w⟩
  rw [step_cmd h]
  cases hd : decode c with
  | ok i =>
    obtain ⟨hwf, he⟩ := encodeInvertsDecode c i hd
    exact absurd he (hc i hwf)
  | error e => exact commandCycle_of_decode_error hd _

end Sys2Proof.Machine

/-! PROOF. The command cycle and the control family (40_control.md R120-R127): which command a CMD write runs, its two
ends, and NOP. -/

namespace Sys2Proof.Machine

/-- A command cycle on a word that decodes stores the word and runs the command (R120, R121). -/
theorem commandCycle_of_decode_ok {c : Word} {i : Instr} (h : decode c = .ok i) (s : State) :
    commandCycle c s = exec i (s.setCmd c) := by
  rw [commandCycle, h]

/-- No command touches ERR in its working copy (R121). -/
theorem Effect.status_err {s s' : State} {i : Instr} (h : Effect s i s') : s'.status.err = s.status.err := by
  cases h <;> rfl

/-- Settles O17: a command commits an effect of its row, none of which holds a new ERR, or takes the error entry. -/
theorem commandsCompleteOrFailPrecisely : Obligations.CommandsCompleteOrFailPrecisely := by
  unfold Obligations.CommandsCompleteOrFailPrecisely
  intro i s
  obtain ⟨r, hr, he⟩ := exec_yields_effect i s
  rw [hr]
  cases r with
  | ok s' => exact .inl ⟨commit s', finish_ok s s', rfl, (he s' rfl).status_err⟩
  | error e =>
    obtain ⟨hlo, hhi⟩ := e.code_bounds
    exact .inr ⟨e.code, hlo, hhi, finish_error s e⟩

/-- Settles O4: the step runs a command cycle, and the word decodes. -/
theorem stepRunsDecodedCommand : Obligations.StepRunsDecodedCommand := by
  unfold Obligations.StepRunsDecodedCommand
  intro s q c i h hd
  rw [step_cmd h, commandCycle_of_decode_ok hd]
  rfl

/-- Settles O25: NOP commits the state as it stands. -/
theorem nopChangesOnlyEcode : Obligations.NopChangesOnlyEcode := by
  unfold Obligations.NopChangesOnlyEcode
  exact fun s => finish_ok s s

end Sys2Proof.Machine

/-! PROOF. An unwritten byte of RBUF or XBUF is fixed once drawn (70_reset_and_hazards.md R301; 40_control.md R128): no
step but a reset takes a byte off a buffer's list or moves the draw on. -/

namespace Sys2Proof.Machine

/-- Every byte that `m` lists, `m'` lists too, with whatever value. -/
def Memory.Grows (m m' : Memory) : Prop := ∀ i, Memory.read m' i = none → Memory.read m i = none

theorem Memory.Grows.refl (m : Memory) : m.Grows m := fun _ h => h

theorem Memory.Grows.trans {m m' m'' : Memory} (h : m.Grows m') (h' : m'.Grows m'') : m.Grows m'' :=
  fun i hi => h i (h' i hi)

theorem Memory.grows_write (m : Memory) (a : Nat) (b : Byte) : m.Grows (Memory.write m a b) := by
  intro i hi
  rw [Memory.read_write] at hi
  split at hi
  · cases hi
  · exact hi

theorem grows_storeBytes (m : Memory) (a : Nat) (bs : List Byte) : m.Grows (storeBytes m a bs) := by
  induction bs generalizing m a with
  | nil => exact .refl m
  | cons b bs ih => exact (m.grows_write a b).trans (ih _ _)

/-! The commands that write XBUF. -/

section
variable {s : State} {a : Nat} {r : Reader}

theorem Reader.takeRaw_grows (rd : Nat → Byte) (n : Nat) (m : Memory) :
    Yields (fun v => m.Grows v.2) (r.takeRaw rd a n m) := .check fun _ => .ok (grows_storeBytes _ _ _)

theorem State.strRead_grows : Yields (fun v => s.xbuf.Grows v.2.2) (s.strRead a r) :=
  Yields.trivial.bind fun _ _ => .check fun _ => .check fun _ =>
    (Reader.takeRaw_grows _ _ _).bind fun _ ht => .ok ht

theorem State.takePlayer_grows : Yields (fun v => s.xbuf.Grows v.2.2) s.takePlayer :=
  Yields.trivial.bind fun _ _ => Yields.trivial.bind fun _ _ => .check fun _ =>
    State.strRead_grows.bind fun _ ht => .ok ht
end

/-- Neither end of a command writes XBUF: only the working copy counts. -/
theorem finish_xbuf_grows {s t : State} {r : Except ErrorCode State} (hr : Yields (fun s' => s.xbuf.Grows s'.xbuf) r)
    (h : finish s r = .next t) : s.xbuf.Grows t.xbuf := by
  obtain ⟨s', hs, rfl⟩ | ⟨e, -, rfl⟩ := finish_cases h
  · exact hr s' hs
  · exact .refl _

/-- By O22 only three commands write XBUF, and each of them stores bytes in it. -/
theorem exec_xbuf_grows {i : Instr} {s t : State} (h : exec i s = .next t) : s.xbuf.Grows t.xbuf := by
  obtain ⟨-, hx | rfl | rfl | rfl, -⟩ := onlyDecodersChangeFieldsXbufAndShort i s t h
  · rw [hx]
    exact .refl _
  · have hstore : s.xbuf.Grows s.readBytes.xbuf := grows_storeBytes _ _ _
    refine finish_xbuf_grows ?_ h
    exact .check fun _ => .ite (fun _ => .ok hstore) fun _ => .ok hstore
  · exact finish_xbuf_grows (State.strRead_grows.map fun _ hv => hv) h
  · exact finish_xbuf_grows (State.takePlayer_grows.map fun _ hv => hv) h

/-! Steps. -/

/-- From `s` to `t` the draw stays, and RBUF and XBUF lose no byte they list. -/
structure State.KeepsDraw (s t : State) : Prop where
  draw : t.resetDraw = s.resetDraw
  rbuf : s.rbuf.Grows t.rbuf
  xbuf : s.xbuf.Grows t.xbuf

section
variable {s t : State}

theorem State.KeepsDraw.refl (s : State) : s.KeepsDraw s := ⟨rfl, .refl _, .refl _⟩

/-- A byte of RBUF still unwritten reads as it did. -/
theorem State.KeepsDraw.rbufByte (h : s.KeepsDraw t) {i : Nat} (ht : Memory.read t.rbuf i = none) :
    Memory.read s.rbuf i = none ∧ t.rbufByte i = s.rbufByte i := by
  have hs := h.rbuf i ht
  exact ⟨hs, by rw [State.rbufByte, State.rbufByte, ht, hs, h.draw]⟩

/-- A byte of XBUF still unwritten reads as it did. -/
theorem State.KeepsDraw.xbufByte (h : s.KeepsDraw t) {i : Nat} (ht : Memory.read t.xbuf i = none) :
    Memory.read s.xbuf i = none ∧ t.xbufByte i = s.xbufByte i := by
  have hs := h.xbuf i ht
  exact ⟨hs, by rw [State.xbufByte, State.xbufByte, ht, hs, h.draw]⟩

/-- A CMD write, whatever its word: RBUF and the draw are a command's input, and XBUF grows. -/
theorem commandCycle_keepsDraw {c : Word} (h : commandCycle c s = .next t) : s.KeepsDraw t := by
  have hin := commandCycle_input h
  have hrbuf : t.rbuf = s.rbuf := congrArg CommandInput.rbuf hin
  have hdraw : t.resetDraw = s.resetDraw := congrArg CommandInput.resetDraw hin
  refine ⟨hdraw, hrbuf ▸ .refl _, ?_⟩
  cases hd : decode c with
  | ok i => exact exec_xbuf_grows (s := s.setCmd c) (commandCycle_of_decode_ok hd s ▸ h)
  | error e =>
    rw [commandCycle_of_decode_error hd] at h
    cases h
    exact .refl _
end

/-- What a host access other than a reset comes to at `s` (R62-R64, R74, R120). -/
inductive PortEffect (s : State) : PortResult → Prop
  | read (v : Word) : PortEffect s (.done (recordRead v s))
  | writeReg (r : Reg) (v : Word) : PortEffect s (.done (writeReg r v s))
  | writeRbuf (i : Nat) (b : Byte) : PortEffect s (.done (s.setRbuf (Memory.write s.rbuf i b)))
  | writeXbuf (i : Nat) (b : Byte) : PortEffect s (.done (s.setXbuf (Memory.write s.xbuf i b)))
  | command (c : Word) : PortEffect s (.command c s)
  | busError (f : Fault) : PortEffect s (.busError f)

section
variable {s : State}

/-- A correct access of width `n` does what `p` says; of another width it is a bus error. -/
theorem PortEffect.width {bits n : Nat} {p : PortResult} {f : Fault} (h : PortEffect s p) :
    PortEffect s (if bits = n then p else .busError f) := by
  split
  · exact h
  · exact .busError f

theorem windowWrite_effect (b : Buffer) (i : Nat) (v : Byte) : PortEffect s (windowWrite b i v s) := by
  cases b with
  | wbuf => exact .busError _
  | rbuf => exact .writeRbuf i v
  | xbuf => exact .writeXbuf i v

theorem portRead_effect (bits : Nat) (addr : Word) : PortEffect s (portRead bits addr s) := by
  unfold portRead
  cases placeAt s.cfg (hostOffset s.cfg addr) with
  | reg r => exact .width (.read _)
  | byte b i => exact .width (.read _)
  | misaligned => exact .busError _
  | nothing => exact .busError _

theorem portWrite_effect (bits : Nat) (addr data : Word) : PortEffect s (portWrite bits addr data s) := by
  unfold portWrite
  split
  · exact .width (.command data)
  · exact .width (.writeReg _ data)
  · exact .width (windowWrite_effect _ _ _)
  · exact .busError _
  · exact .busError _

theorem portAccess_effect {a : HostAccess} (ha : a ≠ .reset) : PortEffect s (portAccess a s) := by
  cases a with
  | read bits addr => exact portRead_effect bits addr
  | write bits addr data => exact portWrite_effect bits addr data
  | reset => exact absurd rfl ha

/-- No register is part of a buffer, or of the draw. -/
theorem writeReg_keepsDraw (r : Reg) (v : Word) : s.KeepsDraw (writeReg r v s) := by
  cases r <;> exact ⟨rfl, .refl _, .refl _⟩

/-- Every access but a reset, with the command it may start. -/
theorem serveAccess_keepsDraw {a : HostAccess} {t : State} (ha : a ≠ .reset) (h : serveAccess a s = .next t) :
    s.KeepsDraw t := by
  unfold serveAccess at h
  have he := portAccess_effect (s := s) ha
  generalize portAccess a s = p at h he
  cases he with
  | read v =>
    cases h
    exact ⟨rfl, .refl _, .refl _⟩
  | writeReg r v =>
    cases h
    exact writeReg_keepsDraw r v
  | writeRbuf i b =>
    cases h
    exact ⟨rfl, s.rbuf.grows_write i b, .refl _⟩
  | writeXbuf i b =>
    cases h
    exact ⟨rfl, .refl _, s.xbuf.grows_write i b⟩
  | command c => exact commandCycle_keepsDraw h
  | busError f => cases h
end

theorem step_keepsDraw {s t : State} (h : step s = .next t) (hr : ∀ q, s.hostQueue ≠ .reset :: q) : s.KeepsDraw t := by
  cases hq : s.hostQueue with
  | nil =>
    rw [step_idle hq] at h
    cases h
    exact .refl _
  | cons a q =>
    rw [step_cons hq] at h
    have ha : a ≠ .reset := by
      rintro rfl
      exact hr q hq
    obtain ⟨hdraw, hrbuf, hxbuf⟩ := serveAccess_keepsDraw ha h
    exact ⟨hdraw, hrbuf, hxbuf⟩

/-- Settles O59: a byte still unwritten after the step was unwritten before it, so it reads as its draw both times. -/
theorem unwrittenBytesStayFixed : Obligations.UnwrittenBytesStayFixed := by
  unfold Obligations.UnwrittenBytesStayFixed
  intro s t i h hr
  have hk := step_keepsDraw h hr
  exact ⟨hk.rbufByte, hk.xbufByte⟩

end Sys2Proof.Machine

/-! PROOF. The writer family (41_bitstream_writer.md R144-R148): each command but WINIT is one micro-operation of the
writer, whose law says what it appends, and the command commits the new writer alone. -/

namespace Sys2Proof.Machine

/-- A command that completes with the writer `w'` and no other effect. -/
theorem commit_setWriter (s : State) (w' : Writer) :
    commit (s.setWriter w') = { s with status := s.doneStatus, writer := w' } := rfl

/-- Settles O26: WINIT commits the fresh writer and the next draw. -/
theorem winitStartsAFreshWriter : Obligations.WinitStartsAFreshWriter := by
  unfold Obligations.WinitStartsAFreshWriter
  exact fun s => finish_ok s _

/-! The commands that put bits: WRBITS and WRBOOL. -/

section
variable {s : State} (v : Word) {n : Nat}

/-- A command that puts bits which do not fit (R142). -/
theorem finish_put_full (hfull : s.cfg.wcap < ceil8 (s.writer.bitCount + n)) :
    finish s ((s.writer.put s.cfg.wcap v n).map fun w1 => s.setWriter w1) = .next (s.failed 0x04) :=
  finish_map_error _ (Writer.put_full v hfull)

/-- A command that puts bits which fit (R142). -/
theorem finish_put_ok (h : s.Inv) (hn : n ≤ 32) (hfit : ceil8 (s.writer.bitCount + n) ≤ s.cfg.wcap) :
    ∃ w', finish s ((s.writer.put s.cfg.wcap v n).map fun w1 => s.setWriter w1) =
        .next { s with status := s.doneStatus, writer := w' } ∧
      s.writer.Appends w' n v.getLsbD ∧ w'.Inv s.cfg.wcap ∧ w'.total = s.writer.total + BitVec.ofNat 32 n := by
  obtain ⟨w', hw, hinv, happ, htot, -⟩ := Writer.put_ok v h.config.1.2 h.writer hn hfit
  exact ⟨w', (finish_map_ok _ hw).trans (congrArg _ (commit_setWriter s w')), happ, hinv, htot⟩
end

theorem legalWidth_iff {w : Nat} : legalWidth w = true ↔ 1 ≤ w ∧ w ≤ 32 := decide_eq_true_iff

theorem exec_wrbits_of_legal {w : Nat} (h1 : 1 ≤ w) (h32 : w ≤ 32) (s : State) :
    exec (.wrbits w) s = finish s ((s.writer.put s.cfg.wcap s.arg0 w).map fun w1 => s.setWriter w1) := by
  rw [exec, execWrbits, if_pos (legalWidth_iff.2 ⟨h1, h32⟩)]

theorem exec_wrbits_of_illegal {w : Nat} (hw : w < 1 ∨ 32 < w) (s : State) :
    exec (.wrbits w) s = .next (s.failed 0x02) := by
  have hl : ¬ legalWidth w = true := fun h => by
    have := legalWidth_iff.1 h
    omega
  rw [exec, execWrbits, if_neg hl]
  exact finish_error s .width

/-- Settles O27: after its width check WRBITS is put(ARG0, W). -/
theorem wrbitsAppendsTheLowBits : Obligations.WrbitsAppendsTheLowBits := by
  unfold Obligations.WrbitsAppendsTheLowBits
  intro s w h
  refine ⟨fun hw => exec_wrbits_of_illegal hw s, fun h1 h32 hfull => ?_, fun h1 h32 hfit => ?_⟩
  · rw [exec_wrbits_of_legal h1 h32]
    exact finish_put_full s.arg0 hfull
  · rw [exec_wrbits_of_legal h1 h32]
    exact finish_put_ok s.arg0 h h32 hfit

/-- The one bit that stands for a boolean operand (R146). -/
theorem boolWord_getLsbD_zero (v : Word) : (boolWord v).getLsbD 0 = decide (v ≠ 0) := by
  by_cases h : v = 0
  · subst h
    decide
  · rw [boolWord, if_pos h, decide_eq_true h]
    decide

/-- Settles O28: WRBOOL is put of one bit, which is 1 exactly if ARG0 is not zero. -/
theorem wrboolAppendsOneBit : Obligations.WrboolAppendsOneBit := by
  unfold Obligations.WrboolAppendsOneBit
  intro s h
  refine ⟨fun hfull => finish_put_full (boolWord s.arg0) hfull, fun hfit => ?_⟩
  obtain ⟨w', hexec, happ, hinv, htot⟩ := finish_put_ok (boolWord s.arg0) h (by decide) hfit
  refine ⟨w', hexec, happ.congr fun k hk => ?_, hinv, htot⟩
  rw [Nat.lt_one_iff.1 hk]
  exact (boolWord_getLsbD_zero s.arg0).symm

/-! FLUSH. -/

theorem exec_flush (s : State) :
    exec .flush s = .next { s with status := s.doneStatus, writer := s.writer.flush } := rfl

/-- wflush() on a byte boundary is no operation (R147). -/
theorem Writer.flush_of_aligned {w : Writer} (h : w.cnt = 0) : w.flush = w := if_pos h

/-- Settles O29: FLUSH is wflush(), which leaves the writer aligned, and a second one finds it so. -/
theorem flushPadsWithZerosOnce : Obligations.FlushPadsWithZerosOnce := by
  unfold Obligations.FlushPadsWithZerosOnce
  intro s h
  obtain ⟨-, happ, hcnt, hacc, htot, -⟩ := Writer.flush_spec h.config.1.2 h.writer
  refine ⟨s.writer.flush, exec_flush s, happ, hcnt, hacc, htot, ?_⟩
  rw [exec_flush, Writer.flush_of_aligned hcnt]
  rfl

/-! WRBYTES. -/

theorem exec_wrbytes_of_inside {s : State} (hx : s.arg0.toNat + s.arg1.toNat ≤ s.cfg.xcap) :
    exec .wrbytes s = finish s ((s.writer.putRaw s.cfg.wcap (bytesFrom s.xbufByte s.arg0.toNat s.arg1.toNat)).map
      fun w1 => s.setWriter w1) := by
  rw [exec, execWrbytes, if_neg (Nat.not_lt.2 hx)]

theorem exec_wrbytes_of_outside {s : State} (hx : s.cfg.xcap < s.arg0.toNat + s.arg1.toNat) :
    exec .wrbytes s = .next (s.failed 0x0B) := by
  rw [exec, execWrbytes, if_pos hx]
  exact finish_error s .xrange

/-- Settles O30: after its range check WRBYTES is putraw of the bytes of XBUF. -/
theorem wrbytesAppendsBytesAligned : Obligations.WrbytesAppendsBytesAligned := by
  unfold Obligations.WrbytesAppendsBytesAligned
  intro s h
  have hc := h.config.1.2
  have hlen := bytesFrom_length s.xbufByte s.arg0.toNat s.arg1.toNat
  rw [Writer.ceil8_bitCount]
  refine ⟨exec_wrbytes_of_outside, fun hx hfull => ?_, fun hx hfit => ?_⟩
  · rw [← hlen] at hfull
    rw [exec_wrbytes_of_inside hx]
    exact finish_map_error _ (Writer.putRaw_full _ hc h.writer hfull)
  · rw [← hlen] at hfit
    obtain ⟨w', hw, -, happ, hcnt, hacc, htot, -⟩ := Writer.putRaw_ok _ hc h.writer hfit
    rw [hlen] at happ htot
    rw [exec_wrbytes_of_inside hx, finish_map_ok _ hw, commit_setWriter]
    exact ⟨w', rfl, happ, hcnt, hacc, htot⟩

end Sys2Proof.Machine

/-! PROOF. The reader family (42_bitstream_reader.md R164-R167): RINIT and RDBYTES whole, and RDBITS and RDBOOL as one
take, whose law says which bits leave the unread sequence. -/

namespace Sys2Proof.Machine

/-! RINIT. -/

theorem exec_rinit_of_outside {s : State} (h : s.cfg.rcap < s.arg0.toNat) : exec .rinit s = .next (s.failed 0x08) := by
  rw [exec, execRinit, if_pos h]
  exact finish_error s .range

theorem exec_rinit_of_inside {s : State} (h : s.arg0.toNat ≤ s.cfg.rcap) : exec .rinit s = .next { s with
    status := s.doneStatus, reader := { len := s.arg0, cur := 0, cnt := 0, total := 0, acc := 0 } } := by
  rw [exec, execRinit, if_neg (Nat.not_lt.2 h)]
  exact finish_ok s _

/-- Settles O31: RINIT's one check, and the fresh reader behind it. -/
theorem rinitStartsAFreshReader : Obligations.RinitStartsAFreshReader :=
  fun _ => ⟨exec_rinit_of_outside, exec_rinit_of_inside⟩

/-! The commands that take bits: RDBITS and RDBOOL. `f` is what the command makes of the bits for RES0. -/

section
variable {s : State} {n : Nat} (f : Word → Word)

/-- A command that takes more bits than are unread (R162). -/
theorem finish_take_short (hav : s.reader.avail < n) :
    finish s ((s.reader.take s.rbufByte n).map fun v => (s.setReader v.2).setRes0 (f v.1)) = .next (s.failed 0x03) :=
  finish_map_error _ (Reader.take_short hav)

/-- A command that takes bits which are there (R162). -/
theorem finish_take_ok (h : s.Inv) (hn : n ≤ 32) (hav : n ≤ s.reader.avail) :
    ∃ v r', finish s ((s.reader.take s.rbufByte n).map fun v => (s.setReader v.2).setRes0 (f v.1)) =
        .next { s with status := s.doneStatus, reader := r', res0 := f v } ∧
      (∀ j, v.getLsbD j = (decide (j < n) && s.reader.bit s.rbufByte j)) ∧
      s.reader.Consumes s.rbufByte r' n ∧ r'.Inv s.cfg.rcap ∧ r'.total = s.reader.total + BitVec.ofNat 32 n := by
  obtain ⟨v, r', htake, hinv, hcons, hbits, htot, -⟩ := Reader.take_ok (rd := s.rbufByte) h.config.2.1.2 h.reader hn hav
  exact ⟨v, r', finish_map_ok _ htake, hbits, hcons, hinv, htot⟩
end

theorem exec_rdbits_of_legal {w : Nat} (h1 : 1 ≤ w) (h32 : w ≤ 32) (s : State) :
    exec (.rdbits w) s = finish s ((s.reader.take s.rbufByte w).map fun v => (s.setReader v.2).setRes0 v.1) := by
  rw [exec, execRdbits, if_pos (legalWidth_iff.2 ⟨h1, h32⟩)]

theorem exec_rdbits_of_illegal {w : Nat} (hw : w < 1 ∨ 32 < w) (s : State) :
    exec (.rdbits w) s = .next (s.failed 0x02) := by
  have hl : ¬ legalWidth w = true := fun h => by
    have := legalWidth_iff.1 h
    omega
  rw [exec, execRdbits, if_neg hl]
  exact finish_error s .width

/-- Settles O32: after its width check RDBITS is take(W). -/
theorem rdbitsTakesTheNextBits : Obligations.RdbitsTakesTheNextBits := by
  unfold Obligations.RdbitsTakesTheNextBits
  intro s w h
  refine ⟨fun hw => exec_rdbits_of_illegal hw s, fun h1 h32 hav => ?_, fun h1 h32 hav => ?_⟩
  · rw [exec_rdbits_of_legal h1 h32]
    exact finish_take_short id hav
  · rw [exec_rdbits_of_legal h1 h32]
    exact finish_take_ok id h h32 hav

/-- A word of one bit, as RDBOOL writes it (R166). -/
theorem boolWord_of_one_bit {v : Word} (hv : ∀ j, 1 ≤ j → v.getLsbD j = false) :
    boolWord v = if v.getLsbD 0 then 1 else 0 := by
  cases hb : v.getLsbD 0 with
  | false =>
    have h0 : v = 0 := BitVec.eq_of_getLsbD_eq fun j _ => by
      rcases Nat.eq_zero_or_pos j with rfl | hj
      · rw [hb]
        rfl
      · rw [hv j hj, BitVec.ofNat_eq_ofNat, BitVec.getLsbD_zero]
    rw [h0]
    rfl
  | true =>
    have h0 : v ≠ 0 := fun h => by simp [h] at hb
    exact if_pos h0

/-- Settles O33: RDBOOL is take(1), with the bit as 0 or 1. -/
theorem rdboolTakesTheNextBit : Obligations.RdboolTakesTheNextBit := by
  unfold Obligations.RdboolTakesTheNextBit
  intro s h
  refine ⟨fun hav => finish_take_short boolWord (by omega), fun hav => ?_⟩
  obtain ⟨v, r', hexec, hbits, hcons, hinv, htot⟩ := finish_take_ok boolWord h (by decide) hav
  have hb : boolWord v = if s.reader.bit s.rbufByte 0 then 1 else 0 := by
    rw [boolWord_of_one_bit fun j hj => by rw [hbits j, decide_eq_false (Nat.not_lt.2 hj), Bool.false_and], hbits 0]
    rfl
  rw [hb] at hexec
  exact ⟨r', hexec, hcons, hinv, htot⟩

/-! RDBYTES. -/

/-- MemWrite in the terms of `StoredAt`. -/
theorem storedAt_storeBytes (m : Memory) (a : Nat) (bs : List Byte) : StoredAt m (storeBytes m a bs) a bs :=
  read_storeBytes m a bs

theorem exec_rdbytes_of_outside {s : State} (hx : s.cfg.xcap < s.arg0.toNat + s.arg1.toNat) :
    exec .rdbytes s = .next (s.failed 0x0B) := by
  rw [exec, execRdbytes, if_pos hx]
  exact finish_error s .xrange

/-- RDBYTES behind its check (R167, R168): a copy that is short sets SHORT, and a full one keeps it. -/
theorem exec_rdbytes_of_inside {s : State} (hx : s.arg0.toNat + s.arg1.toNat ≤ s.cfg.xcap) :
    exec .rdbytes s = .next { s.readBytes with
      status := { ecode := 0x00, err := s.status.err,
                  short := s.status.short || decide (s.copyCount < s.arg1.toNat) } } := by
  rw [exec, execRdbytes, if_neg (Nat.not_lt.2 hx)]
  by_cases hk : s.copyCount < s.arg1.toNat
  · rw [if_pos hk, finish_ok, decide_eq_true hk, Bool.or_true]
    rfl
  · rw [if_neg hk, finish_ok, decide_eq_false hk, Bool.or_false]
    rfl

/-- Settles O34: behind its check RDBYTES passes and stores the bytes that remain. -/
theorem rdbytesCopiesWhatRemains : Obligations.RdbytesCopiesWhatRemains := by
  unfold Obligations.RdbytesCopiesWhatRemains
  rintro s k h rfl
  refine ⟨exec_rdbytes_of_outside, fun hx => ?_⟩
  have hleft : s.copyCount ≤ s.reader.align.left := Nat.min_le_right _ _
  obtain ⟨-, hcur⟩ := Reader.skip_inv (n := s.arg1.toNat) h.config.2.1.2 (Reader.align_inv h.reader) hleft rfl
  exact ⟨_, _, exec_rdbytes_of_inside hx, storedAt_storeBytes _ _ _, rfl, hcur, rfl, rfl, rfl⟩

end Sys2Proof.Machine

/-! PROOF. The round trip of R170: the bits WRBITS appended to a fresh writer are, once flushed, those of WBUF's
committed bytes, and a fresh reader over the same bytes takes them first. -/

namespace Sys2Proof.Machine

/-- A committed bit is one of the byte that the host reads from WBUF (R62, R141). -/
theorem State.wbufByte_bit {s : State} (h : s.Inv) {k : Nat} (hk : k < 8 * s.writer.bytes.toNat) :
    (s.wbufByte (k / 8)).getLsbD (k % 8) = s.writer.bit k := by
  have hi : k / 8 < s.writer.bytes.toNat := by omega
  obtain ⟨b, hb⟩ := Option.isSome_iff_exists.1 (h.writer.known _ hi)
  rw [State.wbufByte, if_pos hi, Writer.bit, if_pos hk, hb]
  rfl

theorem exec_winit_bitCount {s t : State} (ht : exec .winit s = .next t) : t.writer.bitCount = 0 := by
  rw [← Host.Outcome.next.inj ht]
  rfl

/-- A WRBITS that completed has appended its bits (R145): WOVF is its only other end. -/
theorem exec_wrbits_appends {s t : State} {w : Nat} (h : s.Inv) (h1 : 1 ≤ w) (h32 : w ≤ 32)
    (ht : exec (.wrbits w) s = .next t) (hok : t.status.ecode = 0x00) :
    s.writer.Appends t.writer w s.arg0.getLsbD := by
  rw [exec_wrbits_of_legal h1 h32] at ht
  by_cases hfit : ceil8 (s.writer.bitCount + w) ≤ s.cfg.wcap
  · obtain ⟨w', hexec, happ, -⟩ := finish_put_ok s.arg0 h h32 hfit
    rw [← Host.Outcome.next.inj (hexec.symm.trans ht)]
    exact happ
  · rw [finish_put_full s.arg0 (Nat.not_le.1 hfit)] at ht
    rw [← Host.Outcome.next.inj ht] at hok
    exact absurd hok (show ¬ (0x04 : BitVec 8) = 0x00 by decide)

/-- After a FLUSH the bits appended so far all stand in WBUF's committed bytes (R147). -/
theorem exec_flush_wbufByte {s t : State} (h : s.Inv) (ht : exec .flush s = .next t) {k : Nat}
    (hk : k < s.writer.bitCount) :
    k < 8 * t.writer.bytes.toNat ∧ (t.wbufByte (k / 8)).getLsbD (k % 8) = s.writer.bit k := by
  have hinv := exec_inv h ht
  obtain ⟨-, happ, hcnt, -⟩ := Writer.flush_spec h.config.1.2 h.writer
  have hw : t.writer = s.writer.flush := by rw [← Host.Outcome.next.inj ht]; rfl
  rw [← hw] at happ hcnt
  have hlt : k < 8 * t.writer.bytes.toNat := by
    have hcount := happ.count
    rw [Writer.bitCount, hcnt] at hcount
    change 8 * t.writer.bytes.toNat + 0 = _ at hcount
    omega
  exact ⟨hlt, (State.wbufByte_bit hinv hlt).trans (happ.kept k hk)⟩

/-- The unread bits of a fresh reader are those of RBUF's bytes (R161, R164). -/
theorem Reader.start_bit (rd : Nat → Byte) (len : Word) (k : Nat) :
    ({ len := len, cur := 0, cnt := 0, total := 0, acc := 0 } : Reader).bit rd k = (rd (k / 8)).getLsbD (k % 8) := by
  change (rd (0 + k / 8)).getLsbD (k % 8) = _
  rw [Nat.zero_add]

/-- RINIT and RDBITS over bytes that begin with the low bits of `v` read `v` modulo 2^w (R164, R165). -/
theorem exec_rinit_rdbits {u : State} {v : Word} {w : Nat} (hu : u.Inv) (h1 : 1 ≤ w) (h32 : w ≤ 32)
    (hlen : u.arg0.toNat ≤ u.cfg.rcap) (hav : w ≤ 8 * u.arg0.toNat)
    (hbits : ∀ k, k < w → (u.rbufByte (k / 8)).getLsbD (k % 8) = v.getLsbD k) :
    ∃ u1 u2, exec .rinit u = .next u1 ∧ exec (.rdbits w) u1 = .next u2 ∧ u2.status.ecode = 0x00 ∧
      u2.res0.toNat = v.toNat % 2 ^ w := by
  have hstart := exec_rinit_of_inside hlen
  obtain ⟨x, r', hexec, hx, -⟩ := finish_take_ok id (exec_inv hu hstart) h32 hav
  refine ⟨_, _, hstart, (exec_rdbits_of_legal h1 h32 _).trans hexec, rfl, ?_⟩
  have hv : x = fieldBits v w := BitVec.eq_of_getLsbD_eq fun j _ => by
    rw [hx j, fieldBits_getLsbD v h32, Reader.start_bit]
    by_cases hj : j < w
    · rw [← hbits j hj]
      rfl
    · rw [decide_eq_false hj, Bool.false_and, Bool.false_and]
  change x.toNat = _
  rw [hv, fieldBits_toNat v h32]

/-- Settles O35: the bits written are the first bits of WBUF's bytes, and so the first that the reader takes. -/
theorem writtenBitsReadBack : Obligations.WrittenBitsReadBack := by
  unfold Obligations.WrittenBitsReadBack
  intro s s1 s2 s3 u v w h h1 h32 hwinit hwrbits hok hflush hu harg hlen hcopy
  have hs1 : ({ s1 with arg0 := v } : State).Inv := { exec_inv h hwinit with }
  have hzero := exec_winit_bitCount hwinit
  have happ : s1.writer.Appends s2.writer w v.getLsbD := exec_wrbits_appends hs1 h1 h32 hwrbits hok
  have hcount : s2.writer.bitCount = w := by rw [happ.count, hzero, Nat.zero_add]
  have hbit : ∀ k, k < w → s2.writer.bit k = v.getLsbD k := fun k hk => by
    rw [← happ.added k hk, hzero, Nat.zero_add]
  have hmem : ∀ k, k < w → k < 8 * s3.writer.bytes.toNat ∧ (s3.wbufByte (k / 8)).getLsbD (k % 8) = s2.writer.bit k :=
    fun k hk => exec_flush_wbufByte (exec_inv hs1 hwrbits) hflush (by omega)
  refine exec_rinit_rdbits hu h1 h32 hlen ?_ fun k hk => ?_
  · have := (hmem (w - 1) (by omega)).1
    rw [harg]
    omega
  · obtain ⟨hlt, hb⟩ := hmem k hk
    rw [hcopy _ (by omega), hb, hbit k hk]

end Sys2Proof.Machine

/-! PROOF. The strings that STRDEC and RECDEC read (44_record.md R213, R218, R220): the three checks behind the length,
and for RECDEC the stream behind the 49 field bits. -/

namespace Sys2Proof.Machine

/-- A command's byte count: the difference of two cursors (R218, R220). -/
theorem word_sub_eq_ofNat {a b : Word} {k : Nat} (h : b.toNat = a.toNat + k) : b - a = BitVec.ofNat 32 k := by
  apply BitVec.eq_of_toNat_eq
  rw [BitVec.toNat_sub, BitVec.toNat_ofNat, h]
  have := a.isLt
  omega

/-- Settles O45: STRDEC is str_read at ARG0. -/
theorem strdecReadsTheString : Obligations.StrdecReadsTheString := by
  unfold Obligations.StrdecReadsTheString
  intro s n v h hv
  obtain ⟨hover, hrange, htrunc, hok⟩ := State.strRead_spec (a := s.arg0.toNat) h.config.2.1.2 h.reader hv
  refine ⟨fun h1 => finish_map_error _ (hover h1), fun h1 h2 => finish_map_error _ (hrange h1 h2),
    fun h1 h2 h3 => finish_map_error _ (htrunc h1 h2 h3), fun h1 h2 h3 => ?_⟩
  obtain ⟨r', hread, -, hlen, hcur, hcnt, hacc, htot⟩ := hok h1 h2 h3
  refine ⟨r', _, ?_, storedAt_storeBytes _ _ _, hlen, hcur, hcnt, hacc, htot⟩
  rw [← word_sub_eq_ofNat (a := s.reader.cur) (hcur.trans (Nat.add_assoc _ _ _))]
  exact finish_map_ok _ hread

/-! What stands at the start of a bit sequence depends only on the bits below its length. -/

section
variable {avail n : Nat} {bit bit' : Nat → Bool} {v : Word} (hb : ∀ k, k < avail → bit' k = bit k)
include hb

theorem VarintCut.congr (h : VarintCut avail bit) : VarintCut avail bit' :=
  ⟨h.1, fun i hi => (hb _ (by omega)).trans (h.2 i hi)⟩

theorem VarintLong.congr (h : VarintLong avail bit) : VarintLong avail bit' :=
  ⟨h.1, fun i hi => (hb _ (by have := h.1; omega)).trans (h.2 i hi)⟩

theorem VarintAt.congr (h : VarintAt avail bit n v) : VarintAt avail bit' n v := by
  obtain ⟨hbytes, hpresent, hmore, hlast, hvalue⟩ := h
  refine ⟨hbytes, hpresent, fun i hi => (hb _ (by omega)).trans (hmore i hi), (hb _ (by omega)).trans hlast,
    fun j hj => ?_⟩
  rw [hvalue j hj]
  by_cases hn : j / 7 < n
  · rw [hb _ (by omega)]
  · rw [decide_eq_false hn, Bool.false_and, Bool.false_and]
end

/-- RECDEC behind 49 field bits in range (R220): the reader its name is read from, and its end where the name fails. -/
theorem exec_recdec_name {s : State} {g : FRegs} (h : s.Inv) (hav : 49 ≤ s.reader.avail)
    (hg : ∀ k, k < 49 → s.reader.bit s.rbufByte k = playerBits g k) (h3 : g.f3.toNat % 128 ≤ 100)
    (h4 : g.f4.toNat % 512 ≤ 359) :
    ∃ r1, r1.Inv s.cfg.rcap ∧ s.reader.Consumes s.rbufByte r1 49 ∧
      r1.cur.toNat = s.reader.cur.toNat + ceil8 (49 - s.reader.cnt.toNat) ∧
      ∀ e, s.strRead s.arg0.toNat r1 = .error e → exec .recdec s = .next (s.failed e.code) := by
  obtain ⟨r1, hinv, hcons, -, hcur, htake⟩ := State.takePlayer_eq h.config.2.1.2 h.reader hav hg
  refine ⟨r1, hinv, hcons, hcur, fun e he => finish_map_error _ ?_⟩
  rw [htake, if_neg (by omega), he]
  rfl

/-- Where a length varint behind `n` taken bits ends (R169). -/
theorem Reader.consumes_cur_varint {rd : Nat → Byte} {cap n : Nat} {r r1 : Reader} (h : r.Inv cap) (h1 : r1.Inv cap)
    (hk : r.Consumes rd r1 n) (hc : r1.cur.toNat = r.cur.toNat + ceil8 (n - r.cnt.toNat)) (m : Nat) :
    r1.cur.toNat + m = r.cur.toNat + ceil8 (n + 8 * m - r.cnt.toNat) := by
  have hm : ceil8 (8 * m - r1.cnt.toNat) = m := by
    have := h1.partialByte
    unfold ceil8
    omega
  rw [← Reader.consumes_cur h h1 hk hc (m := 8 * m), hm]

/-- Settles O58: behind its fields RECDEC is str_read from the reader that has taken them. -/
theorem recdecRejectsItsName : Obligations.RecdecRejectsItsName := by
  unfold Obligations.RecdecRejectsItsName
  rintro s g avail bit h hav hg h3 h4 rfl rfl
  obtain ⟨r1, hinv, hcons, hcur, hfail⟩ := exec_recdec_name h hav hg h3 h4
  have hc := h.config.2.1.2
  have havail : s.reader.avail - 49 = r1.avail := by
    have := hcons.count
    omega
  rw [havail]
  refine ⟨fun hcut => hfail _ (State.strRead_cut hc hinv (hcut.congr hcons.rest)),
    fun hlong => hfail _ (State.strRead_long hc hinv (hlong.congr hcons.rest)), ?_⟩
  rintro n p v hv rfl
  obtain ⟨hover, hrange, htrunc, -⟩ := State.strRead_spec (a := s.arg0.toNat) hc hinv (hv.congr hcons.rest)
  refine ⟨fun hlen => hfail _ (hover hlen), fun hlen hx => hfail _ (hrange hlen hx), fun hlen hx hrest =>
    hfail _ (htrunc hlen hx ?_)⟩
  rw [hcons.length, Reader.consumes_cur_varint h.reader hinv hcons hcur]
  exact hrest

end Sys2Proof.Machine

/-! PROOF. ZigZag and bits_required (43_varint_zigzag.md R183, R184, R189-R195): the closed forms of zz_enc and zz_dec at
every width, the bijection that follows from them, and the loop of bits_required. -/

namespace Sys2Proof.Machine

/-! ZigZag. -/

section
variable {w : Nat}

/-- The sign bit over the whole width (R183). -/
theorem sshiftRight_pred (n : BitVec w) : n.sshiftRight (w - 1) = if n.msb then BitVec.allOnes w else 0#w := by
  apply BitVec.eq_of_getLsbD_eq
  intro i hi
  have hbit : (if w - 1 + i < w then n.getLsbD (w - 1 + i) else n.msb) = n.msb := by
    split
    · rw [show w - 1 + i = w - 1 by omega, BitVec.msb_eq_getLsbD_last]
    · rfl
  rw [BitVec.getLsbD_sshiftRight, decide_eq_false (Nat.not_le.2 hi), hbit]
  cases n.msb <;> simp [hi]

/-- zz_enc in closed form (R183). -/
theorem zigzagEnc_toNat (n : BitVec w) :
    ((zigzagEnc n).toNat : Int) = if 0 ≤ n.toInt then 2 * n.toInt else -2 * n.toInt - 1 := by
  have hlt := n.isLt
  rw [zigzagEnc, sshiftRight_pred]
  cases hm : n.msb with
  | false =>
    have hn := BitVec.msb_eq_false_iff_two_mul_lt.1 hm
    rw [if_neg Bool.false_ne_true, BitVec.xor_zero, BitVec.toNat_shiftLeft, Nat.shiftLeft_eq, Nat.mod_eq_of_lt (by omega),
      BitVec.toInt_eq_toNat_of_msb hm, if_pos (by omega)]
    omega
  | true =>
    have hn := BitVec.msb_eq_true_iff_two_mul_ge.1 hm
    have hint : n.toInt = n.toNat - (2 ^ w : Nat) := by rw [BitVec.toInt_eq_msb_cond, if_pos hm]
    have hmod : n.toNat * 2 ^ 1 % 2 ^ w = 2 * n.toNat - 2 ^ w := by
      rw [Nat.mod_eq_sub_mod (by omega), Nat.mod_eq_of_lt (by omega)]
      omega
    rw [if_pos rfl, BitVec.xor_allOnes, BitVec.toNat_not, BitVec.toNat_shiftLeft, Nat.shiftLeft_eq, hmod, hint,
      if_neg (by omega)]
    omega

/-- The lowest bit over the whole width (R183). -/
theorem neg_and_one (u : BitVec w) : -(u &&& 1#w) = if u.toNat % 2 = 0 then 0#w else BitVec.allOnes w := by
  have hbit : u &&& 1#w = BitVec.ofNat w (u.toNat % 2) := by
    rw [← Nat.and_one_is_mod, BitVec.ofNat_and, BitVec.ofNat_toNat, BitVec.setWidth_eq]
  rw [hbit]
  rcases Nat.mod_two_eq_zero_or_one u.toNat with h | h <;> rw [h]
  · rw [if_pos rfl, BitVec.neg_zero]
  · rw [if_neg Nat.one_ne_zero, BitVec.neg_one_eq_allOnes]

/-- zz_dec in closed form (R183). -/
theorem zigzagDec_toInt (u : BitVec w) :
    (zigzagDec u).toInt =
      if u.toNat % 2 = 0 then ((u.toNat / 2 : Nat) : Int) else -(((u.toNat + 1) / 2 : Nat) : Int) := by
  have hlt := u.isLt
  have hhalf : (u >>> 1).toNat = u.toNat / 2 := by rw [BitVec.toNat_ushiftRight, Nat.shiftRight_eq_div_pow, Nat.pow_one]
  have hdec : zigzagDec u = u >>> 1 ^^^ if u.toNat % 2 = 0 then 0#w else BitVec.allOnes w :=
    congrArg (u >>> 1 ^^^ ·) (neg_and_one u)
  rw [hdec]
  by_cases h : u.toNat % 2 = 0
  · rw [if_pos h, if_pos h, BitVec.xor_zero, BitVec.toInt_eq_toNat_of_lt (by omega), hhalf]
  · rw [if_neg h, if_neg h, BitVec.xor_allOnes, BitVec.toInt_eq_toNat_cond, BitVec.toNat_not, hhalf, if_neg (by omega)]
    omega

/-- zz_dec undoes zz_enc (R195). -/
theorem zigzagDec_zigzagEnc (n : BitVec w) : zigzagDec (zigzagEnc n) = n := by
  apply BitVec.eq_of_toInt_eq
  have henc := zigzagEnc_toNat n
  rw [zigzagDec_toInt]
  split at henc <;> split <;> omega

/-- zz_enc undoes zz_dec (R195). -/
theorem zigzagEnc_zigzagDec (u : BitVec w) : zigzagEnc (zigzagDec u) = u := by
  apply BitVec.eq_of_toNat_eq
  have hdec := zigzagDec_toInt u
  have henc := zigzagEnc_toNat (zigzagDec u)
  split at hdec <;> split at henc <;> omega
end

/-- Settles O42: the two closed forms undo each other, and varint_enc's bytes are a varint of its operand. -/
theorem zigzagAndVarintAreBijections : Obligations.ZigzagAndVarintAreBijections := by
  unfold Obligations.ZigzagAndVarintAreBijections
  exact ⟨fun n => ⟨zigzagDec_zigzagEnc n, zigzagEnc_zigzagDec n⟩,
    fun n => ⟨zigzagDec_zigzagEnc n, zigzagEnc_zigzagDec n⟩,
    fun _ _ _ _ hfit hh => regionVarint_enc hh hfit⟩

/-- The two result words of a 64-bit result are its halves (R191, R192). -/
theorem setResPair_append (r : BitVec 64) (s : State) : (s.setResPair r).res1 ++ (s.setResPair r).res0 = r :=
  (BitVec.extractLsb'_append_extractLsb'_eq_extractLsb' rfl).trans BitVec.extractLsb'_eq_self

/-- Settles O40: both commands commit zz_enc of their operand. -/
theorem zigzagEncodeCommands : Obligations.ZigzagEncodeCommands := by
  unfold Obligations.ZigzagEncodeCommands
  intro s
  refine ⟨⟨_, finish_ok s _, zigzagEnc_toNat s.arg0⟩, _, _, finish_ok s _, ?_⟩
  rw [setResPair_append]
  exact zigzagEnc_toNat s.argPair

/-- Settles O41: both commands commit zz_dec of their operand. -/
theorem zigzagDecodeCommands : Obligations.ZigzagDecodeCommands := by
  unfold Obligations.ZigzagDecodeCommands
  intro s
  refine ⟨⟨_, finish_ok s _, zigzagDec_toInt s.arg0⟩, _, _, finish_ok s _, ?_⟩
  rw [setResPair_append]
  exact zigzagDec_toInt s.argPair

/-! bits_required. -/

section
variable {fuel b d : Nat}

/-- The loop never goes below its start (R184). -/
theorem le_bitsLoop : b ≤ bitsLoop fuel b d := by
  induction fuel generalizing b with
  | zero => exact Nat.le_refl b
  | succ fuel ih =>
    rw [bitsLoop]
    split
    · exact Nat.le_of_succ_le ih
    · exact Nat.le_refl b

/-- With rounds enough the loop ends at a width that holds `d` (R184). -/
theorem lt_two_pow_bitsLoop (h : d < 2 ^ (b + fuel)) : d < 2 ^ bitsLoop fuel b d := by
  induction fuel generalizing b with
  | zero => exact h
  | succ fuel ih =>
    rw [bitsLoop]
    split
    · exact ih (by rwa [Nat.add_right_comm])
    · omega

/-- Every width that the loop has passed is too small (R184). -/
theorem two_pow_le_of_lt_bitsLoop {c : Nat} (hb : b ≤ c) (hc : c < bitsLoop fuel b d) : 2 ^ c ≤ d := by
  induction fuel generalizing b with
  | zero => exact absurd hc (Nat.not_lt.2 hb)
  | succ fuel ih =>
    rw [bitsLoop] at hc
    split at hc
    next hpass =>
      rcases Nat.eq_or_lt_of_le hb with rfl | hlt
      · exact hpass
      · exact ih hlt hc
    next => exact absurd hc (Nat.not_lt.2 hb)
end

/-- Settles O43: the difference of two words fits 32 bits, so bits_required's loop has rounds enough. -/
theorem bitsreqFindsTheLeastWidth : Obligations.BitsreqFindsTheLeastWidth := by
  unfold Obligations.BitsreqFindsTheLeastWidth
  intro s
  refine ⟨fun hlt => finish_map_error _ (if_pos (by omega)), fun hle => ?_⟩
  have hlo := BitVec.le_toInt s.arg0
  have hhi := BitVec.toInt_lt (x := s.arg1)
  obtain ⟨d, hd⟩ := Int.eq_ofNat_of_zero_le (Int.sub_nonneg.2 hle)
  have hreq : bitsRequired s.arg0.toInt s.arg1.toInt = .ok (bitsLoop 31 1 d) := by
    rw [bitsRequired, if_neg (by omega), hd]
    rfl
  have hmax : d < 2 ^ (1 + 31) := by omega
  rw [hd]
  refine ⟨_, finish_map_ok _ hreq, le_bitsLoop, bitsLoop_le 31 1 d, ?_, fun c h1 hc => ?_⟩
  · exact_mod_cast lt_two_pow_bitsLoop hmax
  · exact_mod_cast two_pow_le_of_lt_bitsLoop h1 hc

end Sys2Proof.Machine

/-! PROOF. The varint commands (43_varint_zigzag.md R185-R188) and the length varint that STRDEC needs (44_record.md R213):
each is one varint_enc put on the stream or one varint_dec from it. -/

namespace Sys2Proof.Machine

/-! The commands that put a varint: VENC and SVENC. -/

/-- The bits of the `n` bytes of varint_enc(v): seven bits of `v` and the continuation flag in each (R66, R181). -/
def varintBits (v : Word) (n k : Nat) : Bool :=
  if k % 8 = 7 then decide (k / 8 + 1 < n) else v.getLsbD (7 * (k / 8) + k % 8)

theorem bytesBit_varintEnc (v : Word) {k : Nat} (hk : k < 8 * (varintEnc v).length) :
    bytesBit (varintEnc v) k = varintBits v (varintEnc v).length k := by
  obtain ⟨-, -, -, -, hbytes⟩ := varintEnc_spec v
  obtain ⟨hflag, hdata⟩ := hbytes (k / 8) (by omega)
  unfold bytesBit varintBits
  by_cases h7 : k % 8 = 7
  · rw [if_pos h7, h7, hflag]
  · rw [if_neg h7, hdata _ (by omega)]

section
variable {s : State} (v : Word) (f : Writer → State)

/-- A command that puts varint_enc(v) where it does not fit (R185). -/
theorem finish_putVarint_full (h : s.Inv) (hfull : s.cfg.wcap < ceil8 (s.writer.bitCount + 8 * (varintEnc v).length)) :
    finish s ((s.writer.putBytes s.cfg.wcap (varintEnc v)).map f) = .next (s.failed 0x04) :=
  finish_map_error _ (Writer.putBytes_full _ h.config.1.2 h.writer hfull)

/-- A command that puts varint_enc(v) where it fits (R185). -/
theorem finish_putVarint_ok (h : s.Inv) (hfit : ceil8 (s.writer.bitCount + 8 * (varintEnc v).length) ≤ s.cfg.wcap) :
    ∃ w', finish s ((s.writer.putBytes s.cfg.wcap (varintEnc v)).map f) = .next (commit (f w')) ∧
      s.writer.Appends w' (8 * (varintEnc v).length) (varintBits v (varintEnc v).length) ∧ w'.Inv s.cfg.wcap ∧
      w'.total = s.writer.total + BitVec.ofNat 32 (8 * (varintEnc v).length) := by
  obtain ⟨w', hput, hinv, happ, htot, -⟩ := Writer.putBytes_ok _ h.config.1.2 h.writer hfit
  exact ⟨w', finish_map_ok _ hput, happ.congr fun _ hk => (bytesBit_varintEnc v hk).symm, hinv, htot⟩
end

/-- Settles O36: VENC puts varint_enc(ARG0), which is the shortest form. -/
theorem vencAppendsTheVarint : Obligations.VencAppendsTheVarint := by
  unfold Obligations.VencAppendsTheVarint
  intro s h
  obtain ⟨hpos, hmax, hholds, hleast, -⟩ := varintEnc_spec s.arg0
  exact ⟨_, hpos, hmax, hholds, hleast, finish_putVarint_full s.arg0 _ h, fun hfit => finish_putVarint_ok s.arg0 _ h hfit⟩

/-- Settles O37: SVENC puts varint_enc of ARG0's image. -/
theorem svencAppendsTheZigzagVarint : Obligations.SvencAppendsTheZigzagVarint := by
  unfold Obligations.SvencAppendsTheZigzagVarint
  intro s h
  obtain ⟨hpos, hmax, hholds, hleast, -⟩ := varintEnc_spec (zigzagEnc s.arg0)
  exact ⟨zigzagEnc s.arg0, _, zigzagEnc_toNat s.arg0, hpos, hmax, hholds, hleast,
    finish_putVarint_full (zigzagEnc s.arg0) _ h, fun hfit => finish_putVarint_ok (zigzagEnc s.arg0) _ h hfit⟩

/-! The commands that take a varint: VDEC and SVDEC. -/

section
variable {s : State} (f : Word × Nat × Reader → State) (h : s.Inv)
include h

/-- A command that takes a varint where the unread bits end inside one (R186). -/
theorem finish_takeVarint_cut (hv : VarintCut s.reader.avail (s.reader.bit s.rbufByte)) :
    finish s ((varintDec (streamNext s.rbufByte) s.reader).map f) = .next (s.failed 0x07) :=
  finish_map_error _ (varintDec_stream_cut h.config.2.1.2 h.reader hv)

/-- A command that takes a varint where five bytes have continuation flags (R186). -/
theorem finish_takeVarint_long (hv : VarintLong s.reader.avail (s.reader.bit s.rbufByte)) :
    finish s ((varintDec (streamNext s.rbufByte) s.reader).map f) = .next (s.failed 0x06) :=
  finish_map_error _ (varintDec_stream_long h.config.2.1.2 h.reader hv)

/-- A command that takes a varint which is there (R186). -/
theorem finish_takeVarint_ok {n : Nat} {v : Word} (hv : VarintAt s.reader.avail (s.reader.bit s.rbufByte) n v) :
    ∃ r', finish s ((varintDec (streamNext s.rbufByte) s.reader).map f) = .next (commit (f (v, n, r'))) ∧
      s.reader.Consumes s.rbufByte r' (8 * n) ∧ r'.Inv s.cfg.rcap ∧
      r'.total = s.reader.total + BitVec.ofNat 32 (8 * n) := by
  obtain ⟨r', hdec, hinv, hcons, htot, -⟩ := varintDec_stream_ok h.config.2.1.2 h.reader hv
  exact ⟨r', finish_map_ok _ hdec, hcons, hinv, htot⟩
end

/-- Settles O38: VDEC is varint_dec from the stream. -/
theorem vdecReadsAVarint : Obligations.VdecReadsAVarint := by
  unfold Obligations.VdecReadsAVarint
  intro s n v h
  exact ⟨finish_takeVarint_ok _ h, finish_takeVarint_cut _ h, finish_takeVarint_long _ h⟩

/-- Settles O39: SVDEC is varint_dec from the stream, with zz_dec of the value. -/
theorem svdecReadsAZigzagVarint : Obligations.SvdecReadsAZigzagVarint := by
  unfold Obligations.SvdecReadsAZigzagVarint
  intro s n v h
  refine ⟨fun hv => ?_, finish_takeVarint_cut _ h, finish_takeVarint_long _ h⟩
  obtain ⟨r', hexec, hrest⟩ := finish_takeVarint_ok _ h hv
  exact ⟨r', zigzagDec v, hexec, zigzagDec_toInt v, hrest⟩

/-- Settles O46: STRDEC is str_read at ARG0, which begins with varint_dec. -/
theorem strdecNeedsALength : Obligations.StrdecNeedsALength := by
  unfold Obligations.StrdecNeedsALength
  intro s h
  exact ⟨fun hcut => finish_map_error _ (State.strRead_cut h.config.2.1.2 h.reader hcut),
    fun hlong => finish_map_error _ (State.strRead_long h.config.2.1.2 h.reader hlong)⟩

end Sys2Proof.Machine

/-! PROOF. TWDEC's refusals (45_tagged_wire.md R253, R254): a pair that is refused in every region it ends makes TWDEC fail
behind any accepted items, and a position is refused with the error of the nested pair behind its accepted fields. -/

namespace Sys2Proof.Machine

/-- TWDEC of a region that passes RLEN (R254). -/
theorem exec_twdec_of_outside {s : State} (h : s.Inv) (hout : s.reader.len.toNat < s.reader.cur.toNat + s.arg0.toNat) :
    exec .twdec s = .next (s.failed 0x0A) := by
  have hcur := h.reader.cursor
  have hleft : s.reader.align.left < s.arg0.toNat := by
    change s.reader.len.toNat - s.reader.cur.toNat < _
    omega
  rw [exec, execTwdec, if_pos hleft]
  exact finish_error s .lenovr

/-- How the walk of a level goes on inside a known message (R251); inside a position there is none (R253). -/
def Level.walkSub (l : Level) (rd : Nat → Byte) (lo hi : Nat) (o : ObjectRec) : Except ErrorCode ObjectRec :=
  match l with
  | .outer => walkNested rd lo hi o
  | .nested => .ok o

/-- The pair at the start of `bs` is refused with `e`, wherever the bytes `bs` end the region of a walk of level `l`. -/
structure Refused (l : Level) (bs : List Byte) (e : ErrorCode) : Prop where
  nonempty : 1 ≤ bs.length
  walk : ∀ rd hi p o, HoldsAt rd p bs → p + bs.length = hi → walkField rd (l.walkSub rd) l hi p o = .error e

/-- A refused pair behind accepted items (R253). -/
theorem exec_twdec_of_refused {s : State} {items : List MessageItem} {rest : List Byte} {e : ErrorCode} (h : s.Inv)
    (hok : items.all MessageItem.ok = true) (hbad : Refused .outer rest e)
    (hlen : s.arg0.toNat = (messageOf items ++ rest).length)
    (hraw : s.reader.HoldsRaw s.rbufByte (messageOf items ++ rest)) : exec .twdec s = .next (s.failed e.code) :=
  execTwdec_error h hok hbad.nonempty hlen hraw fun _ _ hh => hbad.walk _ _ _ _ hh rfl

/-- Bytes that begin with a varint are not none. -/
theorem length_append_pos_of_varintOk {tag : List Byte} (h : varintOk tag = true) (rest : List Byte) :
    1 ≤ (tag ++ rest).length := by
  rw [List.length_append]
  exact Nat.le_add_right_of_le (varintOk_length_pos h)

/-- A position is refused with the error of the pair behind its accepted fields, whatever follows the body (R253). -/
theorem Refused.position {nested : List WireField} {tag pre body rest rest' : List Byte} {e : ErrorCode}
    (hbad : Refused .nested rest e) (hok : nested.all WireField.nestedOk = true)
    (hbody : body = nested.flatMap WireField.bytes ++ rest) (htag : varintOk tag = true) (hposition : varintWord tag = 0x12)
    (hpre : varintOk pre = true) (hcount : (varintWord pre).toNat = body.length) :
    Refused .outer (tag ++ (pre ++ body) ++ rest') e where
  nonempty := by
    rw [List.append_assoc]
    exact length_append_pos_of_varintOk htag _
  walk := by
    rintro rd hi p o hh rfl
    refine walkField_position_error hok hbody hbad.nonempty htag hposition hpre hcount (HoldsAt.append.1 hh).1 ?_
      fun _ _ _ hrest hend => hbad.walk _ _ _ _ hrest hend
    rw [List.length_append (as := tag ++ (pre ++ body))]
    omega

/-- A tag is refused whose wire type has no width or is not the schema's (R253). -/
theorem refused_of_wiretype {l : Level} {tag : List Byte} {fn wt : Nat} (hok : varintOk tag = true)
    (hv : (varintWord tag).toNat = 8 * fn + wt) (hwt : wt < 8)
    (hbad : WireType.ofNumber wt = none ∨
      ∃ t k, WireType.ofNumber wt = some t ∧ schemaKind l fn = some k ∧ k.wire ≠ t) (rest : List Byte) :
    Refused l (tag ++ rest) .wiretype where
  nonempty := length_append_pos_of_varintOk hok rest
  walk := by
    rintro rd hi p o hh rfl
    refine walkField_wiretype hok hv hwt hbad (HoldsAt.append.1 hh).1 ?_
    rw [List.length_append]
    omega

/-- Settles O55: the region's own check, and at either level a tag that the walk refuses. -/
theorem twdecRejectsWrongWireTypes : Obligations.TwdecRejectsWrongWireTypes := by
  unfold Obligations.TwdecRejectsWrongWireTypes
  intro s items fn wt nested tag ptag pre body rest rest' h
  refine ⟨exec_twdec_of_outside h, fun hitems htag hv hwt hbad => ?_,
    fun hitems hnested htag hv hwt hbad hbody hptag hposition hpre hcount => ?_⟩
  · exact exec_twdec_of_refused h hitems (refused_of_wiretype htag hv hwt (outer_refuses hwt hbad) rest)
  · have hnest := refused_of_wiretype htag hv hwt (nested_refuses hwt hbad) rest
    exact exec_twdec_of_refused h hitems (hnest.position hnested hbody hptag hposition hpre hcount)

/-! Messages that break off. -/

/-- The code column of R271 has no number twice. -/
theorem ErrorCode.code_injective : Function.Injective ErrorCode.code := fun e e' => by
  cases e <;> cases e' <;> decide

section
variable {allows : Nat → Nat → Prop} {bs : List Byte} {code : BitVec 8} (hb : BreaksOff allows bs code)
include hb

/-- What breaks off has begun. -/
theorem BreaksOff.nonempty : 1 ≤ bs.length := by
  cases hb with
  | tagCut hne _ => exact List.length_pos_iff.2 hne
  | tagLong hlong => exact Nat.le_trans (by decide) hlong.1
  | varintCut htag | varintLong htag | i64Short htag | lenCut htag | lenLong htag | lenShort htag | i32Short htag =>
    exact length_append_pos_of_varintOk htag _

/-- The errors of R253 for what breaks off. -/
theorem BreaksOff.exists_error : ∃ e : ErrorCode, e.code = code := by
  cases hb with
  | tagCut | varintCut | lenCut => exact ⟨.vtrunc, rfl⟩
  | tagLong | varintLong | lenLong => exact ⟨.voverlong, rfl⟩
  | i64Short | lenShort | i32Short => exact ⟨.lenovr, rfl⟩

/-- A pair that breaks off is refused at a level that accepts its tag. -/
theorem BreaksOff.refused {l : Level} (hl : ∀ n t wt, allows n t → WireType.ofNumber t = some wt → l.Allows n wt) :
    ∃ e : ErrorCode, e.code = code ∧ Refused l bs e := by
  obtain ⟨e, he⟩ := hb.exists_error
  refine ⟨e, he, hb.nonempty, fun rd hi p o hh hend => ?_⟩
  obtain ⟨e', he', hwalk⟩ := walkField_breaks (sub := l.walkSub rd) (o := o) hb hl hh hend
  rw [hwalk, ErrorCode.code_injective (he'.trans he.symm)]
end

/-- Settles O56: at either level the pair that breaks off is refused with the code named. -/
theorem twdecRejectsBrokenMessages : Obligations.TwdecRejectsBrokenMessages := by
  unfold Obligations.TwdecRejectsBrokenMessages
  intro s items nested rest body ptag pre rest' code h hitems
  refine ⟨fun hb => ?_, fun hnested hb hbody hptag hposition hpre hcount => ?_⟩
  · obtain ⟨e, rfl, hbad⟩ := hb.refused fun _ _ _ => outer_allows
    exact exec_twdec_of_refused h hitems hbad
  · obtain ⟨e, rfl, hbad⟩ := hb.refused fun _ _ _ => nested_allows
    exact exec_twdec_of_refused h hitems (hbad.position hnested hbody hptag hposition hpre hcount)

end Sys2Proof.Machine

/-! PROOF. The strings and records that STRENC and RECENC write (44_record.md R217, R219): str_write at ARG0, and behind
RECENC's own three checks the 49 field bits and str_write. -/

namespace Sys2Proof.Machine

/-- Settles O44: STRENC is str_write at ARG0. -/
theorem strencAppendsTheString : Obligations.StrencAppendsTheString := by
  unfold Obligations.StrencAppendsTheString
  rintro s len pad m h hlen hpad rfl
  have hc := h.config.1.2
  have hword : len = varintEnc (BitVec.ofNat 32 s.arg1.toNat) := by rw [hlen, BitVec.ofNat_toNat, BitVec.setWidth_eq]
  refine ⟨fun hlong => finish_map_error _ (if_pos hlong), fun hn hx => finish_map_error (e := .xrange) _ ?_,
    fun hn hx hfull => finish_map_error _ (State.strWrite_full hc h.writer hn hx hword hpad hfull), fun hn hx hfit => ?_⟩
  · rw [State.strWrite, if_neg (show ¬ maxText < s.arg1.toNat from Nat.not_lt.2 hn), if_pos hx]
  · obtain ⟨w', hw, -, happ, hcnt, hacc, htot, -⟩ := State.strWrite_ok hc h.writer hn hx hword hpad hfit
    exact ⟨w', finish_map_ok _ hw, happ, hcnt, hacc, htot⟩

theorem NumericField.admits_iff (x : NumericField) (v : Word) :
    x.admits v = true ↔ x.lo ≤ v.toNat ∧ (v.toNat : Int) ≤ x.hi := decide_eq_true_iff

/-- The declared ranges of R214, with their numbers. -/
theorem inRange_player (f : FRegs) :
    inRange playerNumeric f = decide (f.f0.toNat ≤ 1023 ∧ f.f1.toNat ≤ 1023 ∧ f.f2.toNat ≤ 1023 ∧ f.f3.toNat ≤ 100 ∧
      f.f4.toNat ≤ 359 ∧ f.f5.toNat ≤ 3) := by
  rw [Bool.eq_iff_iff]
  simp only [inRange, playerNumeric, List.all_cons, List.all_nil, Bool.and_true, Bool.and_eq_true,
    NumericField.admits_iff, FRegs.get, decide_eq_true_eq]
  omega

/-- RECENC behind its checks (R219). -/
theorem exec_recenc_of_checked {s : State} (hr : inRange playerNumeric s.f = true) (hn : s.f.f7.toNat ≤ 255)
    (hx : s.arg0.toNat + s.f.f7.toNat ≤ s.cfg.xcap) :
    exec .recenc s = finish s (s.putPlayer.map fun w1 => (s.setWriter w1).setRes0 (w1.bytes - s.writer.bytes)) := by
  rw [exec, execRecenc, hr, if_neg (by decide), if_neg (show ¬ maxText < s.f.f7.toNat from Nat.not_lt.2 hn),
    if_neg (Nat.not_lt.2 hx)]

/-- Settles O47: the three checks as they stand, and the WOVF of the puts behind them. -/
theorem recencChecksInOrder : Obligations.RecencChecksInOrder := by
  unfold Obligations.RecencChecksInOrder
  intro s len pad ok h hlen hpad hok
  rw [← inRange_player] at hok
  subst hok
  refine ⟨fun hr => ?_, fun hr hlong => ?_, fun hr hn hx => ?_, fun hr hn hx hfull => ?_⟩
  · rw [exec, execRecenc, if_pos hr]
    exact finish_error s .range
  · rw [exec, execRecenc, hr, if_neg (by decide), if_pos (show maxText < s.f.f7.toNat from hlong)]
    exact finish_error s .strlen
  · rw [exec, execRecenc, hr, if_neg (by decide), if_neg (show ¬ maxText < s.f.f7.toNat from Nat.not_lt.2 hn), if_pos hx]
    exact finish_error s .xrange
  · rw [exec_recenc_of_checked hr hn hx]
    exact finish_map_error _ (State.putPlayer_full h.config.1.2 h.writer hn hx hlen hpad (by omega))

/-- Settles O48: behind its checks RECENC is the puts and the string of a PlayerState record. -/
theorem recencLaysOutTheRecord : Obligations.RecencLaysOutTheRecord := by
  unfold Obligations.RecencLaysOutTheRecord
  rintro s len pad m h hlen hpad rfl h0 h1 h2 h3 h4 h5 hn hx hfit
  have hr : inRange playerNumeric s.f = true := by
    rw [inRange_player]
    exact decide_eq_true ⟨h0, h1, h2, h3, h4, h5⟩
  obtain ⟨w', hw, -, happ, hcnt, hacc, htot, -⟩ := State.putPlayer_ok h.config.1.2 h.writer hn hx hlen hpad hfit
  rw [exec_recenc_of_checked hr hn hx]
  exact ⟨w', finish_map_ok _ hw, happ, hcnt, hacc, htot⟩

end Sys2Proof.Machine

/-! PROOF. The records that RECDEC reads (44_record.md R220): the 49 field bits, and str_read from the reader that has
taken them. -/

namespace Sys2Proof.Machine

/-- Settles O50: the takes fail on fewer than 49 bits, and the range check stands before the name. -/
theorem recdecRejectsFieldsOutOfRange : Obligations.RecdecRejectsFieldsOutOfRange := by
  unfold Obligations.RecdecRejectsFieldsOutOfRange
  intro s g h
  have hc := h.config.2.1.2
  refine ⟨fun hav => finish_map_error _ (State.takePlayer_short hc h.reader hav), fun hav hg hout =>
    finish_map_error (e := .range) _ ?_⟩
  obtain ⟨r1, -, -, -, -, htake⟩ := State.takePlayer_eq hc h.reader hav hg
  rw [htake, if_pos hout]

theorem boolWord_of_le_one {v : Word} (h : v.toNat ≤ 1) : boolWord v = v := by
  obtain h0 | h1 : v = 0 ∨ v = 1 := by bv_omega
  · exact h0 ▸ rfl
  · exact h1 ▸ rfl

/-- Fields in range are read back whole (R215): each is below two to its width, and alive is 0 or 1. -/
theorem playerFields_of_inRange {g : FRegs} (f : FRegs) (hr : inRange playerNumeric g = true) (h6 : g.f6.toNat ≤ 1) :
    ((playerFields g f).set .f6 (boolWord g.f6)).set .f7 g.f7 = g := by
  rw [inRange_player, decide_eq_true_eq] at hr
  obtain ⟨h0, h1, h2, h3, h4, h5⟩ := hr
  have e0 : fieldBits g.f0 10 = g.f0 := fieldBits_of_lt (by decide) (by omega)
  have e1 : fieldBits g.f1 10 = g.f1 := fieldBits_of_lt (by decide) (by omega)
  have e2 : fieldBits g.f2 10 = g.f2 := fieldBits_of_lt (by decide) (by omega)
  have e3 : fieldBits g.f3 7 = g.f3 := fieldBits_of_lt (by decide) (by omega)
  have e4 : fieldBits g.f4 9 = g.f4 := fieldBits_of_lt (by decide) (by omega)
  have e5 : fieldBits g.f5 2 = g.f5 := fieldBits_of_lt (by decide) (by omega)
  simp only [playerFields, FRegs.set, boolWord_of_le_one h6, e0, e1, e2, e3, e4, e5]

/-- Settles O49: behind its fields RECDEC is str_read from the reader that has taken them. -/
theorem recdecReadsTheRecord : Obligations.RecdecReadsTheRecord := by
  unfold Obligations.RecdecReadsTheRecord
  rintro s g n p v h rfl hav hg h0 h1 h2 h3 h4 h5 h6 hv rfl hn hx hrest
  have hc := h.config.2.1.2
  have hr : inRange playerNumeric g = true := by
    rw [inRange_player]
    exact decide_eq_true ⟨h0, h1, h2, h3, h4, h5⟩
  obtain ⟨r1, hinv, hcons, htot1, hcur1, htake⟩ := State.takePlayer_eq hc h.reader hav hg
  have hpulled := Reader.consumes_cur_varint h.reader hinv hcons hcur1 n
  have havail : s.reader.avail - 49 = r1.avail := by
    have := hcons.count
    omega
  rw [havail] at hv
  obtain ⟨-, -, -, hok⟩ := State.strRead_spec (a := s.arg0.toNat) hc hinv (hv.congr hcons.rest)
  obtain ⟨r', hread, -, hlen, hcur, hcnt, hacc, htot⟩ := hok hn hx (by rw [hpulled, hcons.length]; exact hrest)
  rw [hpulled] at hread hcur
  rw [if_neg (by omega), hread] at htake
  have hfields : s.takePlayer = .ok (g, r', _) :=
    htake.trans (congrArg (fun f => Except.ok (f, r', _)) (playerFields_of_inRange s.f hr h6))
  refine ⟨r', _, ?_, storedAt_storeBytes _ _ _, hlen.trans hcons.length, hcur, hcnt, hacc, ?_⟩
  · rw [← word_sub_eq_ofNat (a := s.reader.cur) (hcur.trans (Nat.add_assoc _ _ _))]
    exact finish_map_ok _ hfields
  · rw [htot, htot1, BitVec.add_assoc, ← BitVec.ofNat_add, Nat.add_assoc]

end Sys2Proof.Machine

/-! PROOF. The record round trip (44_record.md R221): the bits that RECENC appended are fields, a length varint and a text
as RECDEC reads them, and at the same alignment the padding ends on a byte boundary of RBUF. -/

namespace Sys2Proof.Machine

/-- Bits that begin with varint_enc(v) begin with a varint of value `v` (R195). -/
theorem varintAt_varintEnc {avail : Nat} {bit : Nat → Bool} (v : Word) (hav : 8 * (varintEnc v).length ≤ avail)
    (hb : ∀ k, k < 8 * (varintEnc v).length → bit k = bytesBit (varintEnc v) k) :
    VarintAt avail bit (varintEnc v).length v := by
  obtain ⟨hpos, hmax, hholds, -, hbytes⟩ := varintEnc_spec v
  have hflag : ∀ i, i < (varintEnc v).length → bit (8 * i + 7) = decide (i + 1 < (varintEnc v).length) := fun i hi => by
    rw [hb _ (by omega), bytesBit, show (8 * i + 7) / 8 = i by omega, show (8 * i + 7) % 8 = 7 by omega]
    exact (hbytes i hi).1
  refine ⟨⟨hpos, hmax⟩, hav, fun i hi => ?_, ?_, fun j hj => ?_⟩
  · rw [hflag i (by omega)]
    exact decide_eq_true hi
  · rw [hflag _ (by omega)]
    exact decide_eq_false (by omega)
  · by_cases hn : j / 7 < (varintEnc v).length
    · rw [decide_eq_true hn, Bool.true_and, hb _ (by omega), bytesBit, show (8 * (j / 7) + j % 7) / 8 = j / 7 by omega,
        show (8 * (j / 7) + j % 7) % 8 = j % 7 by omega, (hbytes _ hn).2 _ (by omega), Nat.div_add_mod]
    · rw [decide_eq_false hn, Bool.false_and]
      exact getLsbD_of_toNat_lt hholds (by omega)

/-- The unread bits behind those held are RBUF's (R161). -/
theorem Reader.bit_rbuf (rd : Nat → Byte) (r : Reader) (i : Nat) {j : Nat} (hj : j < 8) :
    r.bit rd (r.cnt.toNat + 8 * i + j) = (rd (r.cur.toNat + i)).getLsbD j := by
  rw [Reader.bit, if_neg (by omega), show (r.cnt.toNat + 8 * i + j - r.cnt.toNat) / 8 = i by omega,
    show (r.cnt.toNat + 8 * i + j - r.cnt.toNat) % 8 = j by omega]

theorem boolWord_le_one (v : Word) : (boolWord v).toNat ≤ 1 := by
  unfold boolWord
  split
  · decide
  · decide

theorem boolWord_ne_zero_iff (v : Word) : boolWord v ≠ 0 ↔ v ≠ 0 := by
  unfold boolWord
  split
  next h => exact iff_of_true (by decide) h
  next h => exact iff_of_false (by decide) h

/-- A record's field bits hold alive as 0 or 1 (R219). -/
theorem playerBits_boolWord (f : FRegs) (k : Nat) : playerBits { f with f6 := boolWord f.f6 } k = playerBits f k := by
  simp only [playerBits, boolWord_ne_zero_iff]

/-- A record's text (R216): byte `i` of it, bit by bit. -/
theorem recordBits_text (f : FRegs) (len : List Byte) (pad : Nat) (rd : Nat → Byte) {a n i j : Nat} (hi : i < n)
    (hj : j < 8) :
    recordBits f len pad (bytesFrom rd a n) (49 + 8 * len.length + pad + 8 * i + j) = (rd (a + i)).getLsbD j := by
  rw [recordBits, if_neg (by omega), textBits, if_neg (by omega), rawBits, if_neg (by omega), bytesBit,
    show (49 + 8 * len.length + pad + 8 * i + j - 49 - 8 * len.length - pad) / 8 = i by omega,
    show (49 + 8 * len.length + pad + 8 * i + j - 49 - 8 * len.length - pad) % 8 = j by omega,
    List.getD_eq_getElem?_getD, bytesFrom_get rd hi]
  rfl

/-- A RECENC that completed found its operands in range and room for the record (R219). -/
theorem exec_recenc_completed {s t : State} {pad : Nat} (h : s.Inv) (ht : exec .recenc s = .next t)
    (hok : t.status.ecode = 0x00) (hpad : pad = padBits (s.writer.bitCount + 49 + 8 * (varintEnc s.f.f7).length)) :
    inRange playerNumeric s.f = true ∧ s.f.f7.toNat ≤ 255 ∧
      s.writer.Appends t.writer (49 + 8 * (varintEnc s.f.f7).length + pad + 8 * s.f.f7.toNat)
        (recordBits s.f (varintEnc s.f.f7) pad (bytesFrom s.xbufByte s.arg0.toNat s.f.f7.toNat)) := by
  have hfail : ∀ c : BitVec 8, c ≠ 0x00 → exec .recenc s ≠ .next (s.failed c) := fun c hc hf => by
    rw [← Host.Outcome.next.inj (hf.symm.trans ht)] at hok
    exact hc hok
  obtain ⟨hrange, hstrlen, hxrange, hwovf⟩ := recencChecksInOrder s _ pad _ h rfl hpad rfl
  rw [← inRange_player] at hrange hstrlen hxrange hwovf
  have hr : inRange playerNumeric s.f = true := by
    cases hin : inRange playerNumeric s.f with
    | true => rfl
    | false => exact absurd (hrange hin) (hfail _ (by decide))
  have hn : s.f.f7.toNat ≤ 255 := Nat.not_lt.1 fun hlong => hfail _ (by decide) (hstrlen hr hlong)
  have hx : s.arg0.toNat + s.f.f7.toNat ≤ s.cfg.xcap := Nat.not_lt.1 fun hover => hfail _ (by decide) (hxrange hr hn hover)
  have hfit := Nat.not_lt.1 fun hfull => hfail _ (by decide) (hwovf hr hn hx hfull)
  obtain ⟨w', hw, -, happ, -⟩ := State.putPlayer_ok h.config.1.2 h.writer hn hx rfl hpad (by omega)
  rw [exec_recenc_of_checked hr hn hx, finish_map_ok _ hw] at ht
  rw [← Host.Outcome.next.inj ht]
  exact ⟨hr, hn, happ⟩

/-- Settles O51: RECDEC reads the fields with alive as 0 or 1, and the text stands where the padding ends. -/
theorem recordsRoundTrip : Obligations.RecordsRoundTrip := by
  unfold Obligations.RecordsRoundTrip
  intro s t u m h ht hok hu hm hav hbits halign hx
  obtain ⟨pad, hpad⟩ : ∃ pad, pad = padBits (s.writer.bitCount + 49 + 8 * (varintEnc s.f.f7).length) := ⟨_, rfl⟩
  obtain ⟨hr, hn, happ⟩ := exec_recenc_completed h ht hok hpad
  have hlen : m = 49 + 8 * (varintEnc s.f.f7).length + pad + 8 * s.f.f7.toNat := by
    have := happ.count
    omega
  have hread : ∀ k, k < m → u.reader.bit u.rbufByte k =
      recordBits s.f (varintEnc s.f.f7) pad (bytesFrom s.xbufByte s.arg0.toNat s.f.f7.toNat) k :=
    fun k hk => (hbits k hk).trans (happ.added k (hlen ▸ hk))
  -- the padding ends on a byte boundary of RBUF, as it does in WBUF
  have hend : u.reader.cnt.toNat + 8 * ceil8 (49 + 8 * (varintEnc s.f.f7).length - u.reader.cnt.toNat) =
      49 + 8 * (varintEnc s.f.f7).length + pad := by
    have := hu.reader.partialByte
    unfold padBits Writer.bitCount at hpad
    unfold ceil8
    omega
  obtain ⟨h0, h1, h2, h3, h4, h5⟩ := of_decide_eq_true ((inRange_player s.f).symm.trans hr)
  obtain ⟨r', xb, hexec, hstored, -⟩ := recdecReadsTheRecord u { s.f with f6 := boolWord s.f.f6 } (varintEnc s.f.f7).length
    _ s.f.f7 hu rfl (by omega)
    (fun k hk => by rw [hread k (by omega), recordBits, if_pos hk, playerBits_boolWord]) h0 h1 h2 h3 h4 h5
    (boolWord_le_one s.f.f6)
    (varintAt_varintEnc s.f.f7 (by omega) fun k hk => by
      rw [hread _ (by omega), recordBits, if_neg (by omega), textBits, Nat.add_sub_cancel_left, if_pos hk])
    rfl hn hx (by have := Reader.avail_eq u.reader; have := hu.reader.cursor; omega)
  refine ⟨_, hexec, rfl, ?_, fun i hi => ?_⟩
  · change { s.f with f6 := boolWord s.f.f6 } = _
    rw [boolWord, ite_not]
  · refine (hstored _).trans ?_
    rw [bytesFrom_length, if_pos (by omega), Nat.add_sub_cancel_left, bytesFrom_get _ hi]
    refine congrArg some (BitVec.eq_of_getLsbD_eq fun j hj => ?_)
    rw [Nat.add_assoc, ← Reader.bit_rbuf u.rbufByte u.reader _ hj, Nat.mul_add, ← Nat.add_assoc, hend,
      hread _ (by omega)]
    exact recordBits_text s.f _ pad s.xbufByte hi hj

end Sys2Proof.Machine

/-! PROOF. Tags by arithmetic (45_tagged_wire.md R242-R245), and the tagged-wire round trip (R258): TWENC's message is
one that TWDEC's walk accepts, and its items put the record back. -/

namespace Sys2Proof.Machine

/-! Tags. -/

/-- The bits of a tag in closed form (R242): the wire type lies below the shifted field number. -/
theorem tagBits_eq_ofNat {fn wt : Word} (hfn : fn.toNat < 2 ^ 29) (hwt : wt.toNat ≤ 7) :
    tagBits fn wt = BitVec.ofNat 32 (8 * fn.toNat + wt.toNat) := by
  apply BitVec.eq_of_toNat_eq
  rw [tagBits, BitVec.toNat_or, BitVec.toNat_shiftLeft, Nat.mod_eq_of_lt (by rw [Nat.shiftLeft_eq]; omega),
    ← Nat.shiftLeft_add_eq_or_of_lt (by omega), BitVec.toNat_ofNat, Nat.shiftLeft_eq]
  omega

/-- A tag's field number is the tag div 8 (R243). -/
theorem tagField_eq_ofNat (tag : Word) : tagField tag = BitVec.ofNat 32 (tag.toNat / 8) := by
  rw [← tagField_tag (v := tag) (Nat.div_add_mod _ 8).symm (Nat.mod_lt _ (by decide)), BitVec.ofNat_toNat,
    BitVec.setWidth_eq]

/-- A tag's wire type bits are the tag mod 8 (R243). -/
theorem tagWire_eq_ofNat (tag : Word) : tagWire tag = BitVec.ofNat 32 (tag.toNat % 8) := by
  rw [← tagWire_tag (v := tag) (Nat.div_add_mod _ 8).symm (Nat.mod_lt _ (by decide)), BitVec.ofNat_toNat,
    BitVec.setWidth_eq]

/-- Settles O52: MKTAG commits the tag's closed form behind its range check, and PTAG the two parts of any tag. -/
theorem tagsPackAndParse : Obligations.TagsPackAndParse := by
  unfold Obligations.TagsPackAndParse
  refine fun s => ⟨fun hout => finish_map_error _ (if_pos hout), fun hfn hwt => ?_, ?_⟩
  · rw [← tagBits_eq_ofNat hfn hwt]
    exact finish_map_ok _ (if_neg (by omega))
  · rw [← tagField_eq_ofNat, ← tagWire_eq_ofNat]
    exact finish_ok s _

/-! TWENC's message as TWDEC's items. -/

/-- The items of the message TWENC writes (R246, R247): the id, then a position with all three coordinates. -/
def objectItems (o : ObjectRec) : List MessageItem :=
  [.id [0x08] (varintEnc o.id),
    .position [0x12] [0x0F] [⟨[0x0D], .i32 o.x⟩, ⟨[0x15], .i32 o.y⟩, ⟨[0x1D], .i32 o.z⟩]]

theorem messageOf_objectItems (o : ObjectRec) : messageOf (objectItems o) = messageBytes o := by
  rw [messageBytes_eq]
  simp [messageOf, objectItems, MessageItem.field, WireField.bytes, WireValue.bytes]

/-- A byte without its continuation flag is a varint (R180). -/
theorem varintOk_singleton (b : Byte) : varintOk [b] = !b.getLsbD 7 := rfl

/-- A one-byte varint's value is the byte's data bits (R180). -/
theorem toNat_varintWord_singleton (b : Byte) : (varintWord [b]).toNat = b.toNat % 2 ^ 7 := by
  rw [varintWord, groupsValue, groupsValue, BitVec.toNat_ofNat]
  omega

/-- The walk accepts every item TWENC writes (R253). -/
theorem objectItems_ok (o : ObjectRec) : (objectItems o).all MessageItem.ok = true := by
  have hid : MessageItem.ok (.id [0x08] (varintEnc o.id)) = true := by
    simp [MessageItem.ok, MessageItem.field, WireField.ok, WireField.number, WireValue.number, WireValue.ok,
      varintOk_singleton, toNat_varintWord_singleton, varintEnc_ok]
  have hposition : MessageItem.ok
      (.position [0x12] [0x0F] [⟨[0x0D], .i32 o.x⟩, ⟨[0x15], .i32 o.y⟩, ⟨[0x1D], .i32 o.z⟩]) = true := by
    simp [MessageItem.ok, MessageItem.field, WireField.nestedOk, WireField.ok, WireField.number, WireField.bytes,
      WireValue.number, WireValue.ok, WireValue.bytes, le32Bytes, varintOk_singleton, toNat_varintWord_singleton]
  rw [objectItems, List.all_cons, List.all_cons, hid, hposition]
  rfl

/-- The items put the record back, whatever stood before (R251, R195). -/
theorem foldl_objectItems (o start : ObjectRec) : (objectItems o).foldl MessageItem.apply start = o := by
  simp [objectItems, MessageItem.apply, WireField.applyNested, WireField.number, toNat_varintWord_singleton,
    varintEnc_ok]

/-! The bytes between WBUF and RBUF. -/

/-- Bytes appended behind zero padding stand in WBUF as the last committed ones (R148): byte `i` of them. -/
theorem State.wbufByte_appended {t : State} {w : Writer} {bs : List Byte} {a pad i : Nat} (h : t.Inv)
    (happ : w.Appends t.writer (pad + 8 * bs.length) (rawBits pad bs)) (hcnt : t.writer.cnt = 0)
    (ha : a + bs.length = t.writer.bytes.toNat) (hi : i < bs.length) : t.wbufByte (a + i) = bs[i] := by
  have hbegin : w.bitCount + pad = 8 * a := by
    have hcount := happ.count
    rw [Writer.bitCount, hcnt] at hcount
    change 8 * t.writer.bytes.toNat + 0 = _ at hcount
    omega
  refine BitVec.eq_of_getLsbD_eq fun j hj => ?_
  have hbit := State.wbufByte_bit h (k := 8 * (a + i) + j) (by omega)
  rw [show (8 * (a + i) + j) / 8 = a + i by omega, show (8 * (a + i) + j) % 8 = j by omega] at hbit
  rw [hbit, show 8 * (a + i) + j = w.bitCount + (pad + 8 * i + j) by omega, happ.added _ (by omega), rawBits,
    if_neg (by omega), bytesBit, show (pad + 8 * i + j - pad) / 8 = i by omega,
    show (pad + 8 * i + j - pad) % 8 = j by omega, List.getD_eq_getElem _ _ hi]

/-- A region holds bytes that it agrees with one by one. -/
theorem HoldsAt.of_getElem {rd : Nat → Byte} {p : Nat} {bs : List Byte}
    (h : ∀ i, (hi : i < bs.length) → rd (p + i) = bs[i]) : HoldsAt rd p bs := by
  refine List.ext_getElem (bytesFrom_length _ _ _) fun i _ hi => ?_
  rw [← h i hi]
  simp [bytesFrom]

/-- A message has at most 23 bytes (R249). -/
theorem messageBytes_length_le (o : ObjectRec) : (messageBytes o).length ≤ 23 := by
  have hid := (varintEnc_spec o.id).2.1
  rw [messageBytes_eq]
  simp only [List.length_append, List.length_cons, List.length_nil, show ∀ v, (le32Bytes v).length = 4 from fun _ => rfl]
  omega

/-- A TWENC that completed has put its message in WBUF as the last committed bytes, and RES0 is its length (R250). -/
theorem exec_twenc_completed {s t : State} {a : Nat} (h : s.Inv) (ht : exec .twenc s = .next t)
    (hok : t.status.ecode = 0x00) (ha : a + t.res0.toNat = t.writer.bytes.toNat) :
    t.res0.toNat = (messageBytes (objectOf s.f)).length ∧ HoldsAt t.wbufByte a (messageBytes (objectOf s.f)) := by
  have hinv := exec_inv h ht
  obtain ⟨hwovf, hdone⟩ := twencLaysOutTheMessage s _ h (messageBytes_eq (objectOf s.f))
  by_cases hfit : ceil8 s.writer.bitCount + (messageBytes (objectOf s.f)).length ≤ s.cfg.wcap
  · obtain ⟨w', hexec, happ, hcnt, -⟩ := hdone hfit
    obtain rfl := Host.Outcome.next.inj (hexec.symm.trans ht)
    have hlen := Nat.mod_eq_of_lt (Nat.lt_of_le_of_lt (messageBytes_length_le (objectOf s.f)) (by decide : 23 < 2 ^ 32))
    refine ⟨hlen, HoldsAt.of_getElem fun i hi => State.wbufByte_appended hinv happ hcnt ?_ hi⟩
    rw [← ha]
    exact congrArg (a + ·) hlen.symm
  · rw [← Host.Outcome.next.inj ((hwovf (Nat.not_le.1 hfit)).symm.trans ht)] at hok
    exact absurd hok (show ¬ (0x04 : BitVec 8) = 0x00 by decide)

/-- Settles O57: the reader stands at the items of TWENC's message, and TWDEC commits the record they put back. -/
theorem taggedObjectsRoundTrip : Obligations.TaggedObjectsRoundTrip := by
  unfold Obligations.TaggedObjectsRoundTrip
  intro s t u a h ht hok hu ha harg hleft hcopy
  obtain ⟨hlen, hmem⟩ := exec_twenc_completed h ht hok ha
  have hraw : u.reader.HoldsRaw u.rbufByte (messageBytes (objectOf s.f)) := by
    refine ⟨hlen ▸ hleft, Eq.trans (List.map_congr_left fun i hi => ?_) hmem⟩
    exact hcopy i (hlen ▸ List.mem_range.1 hi)
  rw [← messageOf_objectItems] at hlen hraw
  exact ⟨_, twdecDecodesEveryMessage u _ _ hu (objectItems_ok _) (harg ▸ hlen) hraw (foldl_objectItems _ _).symm,
    rfl, rfl, rfl, rfl, rfl⟩

end Sys2Proof.Machine

/-! PROOF. How a step ends (20_memory.md R64; 60_exceptions.md R284, R287; 70_reset_and_hazards.md R302): an idle block
holds its state, every command cycle has a next state, and only a host read or write can stop the machine. -/

namespace Sys2Proof.Machine

/-- Settles O11: a step serves the oldest pending access, and there is none. -/
theorem idleBlockHoldsItsState : Obligations.IdleBlockHoldsItsState := by
  unfold Obligations.IdleBlockHoldsItsState
  exact fun _ h => step_idle h

/-- A command cycle always has a next state: a word that decodes runs a command that has one, any other word takes the
error entry (R121, R123). -/
theorem commandCycle_exists_next (c : Word) (s : State) : ∃ t, commandCycle c s = .next t := by
  cases hd : decode c with
  | ok i =>
    rw [commandCycle_of_decode_ok hd]
    obtain ⟨t, ht, -⟩ | ⟨code, -, -, ht⟩ := commandsCompleteOrFailPrecisely i (s.setCmd c)
    · exact ⟨t, ht⟩
    · exact ⟨_, ht⟩
  | error e => exact ⟨_, commandCycle_of_decode_error hd s⟩

/-- A host access ends in a next state or in a bus error. -/
theorem serveAccess_ne_refused (a : HostAccess) (s : State) (r : Refusal) : serveAccess a s ≠ .refused r := by
  rw [serveAccess]
  cases portAccess a s with
  | done s' => exact nofun
  | command c s' =>
    obtain ⟨t, ht⟩ := commandCycle_exists_next c s'
    change commandCycle c s' ≠ _
    rw [ht]
    exact nofun
  | busError f => exact nofun

theorem step_ne_refused (s : State) (r : Refusal) : step s ≠ .refused r := by
  cases hq : s.hostQueue with
  | nil =>
    rw [step_idle hq]
    exact nofun
  | cons a q =>
    rw [step_cons hq]
    exact serveAccess_ne_refused a _ r

/-- The reset input is no bus access, so it is no bus error (R300). -/
theorem step_reset_ne_fault {s : State} {q : List HostAccess} (h : s.hostQueue = .reset :: q) (e : Fault) :
    step s ≠ .fault e := by
  intro hf
  obtain ⟨f, hbus⟩ := (step_fault_iff h).1 ⟨e, hf⟩
  exact nomatch hbus

/-- Settles O12: a fault needs a pending access; a reset is no bus error, and a 32-bit write to CMD runs a command
cycle. -/
theorem onlyBusAccessesFault : Obligations.OnlyBusAccessesFault := by
  unfold Obligations.OnlyBusAccessesFault
  refine fun s => ⟨step_ne_refused s, fun e he => ?_⟩
  cases hq : s.hostQueue with
  | nil =>
    rw [step_idle hq] at he
    exact nomatch he
  | cons a q =>
    refine ⟨a, q, rfl, ?_, ?_⟩
    · rintro rfl
      exact step_reset_ne_fault hq e he
    · rintro c rfl
      exact commandCycle_ne_fault c _ e ((step_cmd hq).symm.trans he)

end Sys2Proof.Machine

/-! PROOF. The error codes of each command (60_exceptions.md R271, R272): which checks each operation makes, from the
micro-operations up, and that a command raises no code but those of its operations. -/

namespace Sys2Proof.Machine

/-- The error's code stands in the list `codes`. -/
abbrev ErrorCode.ListedIn (codes : List Nat) (e : ErrorCode) : Prop := e.code.toNat ∈ codes

/-- Where the operation fails, its error is one of the list. -/
def FailsOnlyWith {α : Type} (codes : List Nat) (x : Except ErrorCode α) : Prop := ∀ e, x = .error e → e.ListedIn codes

section
variable {α β : Type} {codes : List Nat} {x y : Except ErrorCode α} {a : α} {e : ErrorCode}

theorem FailsOnlyWith.ok : FailsOnlyWith codes (.ok a) := fun _ h => nomatch h

theorem FailsOnlyWith.error (he : e.ListedIn codes) : FailsOnlyWith codes (.error e : Except ErrorCode α) :=
  fun _ h => Except.error.inj h ▸ he

theorem FailsOnlyWith.bind {f : α → Except ErrorCode β} (h : FailsOnlyWith codes x)
    (hf : ∀ a, FailsOnlyWith codes (f a)) : FailsOnlyWith codes (x >>= f) := by
  cases x with
  | ok a => exact hf a
  | error e => exact .error (h e rfl)

theorem FailsOnlyWith.map {f : α → β} (h : FailsOnlyWith codes x) : FailsOnlyWith codes (x.map f) := by
  cases x with
  | ok a => exact .ok
  | error e => exact .error (h e rfl)

theorem FailsOnlyWith.ite {c : Prop} [Decidable c] (h : FailsOnlyWith codes x) (h' : FailsOnlyWith codes y) :
    FailsOnlyWith codes (if c then x else y) := by
  split
  · exact h
  · exact h'

/-- A check that raises an error, before the rest of the operation. -/
theorem FailsOnlyWith.check {c : Prop} [Decidable c] (he : e.ListedIn codes) (h : FailsOnlyWith codes x) :
    FailsOnlyWith codes (if c then .error e else x) :=
  .ite (.error he) h

/-- A command's ECODE is OK, or the code of the error its operations raised (R121, R274). -/
theorem finish_ecode {s t : State} {r : Except ErrorCode State} (hr : FailsOnlyWith codes r) (h : finish s r = .next t) :
    t.status.ecode.toNat ∈ 0x00 :: codes := by
  obtain ⟨s', -, rfl⟩ | ⟨e, he, rfl⟩ := finish_cases h
  · exact List.mem_cons_self
  · exact List.mem_cons_of_mem _ (hr e he)
end

/-! The writer. -/

section
variable {codes : List Nat} (hwovf : ErrorCode.wovf.ListedIn codes)
include hwovf

theorem Writer.put_failsOnlyWith (cap : Nat) (v : Word) (n : Nat) (w : Writer) : FailsOnlyWith codes (w.put cap v n) :=
  .check hwovf .ok

theorem Writer.putBytes_failsOnlyWith (cap : Nat) (bs : List Byte) (w : Writer) :
    FailsOnlyWith codes (w.putBytes cap bs) := by
  induction bs generalizing w with
  | nil => exact .ok
  | cons b bs ih => exact (Writer.put_failsOnlyWith hwovf _ _ _ _).bind ih

theorem Writer.putRaw_failsOnlyWith (cap : Nat) (bs : List Byte) (w : Writer) : FailsOnlyWith codes (w.putRaw cap bs) :=
  .check hwovf .ok

/-- str_write (R212) after its own two checks fails only as the writer does. -/
theorem State.strWrite_failsOnlyWith (hstrlen : ErrorCode.strlen.ListedIn codes)
    (hxrange : ErrorCode.xrange.ListedIn codes) (s : State) (a n : Nat) (w : Writer) :
    FailsOnlyWith codes (s.strWrite a n w) :=
  .check hstrlen <| .check hxrange <| (Writer.putBytes_failsOnlyWith hwovf _ _ _).bind fun _ =>
    Writer.putRaw_failsOnlyWith hwovf _ _ _
end

/-! Ranges. -/

section
variable {codes : List Nat} (hrange : ErrorCode.range.ListedIn codes)
include hrange

theorem bitsRequired_failsOnlyWith (lo hi : Int) : FailsOnlyWith codes (bitsRequired lo hi) := .check hrange .ok

theorem makeTag_failsOnlyWith (fn wt : Word) : FailsOnlyWith codes (makeTag fn wt) := .check hrange .ok

theorem putNumeric_failsOnlyWith (hwovf : ErrorCode.wovf.ListedIn codes) (cap : Nat) (f : FRegs)
    (xs : List NumericField) (w : Writer) : FailsOnlyWith codes (putNumeric cap f xs w) := by
  induction xs generalizing w with
  | nil => exact .ok
  | cons x xs ih =>
    exact (bitsRequired_failsOnlyWith hrange _ _).bind fun n => (Writer.put_failsOnlyWith hwovf _ _ _ _).bind ih

theorem State.putPlayer_failsOnlyWith (hwovf : ErrorCode.wovf.ListedIn codes)
    (hstrlen : ErrorCode.strlen.ListedIn codes) (hxrange : ErrorCode.xrange.ListedIn codes) (s : State) :
    FailsOnlyWith codes s.putPlayer :=
  (putNumeric_failsOnlyWith hrange hwovf _ _ _ _).bind fun _ => (Writer.put_failsOnlyWith hwovf _ _ _ _).bind fun _ =>
    (State.strWrite_failsOnlyWith hwovf hstrlen hxrange _ _ _ _).bind fun _ => .ok
end

/-! The reader. -/

theorem Reader.take_failsOnlyWith {codes : List Nat} (hunderrun : ErrorCode.underrun.ListedIn codes) (rd : Nat → Byte)
    (n : Nat) (r : Reader) : FailsOnlyWith codes (r.take rd n) :=
  .check hunderrun .ok

theorem Reader.takeRaw_failsOnlyWith {codes : List Nat} (htrunc : ErrorCode.trunc.ListedIn codes) (rd : Nat → Byte)
    (a n : Nat) (r : Reader) (xb : Memory) : FailsOnlyWith codes (r.takeRaw rd a n xb) :=
  .check htrunc .ok

theorem takeNumeric_failsOnlyWith {codes : List Nat} (hunderrun : ErrorCode.underrun.ListedIn codes)
    (hrange : ErrorCode.range.ListedIn codes) (rd : Nat → Byte) (xs : List NumericField) (f : FRegs) (r : Reader) :
    FailsOnlyWith codes (takeNumeric rd xs f r) := by
  induction xs generalizing f r with
  | nil => exact .ok
  | cons x xs ih =>
    exact (bitsRequired_failsOnlyWith hrange _ _).bind fun n =>
      (Reader.take_failsOnlyWith hunderrun _ _ _).bind fun v => ih _ _

section
variable {codes : List Nat} (hvtrunc : ErrorCode.vtrunc.ListedIn codes)
  (hvoverlong : ErrorCode.voverlong.ListedIn codes)
include hvtrunc hvoverlong

/-- varint_dec (R182) fails only where its source ends, or after its last round. -/
theorem varintDecLoop_failsOnlyWith {σ : Type} (next : σ → Option (Byte × σ)) (fuel n : Nat) (acc : Word) (src : σ) :
    FailsOnlyWith codes (varintDecLoop next fuel acc n src) := by
  induction fuel generalizing acc n src with
  | zero => exact .error hvoverlong
  | succ fuel ih =>
    rw [varintDecLoop]
    cases next src with
    | none => exact .error hvtrunc
    | some v => exact .ite (ih _ _ _) .ok

theorem varintDec_failsOnlyWith {σ : Type} (next : σ → Option (Byte × σ)) (src : σ) :
    FailsOnlyWith codes (varintDec next src) :=
  varintDecLoop_failsOnlyWith hvtrunc hvoverlong next 5 0 0 src

/-- str_read (R213): a length, its two checks, and the bytes. -/
theorem State.strRead_failsOnlyWith (hstrlen : ErrorCode.strlen.ListedIn codes)
    (hxrange : ErrorCode.xrange.ListedIn codes) (htrunc : ErrorCode.trunc.ListedIn codes) (s : State) (a : Nat)
    (r : Reader) : FailsOnlyWith codes (s.strRead a r) :=
  (varintDec_failsOnlyWith hvtrunc hvoverlong _ _).bind fun _ => .check hstrlen <| .check hxrange <|
    (Reader.takeRaw_failsOnlyWith htrunc _ _ _ _ _).bind fun _ => .ok

/-! The walk of a tagged-wire message. -/

theorem regionVarint_failsOnlyWith (rd : Nat → Byte) (hi p : Nat) : FailsOnlyWith codes (regionVarint rd hi p) :=
  (varintDec_failsOnlyWith hvtrunc hvoverlong _ _).map

variable (hlenovr : ErrorCode.lenovr.ListedIn codes) (hwiretype : ErrorCode.wiretype.ListedIn codes)
  {sub : Nat → Nat → ObjectRec → Except ErrorCode ObjectRec} (rd : Nat → Byte)
include hlenovr

/-- A value that does not fit its region is LENOVR; else only its varint or the nested walk can fail (R251, R253). -/
theorem walkValue_failsOnlyWith (hsub : ∀ lo hi o, FailsOnlyWith codes (sub lo hi o)) (hi p : Nat)
    (k : Option FieldKind) (wt : WireType) (o : ObjectRec) : FailsOnlyWith codes (walkValue rd sub hi p k wt o) := by
  have hvarint := regionVarint_failsOnlyWith hvtrunc hvoverlong rd hi p
  cases wt with
  | varint => exact hvarint.bind fun _ => .ok
  | i64 => exact .check hlenovr .ok
  | i32 => exact .check hlenovr .ok
  | len => exact hvarint.bind fun _ => .check hlenovr <| .ite .ok <| (hsub _ _ _).bind fun _ => .ok

include hwiretype

/-- Behind the tag a pair is WIRETYPE or a value (R251, R253). -/
theorem walkField_failsOnlyWith (hsub : ∀ lo hi o, FailsOnlyWith codes (sub lo hi o)) (l : Level) (hi p : Nat)
    (o : ObjectRec) : FailsOnlyWith codes (walkField rd sub l hi p o) := by
  refine (regionVarint_failsOnlyWith hvtrunc hvoverlong rd hi p).bind fun t => ?_
  have hvalue := walkValue_failsOnlyWith hvtrunc hvoverlong hlenovr rd hsub hi t.2
  split
  · exact .error hwiretype
  · split
    · exact hvalue _ _ _
    · exact .ite (hvalue _ _ _) (.error hwiretype)

theorem walkLoop_failsOnlyWith (hsub : ∀ lo hi o, FailsOnlyWith codes (sub lo hi o)) (l : Level) (hi fuel p : Nat)
    (o : ObjectRec) : FailsOnlyWith codes (walkLoop rd sub l hi fuel p o) := by
  induction fuel generalizing p o with
  | zero => exact .ok
  | succ fuel ih =>
    exact .ite ((walkField_failsOnlyWith hvtrunc hvoverlong hlenovr hwiretype rd hsub l hi p o).bind fun _ => ih _ _) .ok

theorem walkNested_failsOnlyWith (lo hi : Nat) (o : ObjectRec) : FailsOnlyWith codes (walkNested rd lo hi o) :=
  walkLoop_failsOnlyWith hvtrunc hvoverlong hlenovr hwiretype rd (fun _ _ _ => .ok) _ _ _ _ _

theorem walkOuter_failsOnlyWith (lo hi : Nat) (o : ObjectRec) : FailsOnlyWith codes (walkOuter rd lo hi o) :=
  walkLoop_failsOnlyWith hvtrunc hvoverlong hlenovr hwiretype rd
    (walkNested_failsOnlyWith hvtrunc hvoverlong hlenovr hwiretype rd) _ _ _ _ _
end

/-- The record decoder (R220): the field bits, their range check, and the name. -/
theorem State.takePlayer_failsOnlyWith {codes : List Nat} (hunderrun : ErrorCode.underrun.ListedIn codes)
    (hrange : ErrorCode.range.ListedIn codes) {s : State}
    (hname : ∀ r, FailsOnlyWith codes (s.strRead s.arg0.toNat r)) : FailsOnlyWith codes s.takePlayer :=
  (takeNumeric_failsOnlyWith hunderrun hrange _ _ _ _).bind fun _ =>
    (Reader.take_failsOnlyWith hunderrun _ _ _).bind fun _ => .check hrange <| (hname _).bind fun _ => .ok

/-- Settles O18: each command ends by `finish`, and each check its operations make raises a code of its row. -/
theorem commandsFailOnlyAsListed : Obligations.CommandsFailOnlyAsListed := by
  unfold Obligations.CommandsFailOnlyAsListed
  intro i s t h
  cases i with
  | nop | winit | flush | zzenc32 | zzdec32 | zzenc64 | zzdec64 | ptag => exact finish_ecode (s := s) .ok h
  | wrbits w =>
    exact finish_ecode (codes := [0x02, 0x04]) (.ite (Writer.put_failsOnlyWith (by decide) _ _ _ _).map
      (.error (by decide))) h
  | wrbool => exact finish_ecode (Writer.put_failsOnlyWith (by decide) _ _ _ _).map h
  | wrbytes => exact finish_ecode (.check (by decide) (Writer.putRaw_failsOnlyWith (by decide) _ _ _).map) h
  | rinit => exact finish_ecode (.check (by decide) .ok) h
  | rdbits w =>
    exact finish_ecode (codes := [0x02, 0x03]) (.ite (Reader.take_failsOnlyWith (by decide) _ _ _).map
      (.error (by decide))) h
  | rdbool => exact finish_ecode (Reader.take_failsOnlyWith (by decide) _ _ _).map h
  | rdbytes => exact finish_ecode (.check (by decide) (.ite .ok .ok)) h
  | venc | svenc => exact finish_ecode (Writer.putBytes_failsOnlyWith (by decide) _ _ _).map h
  | vdec | svdec => exact finish_ecode (varintDec_failsOnlyWith (by decide) (by decide) _ _).map h
  | bitsreq => exact finish_ecode (bitsRequired_failsOnlyWith (by decide) _ _).map h
  | strenc =>
    exact finish_ecode (State.strWrite_failsOnlyWith (by decide) (by decide) (by decide) _ _ _ _).map h
  | strdec =>
    exact finish_ecode (State.strRead_failsOnlyWith (by decide) (by decide) (by decide) (by decide) (by decide)
      _ _ _).map h
  | recenc =>
    exact finish_ecode (.check (by decide) <| .check (by decide) <| .check (by decide)
      (State.putPlayer_failsOnlyWith (by decide) (by decide) (by decide) (by decide) _).map) h
  | recdec =>
    exact finish_ecode (State.takePlayer_failsOnlyWith (by decide) (by decide) fun _ =>
      State.strRead_failsOnlyWith (by decide) (by decide) (by decide) (by decide) (by decide) _ _ _).map h
  | mktag => exact finish_ecode (makeTag_failsOnlyWith (by decide) _ _).map h
  | twenc => exact finish_ecode (Writer.putRaw_failsOnlyWith (by decide) _ _ _).map h
  | twdec =>
    exact finish_ecode (.check (by decide)
      (walkOuter_failsOnlyWith (by decide) (by decide) (by decide) (by decide) _ _ _ _).map) h

end Sys2Proof.Machine

/-! PROOF. The reset input (70_reset_and_hazards.md R300, R301): one step to the reset values of this implementation,
whose fresh writer and reader meet R28 and R30 at every capacity. -/

namespace Sys2Proof.Machine

/-- A step that serves the reset input (R300). -/
theorem step_reset {s : State} {q : List HostAccess} (h : s.hostQueue = .reset :: q) :
    step s = .next (hardReset (s.setHostQueue q)) := by
  rw [step_cons h]
  rfl

theorem Writer.empty_inv (cap : Nat) : Writer.empty.Inv cap := Writer.restart_inv (w := Writer.empty) rfl rfl

theorem Reader.empty_inv (cap : Nat) : Reader.empty.Inv cap := Reader.start_inv (Nat.zero_le cap)

/-- R301: no byte of any buffer is known. -/
theorem hardReset_read (s : State) (i : Nat) :
    Memory.read (hardReset s).writer.buf i = none ∧ Memory.read (hardReset s).rbuf i = none ∧
      Memory.read (hardReset s).xbuf i = none :=
  ⟨Memory.read_nil i, Memory.read_nil i, Memory.read_nil i⟩

/-- Settles O13: the reset input is one step to `hardReset`, which takes from the state before it only the parameters,
what is the host's and the draws; so each register's value is its reset value by definition. -/
theorem resetEstablishesTheResetState : Obligations.ResetEstablishesTheResetState := by
  unfold Obligations.ResetEstablishesTheResetState
  intro s q h
  exact ⟨hardReset (s.setHostQueue q), step_reset h, rfl, rfl, rfl, rfl, rfl, rfl, rfl, rfl, rfl, rfl, rfl, rfl, rfl,
    hardReset_read _, Writer.empty_inv _, Reader.empty_inv _⟩

end Sys2Proof.Machine
